-- ==== Sys2Proof/Word.lean ====
section
/-! DEFINITION. The word types of the block: 32-bit words and bytes (spec/10_state.md R21, spec/20_memory.md R56). -/

namespace Sys2Proof

/-- A 32-bit unsigned word, `XLEN` = 32 (spec/00_scope.md R8, R10). -/
abbrev Word := BitVec 32

/-- A byte of the Target, the smallest addressable unit (spec/20_memory.md R56). -/
abbrev Byte := BitVec 8

end Sys2Proof
end

