-- ==== Sys2Proof/Config.lean ====
section
/-! DEFINITION. The parameters of spec/00_scope.md R8 as arguments of the model, the constraint R9 puts on the two OPEN
ones, and the free values the spec leaves open. -/

namespace Sys2Proof.Config

/-- The largest legal duty percentage (spec/10_state.md R20). -/
def maxDuty : Nat := 100

/-- The parameters of R8, arguments of the model: the spec calls each a configuration field and no fact about a chip.
The widths, `ACC_SIZE` and `EN_MASK`, which are the spec's own choices (D2 to D5), are in the types and in `enMask`. -/
structure Params where
  /-- `CLK_FAST_HZ`. -/
  clkFastHz    : Nat
  /-- `CLK_SLOW_HZ`. -/
  clkSlowHz    : Nat
  /-- `MAX_DURATION` (U5); the search compares with strict `>` (spec/42_calc.md R141). -/
  maxDuration  : Nat
  /-- `MAX_DIV`, a value of the 3-bit register `DIV`. -/
  maxDiv       : BitVec 3
  /-- `NUM_CHANNELS`, which the command surface checks (spec/30_encoding.md R95). -/
  numChannels  : Nat
  /-- `CH_STRIDE`. -/
  chStride     : Word
  /-- `ADDR_EN`. -/
  addrEn       : Word
  /-- `ADDR_CON`, channel 0. -/
  addrCon      : Word
  /-- `ADDR_HDUR`, channel 0. -/
  addrHdur     : Word
  /-- `ADDR_LDUR`, channel 0. -/
  addrLdur     : Word
  /-- `ADDR_GDUR`, channel 0. -/
  addrGdur     : Word
  /-- `ADDR_SD0`, channel 0. -/
  addrSd0      : Word
  /-- `ADDR_SD1`, channel 0. -/
  addrSd1      : Word
  /-- `ADDR_WAVENUM`, channel 0. -/
  addrWavenum  : Word
  /-- `CON_MODE_BITS`, opaque to every rule (U4). -/
  conModeBits  : Word
  /-- `GUARD_VALUE`. -/
  guardValue   : Word
  /-- `WAVENUM_VALUE`. -/
  wavenumValue : Word
  /-- `DEFAULT_DUTY`, applied by the command surface (spec/30_encoding.md R94). -/
  defaultDuty  : Nat
  /-- `SEND_ALL_ZERO`. -/
  sendAllZero  : Word
  /-- `SEND_ALL_ONE`, at access size 4. -/
  sendAllOne   : Word
  /-- `FAST_BIT`, OPEN: the clock-family bit of the control word in Fast mode (U6). -/
  fastBit      : Word
  /-- `SEND_PATTERN`, OPEN: the alternating bit pattern of the send-data registers (U7). -/
  sendPattern  : Word
  deriving DecidableEq, Repr

/-- The table of R8 as the spec prints it (log 22), for values of the two OPEN parameters. -/
def Params.printed (fastBit sendPattern : Word) : Params where
  clkFastHz    := 40000000
  clkSlowHz    := 100000
  maxDuration  := 15000
  maxDiv       := 7#3
  numChannels  := 4
  chStride     := 0x40#32
  addrEn       := 0x10005000#32
  addrCon      := 0x10005010#32
  addrHdur     := 0x10005014#32
  addrLdur     := 0x10005018#32
  addrGdur     := 0x1000501C#32
  addrSd0      := 0x10005030#32
  addrSd1      := 0x10005034#32
  addrWavenum  := 0x10005038#32
  conModeBits  := 0x00000A00#32
  guardValue   := 0#32
  wavenumValue := 0#32
  defaultDuty  := 50
  sendAllZero  := 0x00000000#32
  sendAllOne   := 0xFFFFFFFF#32
  fastBit      := fastBit
  sendPattern  := sendPattern

/-- The parameters are those R8 prints, whatever the two OPEN ones are. -/
abbrev Params.AsPrinted (p : Params) : Prop := p = Params.printed p.fastBit p.sendPattern

/-- R9: `FAST_BIT` has exactly one bit set and does not meet `CON_MODE_BITS | 0x7`; `SEND_PATTERN` is one of the two
alternating words. -/
def Params.openLegal (p : Params) : Bool :=
  p.fastBit != 0#32 && p.fastBit &&& (p.fastBit - 1#32) == 0#32
    && p.fastBit &&& (p.conModeBits ||| 0x7#32) == 0#32
    && (p.sendPattern == 0x55555555#32 || p.sendPattern == 0xAAAAAAAA#32)

/-- Every base and the stride is a multiple of 4, as spec/20_memory.md R60 says of the addresses the block forms; the
check is the model's (log 18). -/
def Params.aligned (p : Params) : Bool :=
  [p.chStride, p.addrEn, p.addrCon, p.addrHdur, p.addrLdur, p.addrGdur, p.addrSd0, p.addrSd1, p.addrWavenum].all
    fun a => a &&& 0x3#32 == 0#32

/-- What the model checks of the parameters before it runs (R9, log 18). -/
def Params.legal (p : Params) : Bool := p.openLegal && p.aligned

/-- The defaults R8 prints, for the OPEN parameters too; the spec marks those two as general knowledge (PRESUMED,
log 3). -/
def Params.default : Params := Params.printed 0x00000008#32 0x55555555#32

/-- What a byte of the Target holds that nobody has written since the Target's own reset: any value (U10, log 2). -/
opaque initialByte : Nat → Byte

/-- A quotient by zero, which R11 says never occurs in a run: any value (log 13). -/
opaque quotientByZero : Nat → Word

/-- `DURL` when `SPLIT` meets a `DUTY` above 100, which no run does: any value (spec/30_encoding.md R90, log 14). -/
opaque lowBeyondRange : Word → BitVec 7 → Word

/-- `rdata` of a response whose `err` is 1, which R82 calls meaningless: any value; nothing reads it (log 24). -/
opaque errRdata : Word

/-- One less than the exit status of a fatal access failure, which is non-zero and otherwise unstated (U8, log 21). -/
opaque fatalStatusPred : Nat

end Sys2Proof.Config
end

