-- ==== Sys2Proof/Syntax.lean ====
section
/-! DEFINITION. What crosses the block's boundaries, as data: the instructions (one constructor per row of
spec/opcode_table.json), the Accessor's request and response, and the register map's names. -/

namespace Sys2Proof

/-- One constructor per row of the opcode table: the three rows of format CMD, then the micro-operations of format
STEP in the order of their codes (spec/10_state.md R24, spec/30_encoding.md R81, R83, R89). -/
inductive Instr where
  /-- `PWM.OFF`: a CMD word with frequency 0; duty is carried and ignored (R111). -/
  | pwmOff (channel : BitVec 2) (duty : BitVec 7)
  /-- `PWM.SET`: a CMD word with frequency ≠ 0 and duty ≤ 100 (R112). -/
  | pwmSet (channel : BitVec 2) (frequency : Word) (duty : BitVec 7)
  /-- The reserved words: frequency ≠ 0 and duty 101 to 127 (R90). -/
  | reserved (channel : BitVec 2) (frequency : Word) (duty : BitVec 7)
  /-- `ACCEPT` (R130). -/
  | accept
  /-- `EN_RD1` (R131). -/
  | enRd1
  /-- `EN_CLR` (R132). -/
  | enClr
  /-- `FREQ_TEST` (R133). -/
  | freqTest
  /-- `DIV_INIT` (R140). -/
  | divInit
  /-- `DIV_STEP` (R141). -/
  | divStep
  /-- `FALLBACK` (R142). -/
  | fallback
  /-- `SPLIT` (R143). -/
  | split
  /-- `WR_CON` (R160). -/
  | wrCon
  /-- `WR_HDUR` (R161). -/
  | wrHdur
  /-- `WR_LDUR` (R162). -/
  | wrLdur
  /-- `WR_GDUR` (R163). -/
  | wrGdur
  /-- `WR_SD0` (R164). -/
  | wrSd0
  /-- `WR_SD1` (R165). -/
  | wrSd1
  /-- `WR_WAVENUM` (R166). -/
  | wrWavenum
  /-- `DUTY_TEST` (R167). -/
  | dutyTest
  /-- `WR_SD0_OVR` (R168). -/
  | wrSd0Ovr
  /-- `WR_SD1_OVR` (R169). -/
  | wrSd1Ovr
  /-- `EN_RD2` (R180). -/
  | enRd2
  /-- `EN_SET` (R181). -/
  | enSet
  /-- `FINISH` (R182). -/
  | finish
  /-- `S_FAULT`, the absorbing fault state (R198). -/
  | sFault
  deriving DecidableEq, Repr

/-- The sizes the Accessor takes, in bytes 1, 2 and 4 (spec/20_memory.md R50). -/
inductive Size where
  | one
  | two
  | four
  deriving DecidableEq, Repr

/-- An ACC request: the arguments of `Access(address, size, write, value)` (spec/20_memory.md R50,
spec/30_encoding.md R82). -/
structure Request where
  write   : Bool
  size    : Size
  address : Word
  value   : Word
  deriving DecidableEq, Repr

/-- An ACC response: `err` = 1 says the Accessor refused and `rdata` is then meaningless (spec/30_encoding.md R82). -/
structure Response where
  err   : Bool
  rdata : Word
  deriving DecidableEq, Repr

/-- The seven per-channel registers of the peripheral (spec/10_state.md R30 to R35). -/
inductive ChanReg where
  | con
  | hdur
  | ldur
  | gdur
  | sd0
  | sd1
  | wavenum
  deriving DecidableEq, Repr

/-- One of the 29 peripheral registers (spec/10_state.md R28). -/
inductive Reg where
  /-- Global Enable, one for all channels (R29). -/
  | en
  /-- A per-channel register of one channel. -/
  | chan (kind : ChanReg) (channel : BitVec 2)
  deriving DecidableEq, Repr

end Sys2Proof
end

