-- ==== Sys2Proof/WellFormed.lean ====
section
/-! DEFINITION. Which terms of `Instr` stand for a word of the hardware: the conditions the opcode table puts on the
CMD rows (spec/30_encoding.md R89, R90). -/

namespace Sys2Proof

/-- The condition of the row `PWM.SET`: frequency ≠ 0 and duty at most 100 (R89 test 2). -/
def setOperandsOk (frequency : Word) (duty : BitVec 7) : Bool :=
  frequency != 0#32 && decide (duty.toNat ≤ Config.maxDuty)

/-- The condition of the reserved row: frequency ≠ 0 and duty 101 to 127 (R90). -/
def reservedOperands (frequency : Word) (duty : BitVec 7) : Bool :=
  frequency != 0#32 && decide (Config.maxDuty < duty.toNat)

/-- An instruction is well formed when its operands satisfy its row's constraint. -/
def Instr.wf : Instr → Bool
  | .pwmOff _ _ => true
  | .pwmSet _ f d => setOperandsOk f d
  | .reserved _ f d => reservedOperands f d
  | .accept | .enRd1 | .enClr | .freqTest | .divInit | .divStep | .fallback | .split => true
  | .wrCon | .wrHdur | .wrLdur | .wrGdur | .wrSd0 | .wrSd1 | .wrWavenum => true
  | .dutyTest | .wrSd0Ovr | .wrSd1Ovr | .enRd2 | .enSet | .finish | .sFault => true

end Sys2Proof
end

