-- ==== Sys2Proof/Decode.lean ====
section
/-! DEFINITION. The encodings of spec/30_encoding.md: the STEP codes, the CMD fields, the decoder from bytes (total,
rejecting by name), the encoder, the ACC request and response words, and the register map read both ways. -/

namespace Sys2Proof

/-! ### STEP codes (spec/10_state.md R24) -/

/-- `S_IDLE`. -/
abbrev sIdle : BitVec 5 := 0#5
/-- `S_EN_RD1`. -/
abbrev sEnRd1 : BitVec 5 := 1#5
/-- `S_EN_CLR`. -/
abbrev sEnClr : BitVec 5 := 2#5
/-- `S_FREQ_TEST`. -/
abbrev sFreqTest : BitVec 5 := 3#5
/-- `S_DIV_INIT`. -/
abbrev sDivInit : BitVec 5 := 4#5
/-- `S_DIV_STEP`. -/
abbrev sDivStep : BitVec 5 := 5#5
/-- `S_FALLBACK`. -/
abbrev sFallback : BitVec 5 := 6#5
/-- `S_SPLIT`. -/
abbrev sSplit : BitVec 5 := 7#5
/-- `S_WR_CON`. -/
abbrev sWrCon : BitVec 5 := 8#5
/-- `S_WR_HDUR`. -/
abbrev sWrHdur : BitVec 5 := 9#5
/-- `S_WR_LDUR`. -/
abbrev sWrLdur : BitVec 5 := 10#5
/-- `S_WR_GDUR`. -/
abbrev sWrGdur : BitVec 5 := 11#5
/-- `S_WR_SD0`. -/
abbrev sWrSd0 : BitVec 5 := 12#5
/-- `S_WR_SD1`. -/
abbrev sWrSd1 : BitVec 5 := 13#5
/-- `S_WR_WAVENUM`. -/
abbrev sWrWavenum : BitVec 5 := 14#5
/-- `S_DUTY_TEST`. -/
abbrev sDutyTest : BitVec 5 := 15#5
/-- `S_WR_SD0_OVR`. -/
abbrev sWrSd0Ovr : BitVec 5 := 16#5
/-- `S_WR_SD1_OVR`. -/
abbrev sWrSd1Ovr : BitVec 5 := 17#5
/-- `S_EN_RD2`. -/
abbrev sEnRd2 : BitVec 5 := 18#5
/-- `S_EN_SET`. -/
abbrev sEnSet : BitVec 5 := 19#5
/-- `S_FINISH`. -/
abbrev sFinish : BitVec 5 := 20#5
/-- `S_FAULT`. -/
abbrev sFaultCode : BitVec 5 := 31#5

/-- The micro-operation of a STEP code; codes 21 to 30 are unused (R24, R25, R92). -/
def decodeStep (code : BitVec 5) : Option Instr :=
  match code.toNat with
  | 0 => some .accept
  | 1 => some .enRd1
  | 2 => some .enClr
  | 3 => some .freqTest
  | 4 => some .divInit
  | 5 => some .divStep
  | 6 => some .fallback
  | 7 => some .split
  | 8 => some .wrCon
  | 9 => some .wrHdur
  | 10 => some .wrLdur
  | 11 => some .wrGdur
  | 12 => some .wrSd0
  | 13 => some .wrSd1
  | 14 => some .wrWavenum
  | 15 => some .dutyTest
  | 16 => some .wrSd0Ovr
  | 17 => some .wrSd1Ovr
  | 18 => some .enRd2
  | 19 => some .enSet
  | 20 => some .finish
  | 31 => some .sFault
  | _ => none

/-! ### CMD words (spec/30_encoding.md R81, R89, R90) -/

/-- `frequency`, bits 31:0 (R81). -/
def cmdFrequency (w : BitVec 41) : Word := w.extractLsb' 0 32
/-- `channel`, bits 33:32 (R81). -/
def cmdChannel (w : BitVec 41) : BitVec 2 := w.extractLsb' 32 2
/-- `duty`, bits 40:34 (R81). -/
def cmdDuty (w : BitVec 41) : BitVec 7 := w.extractLsb' 34 7

/-- The CMD word `{duty, channel, frequency}` (R81). -/
def cmdWord (channel : BitVec 2) (frequency : Word) (duty : BitVec 7) : BitVec 41 :=
  duty ++ channel ++ frequency

/-- The command of a CMD word: frequency 0 first, then duty at most 100, else reserved (R89, R90). -/
def decodeCmd (w : BitVec 41) : Instr :=
  if cmdFrequency w = 0#32 then .pwmOff (cmdChannel w) (cmdDuty w)
  else if (cmdDuty w).toNat ≤ Config.maxDuty then .pwmSet (cmdChannel w) (cmdFrequency w) (cmdDuty w)
  else .reserved (cmdChannel w) (cmdFrequency w) (cmdDuty w)

/-! ### The decoder on bytes -/

/-- Why a string of bytes is no instruction. -/
inductive DecodeError where
  /-- Neither one byte (STEP) nor six bytes (CMD) (R80; the byte layout is log 12). -/
  | badLength
  /-- A bit above the format's width is set. -/
  | paddingSet
  /-- A STEP code of 21 to 30 (R92). -/
  | unusedStepCode
  deriving DecidableEq, Repr

/-- What the decoder answers. -/
inductive Decoded where
  | instr (i : Instr)
  | rejected (why : DecodeError)
  deriving DecidableEq, Repr

/-- Decoding, total on any bytes: one byte is a STEP code, six bytes are a CMD word, first byte least significant,
every bit above the format's width 0 (R80, log 12). -/
def decode : List Byte → Decoded
  | [b] =>
    if b.extractLsb' 5 3 = 0#3 then
      match decodeStep (b.extractLsb' 0 5) with
      | some i => .instr i
      | none => .rejected .unusedStepCode
    else .rejected .paddingSet
  | [b0, b1, b2, b3, b4, b5] =>
    if b5.extractLsb' 1 7 = 0#7 then
      .instr (decodeCmd (b5.extractLsb' 0 1 ++ b4 ++ b3 ++ b2 ++ b1 ++ b0))
    else .rejected .paddingSet
  | _ => .rejected .badLength

/-! ### The encoder -/

/-- A word of one of the two opcode formats. -/
inductive CodeWord where
  | cmd (w : BitVec 41)
  | step (code : BitVec 5)
  deriving DecidableEq, Repr

/-- The word of an instruction, from the opcode table (R24, R81). -/
def codeWord : Instr → CodeWord
  | .pwmOff c d => .cmd (cmdWord c 0#32 d)
  | .pwmSet c f d => .cmd (cmdWord c f d)
  | .reserved c f d => .cmd (cmdWord c f d)
  | .accept => .step 0#5
  | .enRd1 => .step 1#5
  | .enClr => .step 2#5
  | .freqTest => .step 3#5
  | .divInit => .step 4#5
  | .divStep => .step 5#5
  | .fallback => .step 6#5
  | .split => .step 7#5
  | .wrCon => .step 8#5
  | .wrHdur => .step 9#5
  | .wrLdur => .step 10#5
  | .wrGdur => .step 11#5
  | .wrSd0 => .step 12#5
  | .wrSd1 => .step 13#5
  | .wrWavenum => .step 14#5
  | .dutyTest => .step 15#5
  | .wrSd0Ovr => .step 16#5
  | .wrSd1Ovr => .step 17#5
  | .enRd2 => .step 18#5
  | .enSet => .step 19#5
  | .finish => .step 20#5
  | .sFault => .step 31#5

/-- The bytes of a word, first byte least significant, padded with 0 to whole bytes (log 12). -/
def codeBytes : CodeWord → List Byte
  | .step code => [0#3 ++ code]
  | .cmd w =>
    [w.extractLsb' 0 8, w.extractLsb' 8 8, w.extractLsb' 16 8, w.extractLsb' 24 8, w.extractLsb' 32 8,
      0#7 ++ w.extractLsb' 40 1]

/-- The bytes of an instruction. -/
def encode (i : Instr) : List Byte := codeBytes (codeWord i)

/-- The `n` bytes of a number, least significant first. -/
def bytesOf : Nat → Nat → List Byte
  | 0, _ => []
  | n + 1, w => BitVec.ofNat 8 w :: bytesOf n (w / 256)

/-- How many bytes an instruction of `nbits` table bits has: one for STEP, six for CMD. -/
def tableBytes (nbits : Nat) : Nat := if nbits ≤ 8 then 1 else 6

/-- The instruction the decoder reads from a word numbered as the opcode table numbers it. -/
def decodeTableWord (nbits w : Nat) : Option Instr :=
  if w < 2 ^ (8 * tableBytes nbits) then
    match decode (bytesOf (tableBytes nbits) w) with
    | .instr i => some i
    | .rejected _ => none
  else none

/-! ### The Accessor's words (spec/30_encoding.md R82) -/

/-- The `size` field of an ACC request: the number of bytes (R82). -/
def sizeField : Size → BitVec 3
  | .one => 1#3
  | .two => 2#3
  | .four => 4#3

/-- The size a field names; 1, 2 and 4 are the legal values (R82, R92). -/
def sizeOfField (b : BitVec 3) : Option Size :=
  match b.toNat with
  | 1 => some .one
  | 2 => some .two
  | 4 => some .four
  | _ => none

/-- The 68-bit ACC request word `{write, size, address, value}` (R82). -/
def packRequest (q : Request) : BitVec 68 :=
  BitVec.ofBool q.write ++ sizeField q.size ++ q.address ++ q.value

/-- The request a 68-bit word carries, where its size is legal (R82). -/
def unpackRequest (w : BitVec 68) : Option Request :=
  match sizeOfField (w.extractLsb' 64 3) with
  | some z => some ⟨w.getLsbD 67, z, w.extractLsb' 32 32, w.extractLsb' 0 32⟩
  | none => none

/-- The 33-bit ACC response word `{err, rdata}` (R82). -/
def packResponse (p : Response) : BitVec 33 := BitVec.ofBool p.err ++ p.rdata

/-- The response a 33-bit word carries (R82). -/
def unpackResponse (w : BitVec 33) : Response := ⟨w.getLsbD 32, w.extractLsb' 0 32⟩

/-! ### The register map (spec/20_memory.md R57, spec/30_encoding.md R85, R97) -/

/-- The channel-0 address of a per-channel register, a parameter (R57, R58). -/
def chanBase (p : Config.Params) : ChanReg → Word
  | .con => p.addrCon
  | .hdur => p.addrHdur
  | .ldur => p.addrLdur
  | .gdur => p.addrGdur
  | .sd0 => p.addrSd0
  | .sd1 => p.addrSd1
  | .wavenum => p.addrWavenum

/-- `CHOFF`: `CH_STRIDE` times the channel (spec/00_scope.md R12). -/
def chOff (p : Config.Params) (channel : BitVec 2) : Word := p.chStride * channel.setWidth 32

/-- The address of a register: base plus channel offset, Global Enable without one (R85). -/
def regAddr (p : Config.Params) : Reg → Word
  | .en => p.addrEn
  | .chan k c => chanBase p k + chOff p c

/-- The 29 registers (spec/10_state.md R28). -/
def allRegs : List Reg :=
  .en :: [ChanReg.con, .hdur, .ldur, .gdur, .sd0, .sd1, .wavenum].flatMap fun k =>
    [0#2, 1#2, 2#2, 3#2].map fun c => .chan k c

/-- Which register an address names; none outside the map (R58). With the printed bases this is R97's table of masks
and matches. -/
def regOfAddr (p : Config.Params) (a : Word) : Option Reg := allRegs.find? fun r => regAddr p r == a

end Sys2Proof
end

