-- ==== Sys2Proof/Machine/State.lean ====
section
/-! DEFINITION. The state of the machine as plain data: the block's registers (spec/10_state.md R20 to R26), the
Target's memory and the bus trace (spec/20_memory.md R54, R55), and the inputs of the other agents as lists the step
reads (spec/00_scope.md R4). -/

namespace Sys2Proof.Machine

/-- The clock family, register `CLKSEL`: bit 0 is Slow, bit 1 is Fast (spec/10_state.md R21). -/
inductive ClockMode where
  | slow
  | fast
  deriving DecidableEq, Repr

/-- One event of the bus trace: `W(addr, size, v)` or `R(addr, size, r)` (spec/20_memory.md R55). -/
inductive Event where
  | wr (addr : Word) (size : Size) (value : Word)
  | rd (addr : Word) (size : Size) (value : Word)
  deriving DecidableEq, Repr

/-- Why the Accessor refuses: the two causes, which the port does not tell apart (spec/60_exceptions.md R191). -/
inductive Cause where
  | cannotOpenHandle
  | cannotMapPage
  deriving DecidableEq, Repr

/-- How the Target answers one access of the block: a free choice of the environment (spec/20_memory.md R50, R54;
spec/60_exceptions.md R205; log 4). -/
inductive Answer where
  /-- The storage Target: a read returns what the cell holds (R54). -/
  | stored
  /-- Any word may answer a read (R54, U12, U13). -/
  | word (r : Word)
  /-- The response has `err` = 1 (R52). -/
  | refuse (cause : Cause)
  /-- The Target neither answers nor refuses, ever (R205). -/
  | silent
  deriving DecidableEq, Repr

/-- Which agent acts in a step, and with what (spec/00_scope.md R4; log 5). -/
inductive Turn where
  /-- The block executes the micro-operation at STEP. -/
  | block
  /-- The Host calls `program` with this CMD word as one whole operation (spec/40_command.md R110; log 7). -/
  | call (w : BitVec 41)
  /-- The Host presents this CMD word at the command port (spec/41_disable.md R130; log 6). -/
  | present (w : BitVec 41)
  /-- The Host's command surface is given a command line, one operand a list of characters
  (spec/30_encoding.md R93; log 21). -/
  | line (operands : List (List Char))
  /-- Another master writes a word with one plain write (spec/20_memory.md R61; log 19). -/
  | otherWrite (addr value : Word)
  /-- Another master reads a register with one plain read and gets a word (R61; log 19). -/
  | otherRead (addr value : Word)
  /-- Another instance of PWMPROG performs one `Access`, its write and its read-back together (spec/20_memory.md R63,
  spec/60_exceptions.md R203); `given` is the word it gets, where storage does not answer (log 19). -/
  | otherAccess (q : Request) (given : Option Word)
  /-- The Target's own reset or a power loss of it: its registers hold these words afterwards, and a register not
  listed what it held at the start (spec/00_scope.md R4, spec/70_reset_and_hazards.md R222, U10; log 29). -/
  | targetReset (words : List (Reg × Word))
  /-- Reset is asserted; `landed` says whether an access in flight is still performed at the Target
  (spec/70_reset_and_hazards.md R220, U9; log 10). -/
  | reset (landed : Bool)
  deriving DecidableEq, Repr

/-- The Target's bytes, as address and byte pairs (spec/20_memory.md R54, R59). A byte not listed has not been written
by anyone (log 2). -/
abbrev Memory := List Host.Cell

/-- The canonical form: addresses strictly rising. An unlisted address has no value, so no entry repeats one. -/
def Memory.wf : Memory → Bool
  | [] => true
  | [_] => true
  | (a, _) :: (b, y) :: rest => decide (a < b) && Memory.wf ((b, y) :: rest)

/-- Everything the spec gives the machine; field names are the spec's register names in lower case. -/
structure State where
  /-- `CH` (R20). -/
  ch     : BitVec 2
  /-- `FREQ` (R20). -/
  freq   : Word
  /-- `DUTY` (R20). -/
  duty   : BitVec 7
  /-- `CLKSEL` (R21). -/
  clksel : ClockMode
  /-- `DIV` (R21). -/
  div    : BitVec 3
  /-- `DUR` (R21). -/
  dur    : Word
  /-- `DURH` (R21). -/
  durh   : Word
  /-- `DURL` (R21). -/
  durl   : Word
  /-- `ENTMP` (R22). -/
  entmp  : Word
  /-- `FSTEP` (R23). -/
  fstep  : BitVec 5
  /-- `STEP`, the program counter (R24). -/
  pc     : BitVec 5
  /-- `DONE` (R26). -/
  done   : Bool
  /-- The Target's registers, as bytes (R28). -/
  mem    : Memory
  /-- The bus trace, oldest event first (spec/20_memory.md R55). -/
  trace  : List Event
  /-- The CMD words the Host presents, the one at the port first (log 6). -/
  cmds   : List (BitVec 41)
  /-- How the coming accesses of the block are answered; when empty, by storage (log 4). -/
  answers : List Answer
  /-- Who acts in the coming steps; when empty, the block (log 5). -/
  turns  : List Turn
  /-- The parameters of R8, the two OPEN ones among them; no step writes them (log 3, log 22). -/
  par    : Config.Params
  deriving DecidableEq, Repr

/-- Why the machine stops with a fault. The spec's own exception, `AccessFault`, is a next state and none of these. -/
inductive Fault where
  /-- Raised by the block's turn when STEP holds an unused code, 21 to 30: no micro-operation stands there and the
  block makes no progress (U17, log 16). Safe: the code is unreachable. -/
  | stuckStep (code : BitVec 5)
  deriving DecidableEq, Repr

/-- Why the model gives a step no meaning. -/
inductive Refusal where
  /-- Raised by an arm of `exec` whose instruction has no meaning yet. Safe. -/
  | notModelled (mnemonic : String)
  /-- Raised by `ACCEPT`, by a call and by the reserved row: frequency ≠ 0 with duty 101 to 127 (R90, U1, log 15).
  Safe. -/
  | reservedCommand
  /-- Raised by an access to an address outside the map of R57 (R58, U18, log 17). Safe. -/
  | outsideMap
  /-- Raised by an access of 1 or 2 bytes, to which R54 gives no meaning (U14, log 17). Safe. -/
  | narrowAccess
  /-- Raised by the step when the parameters break R9, or an address is no multiple of 4 (log 18). Safe. -/
  | illegalParameters
  deriving DecidableEq, Repr

/-- Right after reset (spec/70_reset_and_hazards.md R221, R222): `pc` at `S_IDLE`, `DONE` 0; the data registers at 0,
to which R221 gives no value (DESIGN CHOICE, log 1); nothing known of the Target; no input pending; the parameters
R8 prints (PRESUMED, log 3). -/
def State.reset : State where
  ch := 0#2
  freq := 0#32
  duty := 0#7
  clksel := .slow
  div := 0#3
  dur := 0#32
  durh := 0#32
  durl := 0#32
  entmp := 0#32
  fstep := 0#5
  pc := sIdle
  done := false
  mem := []
  trace := []
  cmds := []
  answers := []
  turns := []
  par := Config.Params.default

end Sys2Proof.Machine
end

