-- ==== Sys2Proof/Machine/Ops.lean ====
section
/-! DEFINITION. The shared operations: the Target's bytes and words (spec/20_memory.md R54, R59), one transaction on
the Accessor port (R50 to R53), fault entry (spec/60_exceptions.md R197) and reset (spec/70_reset_and_hazards.md R220,
R221). -/

namespace Sys2Proof.Machine

/-- What a step or a meaning answers. -/
abbrev Result := Host.Outcome State Fault Refusal

/-! ### Bytes and words of the Target -/

/-- The byte written at an address, none where nobody has written. -/
def Memory.find : Memory → Nat → Option Byte
  | [], _ => none
  | (b, y) :: rest, a => if a = b then some y else Memory.find rest a

/-- The memory with one byte written; the list stays sorted. -/
def Memory.put : Memory → Nat → Byte → Memory
  | [], a, x => [(a, x)]
  | (b, y) :: rest, a, x =>
    if a < b then (a, x) :: (b, y) :: rest
    else if a = b then (a, x) :: rest
    else (b, y) :: Memory.put rest a x

/-- The byte at an address; one that nobody has written is any value (U10, log 2). -/
def Memory.byte (m : Memory) (a : Nat) : Byte := (m.find a).getD (Config.initialByte a)

/-- `MemRead(addr, 4)`: little-endian, the byte at `addr` holds bits 7:0 (R54, R59). -/
def Memory.word (m : Memory) (a : Word) : Word :=
  m.byte (a.toNat + 3) ++ m.byte (a.toNat + 2) ++ m.byte (a.toNat + 1) ++ m.byte a.toNat

/-- `MemWrite(addr, 4, v)` (R54, R59). -/
def Memory.putWord (m : Memory) (a v : Word) : Memory :=
  (((m.put a.toNat (v.extractLsb' 0 8)).put (a.toNat + 1) (v.extractLsb' 8 8)).put (a.toNat + 2)
    (v.extractLsb' 16 8)).put (a.toNat + 3) (v.extractLsb' 24 8)

/-- The memory after a list of words written to registers. -/
def Memory.putRegs (p : Config.Params) : Memory → List (Reg × Word) → Memory
  | m, [] => m
  | m, (r, v) :: rest => Memory.putRegs p (m.putWord (regAddr p r) v) rest

/-- The content of a peripheral register. -/
def State.reg (s : State) (r : Reg) : Word := s.mem.word (regAddr s.par r)

/-! ### The Target's two events (spec/20_memory.md R50, R55) -/

/-- A write at the Target and its event. -/
def targetWrite (a v : Word) (s : State) : State :=
  { s with mem := s.mem.putWord a v, trace := s.trace ++ [.wr a .four v] }

/-- A read at the Target that gives `r`, and its event. -/
def targetRead (a r : Word) (s : State) : State :=
  { s with trace := s.trace ++ [.rd a .four r] }

/-- The Target's part of a transaction: the write if it is one, then the read in every case; `given` overrides what
storage would return (R50, R54). -/
def perform (q : Request) (given : Option Word) (s : State) : Word × State :=
  let t := if q.write then targetWrite q.address q.value s else s
  let r := given.getD (t.mem.word q.address)
  (r, targetRead q.address r t)

/-! ### One transaction of the block (spec/20_memory.md R50 to R53) -/

/-- Why the spec gives a request no meaning, none where it gives it one: every access is of 4 bytes at one of the 29
registers (R54, R58, U14, U18; log 17). -/
def requestRefusal (p : Config.Params) (q : Request) : Option Refusal :=
  if q.size ≠ .four then some .narrowAccess
  else if (regOfAddr p q.address).isNone then some .outsideMap
  else none

/-- How one transaction ends, as the block sees it. -/
inductive Reply where
  /-- The response, and the state the Target left. -/
  | response (p : Response) (s : State)
  /-- No answer, for ever (R205). -/
  | silent
  /-- A transaction to which the spec gives no meaning. -/
  | noMeaning (why : Refusal)

/-- A response that answers: `err` is 0 and `rdata` is what was read (R51). -/
def answered (x : Word × State) : Reply := .response ⟨false, x.1⟩ x.2

/-- `Access(addr, size, write, value)`: the head of `answers` says how it ends; a refused one performs nothing and
emits nothing (R50, R52). A silent one stays at the head (log 9). -/
def access (q : Request) (s : State) : Reply :=
  match requestRefusal s.par q with
  | some why => .noMeaning why
  | none =>
    match s.answers.headD .stored with
    | .stored => answered (perform q none { s with answers := s.answers.tail })
    | .word r => answered (perform q (some r) { s with answers := s.answers.tail })
    | .refuse _ => .response ⟨true, Config.errRdata⟩ { s with answers := s.answers.tail }
    | .silent => .silent

/-! ### Taking the exception -/

/-- The number of `AccessFault`, the only exception (spec/60_exceptions.md R190). -/
def accessFaultNumber : Nat := 1

/-- Fault entry, `raise AccessFault(code, addr)`: the step's code is saved and STEP goes to `S_FAULT`; nothing else
changes (spec/60_exceptions.md R197). -/
def raiseAccessFault (code : BitVec 5) (s : State) : State :=
  { s with fstep := code, pc := sFaultCode }

/-- One access by the step `code`, then the rest `k` of the step. A response with `err` takes the exception; a silent
Target holds the block at the step (R197, R205). -/
def accessThen (code : BitVec 5) (q : Request) (s : State) (k : Word → State → Result) : Result :=
  match access q s with
  | .response p t => if p.err then .next (raiseAccessFault code t) else k p.rdata t
  | .silent => .next { s with pc := code }
  | .noMeaning why => .refused why

/-- A micro-operation that performs one access and then only writes block registers. -/
def accessStep (code : BitVec 5) (q : Request) (k : Word → State → State) (s : State) : Result :=
  accessThen code q s fun r t => .next (k r t)

/-! ### Reset -/

/-- The block's registers as reset leaves them; the Target and all inputs stay (R220, R221, R222). -/
def resetBlock (s : State) : State :=
  { State.reset with
    mem := s.mem, trace := s.trace, cmds := s.cmds, answers := s.answers, turns := s.turns, par := s.par }

end Sys2Proof.Machine
end

