-- ==== Sys2Proof/Machine/Operands.lean ====
section
/-! DEFINITION. Operands: the words and requests the micro-operations assemble (spec/30_encoding.md R84 to R88) and the
block's arithmetic (spec/00_scope.md R11, spec/42_calc.md R144). -/

namespace Sys2Proof.Machine

/-! ### Words -/

/-- `EN_MASK(ch)`: the channel's bit in Global Enable (R87, D5). -/
def enMask (channel : BitVec 2) : Word := 1#32 <<< channel.toNat

/-- The word `EN_CLR` writes (R87). -/
def clearEnable (t : Word) (channel : BitVec 2) : Word := t &&& ~~~ enMask channel

/-- The word `EN_SET` writes (R87). -/
def setEnable (t : Word) (channel : BitVec 2) : Word := t ||| enMask channel

/-- `fast_bit`: `FAST_BIT` in Fast mode and 0 in Slow mode (R86). -/
def fastBitOf (p : Config.Params) : ClockMode → Word
  | .fast => p.fastBit
  | .slow => 0#32

/-- The control word `CON_MODE_BITS | fast_bit | divider` (R86). -/
def controlWord (p : Config.Params) (mode : ClockMode) (div : BitVec 3) : Word :=
  p.conModeBits ||| fastBitOf p mode ||| div.setWidth 32

/-- The send-data word of the overrides: all-zero at duty 0, all-one otherwise (R88, spec/43_config.md R168). -/
def overrideWord (p : Config.Params) (duty : BitVec 7) : Word :=
  if duty = 0#7 then p.sendAllZero else p.sendAllOne

/-- Whether step 7 overwrites the send-data registers: duty 0 or 100 (spec/43_config.md R167). -/
def overrides (duty : BitVec 7) : Bool := duty == 0#7 || duty == 100#7

/-! ### Requests (spec/20_memory.md R50, R51, R56) -/

/-- A 4-byte read; `value` is 0 (R51, D9). -/
def readReq (p : Config.Params) (r : Reg) : Request := ⟨false, .four, regAddr p r, 0#32⟩

/-- A 4-byte write. -/
def writeReq (p : Config.Params) (r : Reg) (v : Word) : Request := ⟨true, .four, regAddr p r, v⟩

/-- The request a micro-operation drives in a state, none where it performs no access (opcode table, column access). -/
def requestOf (s : State) : Instr → Option Request
  | .enRd1 | .enRd2 => some (readReq s.par .en)
  | .enClr => some (writeReq s.par .en (clearEnable s.entmp s.ch))
  | .enSet => some (writeReq s.par .en (setEnable s.entmp s.ch))
  | .wrCon => some (writeReq s.par (.chan .con s.ch) (controlWord s.par s.clksel s.div))
  | .wrHdur => some (writeReq s.par (.chan .hdur s.ch) s.durh)
  | .wrLdur => some (writeReq s.par (.chan .ldur s.ch) s.durl)
  | .wrGdur => some (writeReq s.par (.chan .gdur s.ch) s.par.guardValue)
  | .wrSd0 => some (writeReq s.par (.chan .sd0 s.ch) s.par.sendPattern)
  | .wrSd1 => some (writeReq s.par (.chan .sd1 s.ch) s.par.sendPattern)
  | .wrWavenum => some (writeReq s.par (.chan .wavenum s.ch) s.par.wavenumValue)
  | .wrSd0Ovr => some (writeReq s.par (.chan .sd0 s.ch) (overrideWord s.par s.duty))
  | .wrSd1Ovr => some (writeReq s.par (.chan .sd1 s.ch) (overrideWord s.par s.duty))
  | .pwmOff _ _ | .pwmSet _ _ _ | .reserved _ _ _ => none
  | .accept | .freqTest | .divInit | .divStep | .fallback | .split | .dutyTest | .finish | .sFault => none

/-- The request the block drives at its present step. -/
def requestAt (s : State) : Option Request := (decodeStep s.pc).bind (requestOf s)

/-- The address whose access faulted, from `FSTEP` and `CH` (spec/60_exceptions.md R190). -/
def faultAddress (s : State) : Option Word :=
  ((decodeStep s.fstep).bind (requestOf s)).map Request.address

/-! ### Arithmetic -/

/-- Truncating division, the result truncated to a word; by zero it is a free value (R11, log 13). -/
def quotient (n d : Nat) : Word :=
  if d = 0 then Config.quotientByZero n else BitVec.ofNat 32 (n / d)

/-- The Fast duration at a divider, `CLK_FAST_HZ / (2^d * f)` (spec/42_calc.md R140, R141). -/
def fastDuration (p : Config.Params) (f : Word) (d : Nat) : Word := quotient p.clkFastHz (2 ^ d * f.toNat)

/-- The Slow duration `CLK_SLOW_HZ / f` (spec/42_calc.md R142). -/
def slowDuration (p : Config.Params) (f : Word) : Word := quotient p.clkSlowHz f.toNat

/-- "exceeds the hardware maximum duration", strictly (spec/42_calc.md R141). -/
def overLimit (p : Config.Params) (dur : Word) : Bool := decide (p.maxDuration < dur.toNat)

/-- `duration_high`: the product first, then the one division (spec/42_calc.md R143). -/
def splitHigh (dur : Word) (duty : BitVec 7) : Word :=
  BitVec.ofNat 32 (dur.toNat * duty.toNat / 100)

/-- `duration_low`; with a duty above 100, which no run reaches, a free value (spec/42_calc.md R143, log 14). -/
def splitLow (dur : Word) (duty : BitVec 7) : Word :=
  if duty.toNat ≤ Config.maxDuty then BitVec.ofNat 32 (dur.toNat * (100 - duty.toNat) / 100)
  else Config.lowBeyondRange dur duty

end Sys2Proof.Machine
end

