-- ==== Sys2Proof/Machine/Calc.lean ====
section
/-! DEFINITION. The family of spec/42_calc.md: `DIV_INIT`, `DIV_STEP`, `FALLBACK`, `SPLIT` (R140 to R143), and the two
helper functions `calc` and `split` of spec/40_command.md R110. -/

namespace Sys2Proof.Machine

/-- `DIV_INIT` (R140). -/
def execDivInit (s : State) : Result :=
  .next { s with clksel := .fast, div := 0#3, dur := fastDuration s.par s.freq 0, pc := sDivStep }

/-- `DIV_STEP`, one turn of the search loop (R141). -/
def execDivStep (s : State) : Result :=
  if overLimit s.par s.dur && decide (s.div.toNat < s.par.maxDiv.toNat) then
    .next { s with div := s.div + 1#3, dur := fastDuration s.par s.freq (s.div.toNat + 1), pc := sDivStep }
  else .next { s with pc := sFallback }

/-- `FALLBACK` (R142). -/
def execFallback (s : State) : Result :=
  if overLimit s.par s.dur then
    .next { s with clksel := .slow, div := 0#3, dur := slowDuration s.par s.freq, pc := sSplit }
  else .next { s with pc := sSplit }

/-- `SPLIT` (R143). -/
def execSplit (s : State) : Result :=
  .next { s with durh := splitHigh s.dur s.duty, durl := splitLow s.dur s.duty, pc := sWrCon }

/-! ### The calculator as one function (spec/40_command.md R110) -/

/-- A clock mode, a divider and a duration. -/
structure Timing where
  mode : ClockMode
  div  : BitVec 3
  dur  : Word
  deriving DecidableEq, Repr

/-- The loop of `calc`: `left` turns remain before the divider is at its maximum. -/
def searchFrom (p : Config.Params) (f : Word) : Nat → Nat → Word → Nat × Word
  | 0, d, dur => (d, dur)
  | left + 1, d, dur =>
    if overLimit p dur then searchFrom p f left (d + 1) (fastDuration p f (d + 1)) else (d, dur)

/-- `calc(f)`, here `timing`, defined for `f ≠ 0` (R110). -/
def timing (p : Config.Params) (f : Word) : Timing :=
  let found := searchFrom p f p.maxDiv.toNat 0 (fastDuration p f 0)
  if overLimit p found.2 then ⟨.slow, 0#3, slowDuration p f⟩ else ⟨.fast, BitVec.ofNat 3 found.1, found.2⟩

end Sys2Proof.Machine
end

