-- ==== Sys2Proof/Machine/Configure.lean ====
section
/-! DEFINITION. The family of spec/43_config.md: the seven configuration writes, `DUTY_TEST` and the two overrides
(R160 to R169). -/

namespace Sys2Proof.Machine

/-- The shape of the family: write `v` to a register of the channel `CH`, then go to `successor`. -/
def writeStep (code : BitVec 5) (kind : ChanReg) (v : Word) (successor : BitVec 5) (s : State) : Result :=
  accessStep code (writeReq s.par (.chan kind s.ch) v) (fun _ t => { t with pc := successor }) s

/-- `WR_CON` (R160). -/
def execWrCon (s : State) : Result :=
  writeStep sWrCon .con (controlWord s.par s.clksel s.div) sWrHdur s

/-- `WR_HDUR` (R161). -/
def execWrHdur (s : State) : Result := writeStep sWrHdur .hdur s.durh sWrLdur s

/-- `WR_LDUR` (R162). -/
def execWrLdur (s : State) : Result := writeStep sWrLdur .ldur s.durl sWrGdur s

/-- `WR_GDUR` (R163). -/
def execWrGdur (s : State) : Result := writeStep sWrGdur .gdur s.par.guardValue sWrSd0 s

/-- `WR_SD0` (R164). -/
def execWrSd0 (s : State) : Result := writeStep sWrSd0 .sd0 s.par.sendPattern sWrSd1 s

/-- `WR_SD1` (R165). -/
def execWrSd1 (s : State) : Result := writeStep sWrSd1 .sd1 s.par.sendPattern sWrWavenum s

/-- `WR_WAVENUM` (R166). -/
def execWrWavenum (s : State) : Result := writeStep sWrWavenum .wavenum s.par.wavenumValue sDutyTest s

/-- `DUTY_TEST` (R167). -/
def execDutyTest (s : State) : Result :=
  .next { s with pc := if overrides s.duty then sWrSd0Ovr else sEnRd2 }

/-- `WR_SD0_OVR` (R168). -/
def execWrSd0Ovr (s : State) : Result := writeStep sWrSd0Ovr .sd0 (overrideWord s.par s.duty) sWrSd1Ovr s

/-- `WR_SD1_OVR` (R169). -/
def execWrSd1Ovr (s : State) : Result := writeStep sWrSd1Ovr .sd1 (overrideWord s.par s.duty) sEnRd2 s

end Sys2Proof.Machine
end

