-- ==== Sys2Proof/Machine/Flags.lean ====
section
/-! DEFINITION. The flags of spec/10_state.md R26 and the channel's condition of R37 and of
spec/40_command.md R115. Arithmetic sets no flag. -/

namespace Sys2Proof.Machine

/-- `BUSY`, derived: neither idle nor faulted (R26). -/
def State.busy (s : State) : Bool := s.pc != sIdle && s.pc != sFaultCode

/-- `FAULT`, derived: STEP is `S_FAULT` (R26). -/
def State.faultFlag (s : State) : Bool := s.pc == sFaultCode

/-- Everything the Host can see of the block (spec/60_exceptions.md R204, spec/92_eei_decisions.md D1). -/
structure HostView where
  done  : Bool
  busy  : Bool
  fault : Bool
  fstep : BitVec 5
  deriving DecidableEq, Repr

/-- The levels the Host observes in a state. -/
def State.hostView (s : State) : HostView := ⟨s.done, s.busy, s.faultFlag, s.fstep⟩

/-- `DONE` set, as `FINISH` does (R26). -/
def setDone (s : State) : State := { s with done := true }

/-- `DONE` cleared, as `ACCEPT` does (R26). -/
def clearDone (s : State) : State := { s with done := false }

/-- A channel's condition (R37, R115). -/
inductive Condition where
  | disabled
  | configuring
  | enabled
  deriving DecidableEq, Repr

/-- The steps `S_FREQ_TEST` to `S_EN_SET` (R37). -/
def configuringStep (pc : BitVec 5) : Bool :=
  decide (sFreqTest.toNat ≤ pc.toNat) && decide (pc.toNat ≤ sEnSet.toNat)

/-- The channel's condition, a function of `EN` and STEP (R37, log 20). -/
def channelCondition (s : State) (channel : BitVec 2) : Condition :=
  if (s.reg .en).getLsbD channel.toNat then .enabled
  else if s.ch = channel ∧ configuringStep s.pc then .configuring
  else .disabled

/-- The step a command stands at: STEP, and after a fault the step that faulted (R23). -/
def commandStep (s : State) : BitVec 5 := if s.pc = sFaultCode then s.fstep else s.pc

/-- The channel's condition in the state machine of a command (spec/40_command.md R115, log 20): Configuring from the
end of `EN_CLR` until `EN_SET` unless the frequency is 0, also where a fault ended the command in between. -/
def commandCondition (s : State) (channel : BitVec 2) : Condition :=
  if (s.reg .en).getLsbD channel.toNat then .enabled
  else if s.ch = channel ∧ configuringStep (commandStep s) ∧ s.freq ≠ 0#32 then .configuring
  else .disabled

end Sys2Proof.Machine
end

