-- ==== Sys2Proof/Machine/Disable.lean ====
section
/-! DEFINITION. The family of spec/41_disable.md: `ACCEPT`, `EN_RD1`, `EN_CLR`, `FREQ_TEST` (R130 to R133). -/

namespace Sys2Proof.Machine

/-- The registers `ACCEPT` writes (R130). -/
def latch (channel : BitVec 2) (frequency : Word) (duty : BitVec 7) (s : State) : State :=
  { clearDone s with ch := channel, freq := frequency, duty := duty, pc := sEnRd1 }

/-- `ACCEPT` (R130): with no command presented the block stays idle; a reserved word is refused (R90). -/
def execAccept (s : State) : Result :=
  match s.cmds with
  | [] => .next s
  | w :: rest =>
    if reservedOperands (cmdFrequency w) (cmdDuty w) then .refused .reservedCommand
    else .next (latch (cmdChannel w) (cmdFrequency w) (cmdDuty w) { s with cmds := rest })

/-- `EN_RD1` (R131). -/
def execEnRd1 (s : State) : Result :=
  accessStep sEnRd1 (readReq s.par .en) (fun r t => { t with entmp := r, pc := sEnClr }) s

/-- `EN_CLR` (R132). -/
def execEnClr (s : State) : Result :=
  accessStep sEnClr (writeReq s.par .en (clearEnable s.entmp s.ch)) (fun _ t => { t with pc := sFreqTest }) s

/-- `FREQ_TEST` (R133). -/
def execFreqTest (s : State) : Result :=
  .next { s with pc := if s.freq = 0#32 then sFinish else sDivInit }

end Sys2Proof.Machine
end

