-- ==== Sys2Proof/Machine/Enable.lean ====
section
/-! DEFINITION. The family of spec/44_enable.md: `EN_RD2`, `EN_SET`, `FINISH` (R180 to R182), and the fault state of
spec/60_exceptions.md R198. -/

namespace Sys2Proof.Machine

/-- `EN_RD2` (R180). -/
def execEnRd2 (s : State) : Result :=
  accessStep sEnRd2 (readReq s.par .en) (fun r t => { t with entmp := r, pc := sEnSet }) s

/-- `EN_SET` (R181). -/
def execEnSet (s : State) : Result :=
  accessStep sEnSet (writeReq s.par .en (setEnable s.entmp s.ch)) (fun _ t => { t with pc := sFinish }) s

/-- What `FINISH` leaves: `DONE` set and the block idle (R182). -/
def finished (s : State) : State := { setDone s with pc := sIdle }

/-- `FINISH` (R182). -/
def execFinish (s : State) : Result := .next (finished s)

/-- `S_FAULT`: absorbing, no access and no register changed; only reset leaves it (R198). -/
def execSFault (s : State) : Result := .next s

end Sys2Proof.Machine
end

