-- ==== Sys2Proof/Machine/Command.lean ====
section
/-! DEFINITION. The CMD rows as whole operations, written from the pseudocode of spec/40_command.md R111 and R112: one
call of `program`, no other agent between its accesses (log 7). An access that is refused takes the exception at the
step that issues it, and a silent one holds the block there (R197, R199, R205). That the micro-operations compose to
this is a statement about the model (R113), not its definition. -/

namespace Sys2Proof.Machine

/-- One register write of the operation, issued by the step `code`; the returned word is discarded (R51). -/
def putThen (code : BitVec 5) (r : Reg) (v : Word) (s : State) (k : State → Result) : Result :=
  accessThen code (writeReq s.par r v) s fun _ t => k t

/-- Step 1: clear the channel's enable bit by a read and a write (R111, R112). -/
def disableThen (s : State) (k : State → Result) : Result :=
  accessThen sEnRd1 (readReq s.par .en) s fun e1 t =>
    putThen sEnClr .en (clearEnable e1 t.ch) { t with entmp := e1 } k

/-- Steps 3 to 5: the clock mode, the divider and the durations (R112). -/
def compute (s : State) : State :=
  let c := timing s.par s.freq
  { s with
    clksel := c.mode, div := c.div, dur := c.dur,
    durh := splitHigh c.dur s.duty, durl := splitLow c.dur s.duty }

/-- Step 6: the seven writes, in the source's order (R112). -/
def configureThen (s : State) (k : State → Result) : Result :=
  putThen sWrCon (.chan .con s.ch) (controlWord s.par s.clksel s.div) s fun s =>
  putThen sWrHdur (.chan .hdur s.ch) s.durh s fun s =>
  putThen sWrLdur (.chan .ldur s.ch) s.durl s fun s =>
  putThen sWrGdur (.chan .gdur s.ch) s.par.guardValue s fun s =>
  putThen sWrSd0 (.chan .sd0 s.ch) s.par.sendPattern s fun s =>
  putThen sWrSd1 (.chan .sd1 s.ch) s.par.sendPattern s fun s =>
  putThen sWrWavenum (.chan .wavenum s.ch) s.par.wavenumValue s k

/-- Step 7: both send-data registers overwritten when duty is 0 or 100 (R112). -/
def overrideThen (s : State) (k : State → Result) : Result :=
  if overrides s.duty then
    putThen sWrSd0Ovr (.chan .sd0 s.ch) (overrideWord s.par s.duty) s fun s =>
    putThen sWrSd1Ovr (.chan .sd1 s.ch) (overrideWord s.par s.duty) s k
  else k s

/-- Step 8: set the channel's enable bit by a second read and write (R112). -/
def enableThen (s : State) (k : State → Result) : Result :=
  accessThen sEnRd2 (readReq s.par .en) s fun e2 t =>
    putThen sEnSet .en (setEnable e2 t.ch) { t with entmp := e2 } k

/-- A command that the block cannot take now waits at the command port (R130, log 6). -/
def waits (w : BitVec 41) (s : State) : State := { s with cmds := s.cmds ++ [w] }

/-- `program(channel, frequency, duty)` (R110): taken at `S_IDLE` only (R130); a reserved command is refused (R90);
with frequency 0 it stops after the disabling (R111), else it configures and enables (R112). Called at `S_IDLE` it runs
at once, also when words presented earlier still wait at the port: which of the two is accepted first is the model's
choice (DESIGN CHOICE, log 28; R230 says only "in the order accepted"). -/
def program (channel : BitVec 2) (frequency : Word) (duty : BitVec 7) (s : State) : Result :=
  if reservedOperands frequency duty then .refused .reservedCommand
  else if s.pc ≠ sIdle then .next (waits (cmdWord channel frequency duty) s)
  else
    disableThen (latch channel frequency duty s) fun s =>
      if frequency = 0#32 then .next (finished s)
      else
        configureThen (compute s) fun s =>
        overrideThen s fun s =>
        enableThen s fun s => .next (finished s)

/-- `PWM.OFF` (R111). -/
def execPwmOff (channel : BitVec 2) (duty : BitVec 7) (s : State) : Result :=
  program channel 0#32 duty s

/-- `PWM.SET` (R112). -/
def execPwmSet (channel : BitVec 2) (frequency : Word) (duty : BitVec 7) (s : State) : Result :=
  program channel frequency duty s

/-- The reserved row: the model gives it no meaning and refuses it (R90, U1, log 15). -/
def execReserved (_channel : BitVec 2) (_frequency : Word) (_duty : BitVec 7) (_s : State) : Result :=
  .refused .reservedCommand

end Sys2Proof.Machine
end

