-- ==== Sys2Proof/Machine/Dispatch.lean ====
section
/-! DEFINITION. One arm per constructor of `Instr`. -/

namespace Sys2Proof.Machine

def exec (i : Instr) (s : State) : Host.Outcome State Fault Refusal :=
  match i with
  | .pwmOff channel duty => Sys2Proof.Machine.execPwmOff channel duty s
  | .pwmSet channel frequency duty => Sys2Proof.Machine.execPwmSet channel frequency duty s
  | .reserved channel frequency duty => Sys2Proof.Machine.execReserved channel frequency duty s
  | .accept => Sys2Proof.Machine.execAccept s
  | .enRd1 => Sys2Proof.Machine.execEnRd1 s
  | .enClr => Sys2Proof.Machine.execEnClr s
  | .freqTest => Sys2Proof.Machine.execFreqTest s
  | .divInit => Sys2Proof.Machine.execDivInit s
  | .divStep => Sys2Proof.Machine.execDivStep s
  | .fallback => Sys2Proof.Machine.execFallback s
  | .split => Sys2Proof.Machine.execSplit s
  | .wrCon => Sys2Proof.Machine.execWrCon s
  | .wrHdur => Sys2Proof.Machine.execWrHdur s
  | .wrLdur => Sys2Proof.Machine.execWrLdur s
  | .wrGdur => Sys2Proof.Machine.execWrGdur s
  | .wrSd0 => Sys2Proof.Machine.execWrSd0 s
  | .wrSd1 => Sys2Proof.Machine.execWrSd1 s
  | .wrWavenum => Sys2Proof.Machine.execWrWavenum s
  | .dutyTest => Sys2Proof.Machine.execDutyTest s
  | .wrSd0Ovr => Sys2Proof.Machine.execWrSd0Ovr s
  | .wrSd1Ovr => Sys2Proof.Machine.execWrSd1Ovr s
  | .enRd2 => Sys2Proof.Machine.execEnRd2 s
  | .enSet => Sys2Proof.Machine.execEnSet s
  | .finish => Sys2Proof.Machine.execFinish s
  | .sFault => Sys2Proof.Machine.execSFault s

end Sys2Proof.Machine
end

