-- ==== Sys2Proof/Machine/Surface.lean ====
section
/-! DEFINITION. The command surface of spec/30_encoding.md R93 to R96 and its exit statuses (spec/60_exceptions.md
R193): `pwm <channel> <frequency> [<duty>]` assembled to a CMD word. It stands outside the block (spec/00_scope.md R6a)
and is specified for interface completeness. -/

namespace Sys2Proof.Machine

/-- Why a command line delivers no command. -/
inductive LineError where
  /-- Fewer than the two required operands (R95, R193). -/
  | missingArguments
  /-- An operand that is no integer or is out of its range (R95, R193). -/
  | badArgument
  /-- More than three operands, which no rule describes (log 21). -/
  | extraArguments
  deriving DecidableEq, Repr

/-- What a command line assembles to. -/
inductive Assembled where
  | command (w : BitVec 41)
  | rejected (why : LineError)
  deriving DecidableEq, Repr

/-- The value of a decimal digit. -/
def digitOf (c : Char) : Option Nat :=
  if '0'.toNat ≤ c.toNat ∧ c.toNat ≤ '9'.toNat then some (c.toNat - '0'.toNat) else none

/-- The digits of an operand read on from a value. -/
def decimalFrom : Nat → List Char → Option Nat
  | n, [] => some n
  | n, c :: rest =>
    match digitOf c with
    | some d => decimalFrom (10 * n + d) rest
    | none => none

/-- An operand as a decimal integer: one or more digits; no sign and no other number syntax (R93, N12). -/
def decimal : List Char → Option Nat
  | [] => none
  | c :: rest => decimalFrom 0 (c :: rest)

/-- The ranges of R95: a channel below `NUM_CHANNELS` that fits its 2-bit field, a frequency that fits 32 bits,
duty 0 to 100. -/
def operandsInRange (p : Config.Params) (channel frequency duty : Nat) : Bool :=
  decide (channel < p.numChannels) && decide (channel < 4) && decide (frequency < 2 ^ 32) &&
    decide (duty ≤ Config.maxDuty)

/-- The word of three parsed operands, where they parse and are in range (R93, R95). -/
def assembleParsed (p : Config.Params) : Option Nat → Option Nat → Option Nat → Assembled
  | some c, some f, some d =>
    if operandsInRange p c f d then .command (cmdWord (BitVec.ofNat 2 c) (BitVec.ofNat 32 f) (BitVec.ofNat 7 d))
    else .rejected .badArgument
  | _, _, _ => .rejected .badArgument

/-- The command line's operands assembled; two operands take the default duty (R93 to R95). A line with one operand is
always missing an argument, also where that operand is malformed or out of range: R95 and R193 give no precedence
between the two causes, and this one is the model's (DESIGN CHOICE, log 21). -/
def assemble (p : Config.Params) : List (List Char) → Assembled
  | [] => .rejected .missingArguments
  | [_] => .rejected .missingArguments
  | [c, f] => assembleParsed p (decimal c) (decimal f) (some p.defaultDuty)
  | [c, f, d] => assembleParsed p (decimal c) (decimal f) (decimal d)
  | _ => .rejected .extraArguments

/-- How an invocation of the command surface ends (R193). -/
inductive Ending where
  | success
  | lineRejected (why : LineError)
  | accessFault
  deriving DecidableEq, Repr

/-- The exit status (R193): 0, 2, 1; non-zero for an access fault, its value free (U8); none where no rule gives
one (log 21). -/
def exitStatus : Ending → Option Nat
  | .success => some 0
  | .lineRejected .missingArguments => some 2
  | .lineRejected .badArgument => some 1
  | .lineRejected .extraArguments => none
  | .accessFault => some (Config.fatalStatusPred + 1)

end Sys2Proof.Machine
end

