-- ==== Sys2Proof/Machine/Agents.lean ====
section
/-! DEFINITION. The turns of the agents (spec/00_scope.md R4): what the step does when the block, the Host, another
master or the reset input acts, and where the next instruction comes from. `Step.lean` only calls this file. -/

namespace Sys2Proof.Machine

/-- The block's turn: the micro-operation at STEP (spec/10_state.md R24). An unused code is stuck (U17). -/
def blockTurn (s : State) : Result :=
  match decodeStep s.pc with
  | some i => exec i s
  | none => .fault (.stuckStep s.pc)

/-- The Host calls `program` with a CMD word as one whole operation (spec/40_command.md R110; log 7). -/
def callTurn (w : BitVec 41) (s : State) : Result := exec (decodeCmd w) s

/-- The Host presents a CMD word; it waits until the block takes it (spec/41_disable.md R130; log 6). -/
def presentTurn (w : BitVec 41) (s : State) : Result := .next (waits w s)

/-- A command line: a good one presents its word, a refused one delivers nothing (spec/30_encoding.md R95). -/
def lineTurn (operands : List (List Char)) (s : State) : Result :=
  match assemble s.par operands with
  | .command w => .next (waits w s)
  | .rejected _ => .next s

/-- How the last command ended, as the command surface reports it (spec/60_exceptions.md R193): success once `DONE` is
up, an access fault once `FAULT` is; none while it runs. -/
def endingOf (s : State) : Option Ending :=
  if s.faultFlag then some .accessFault else if s.done then some .success else none

/-- Another master writes a register (spec/20_memory.md R54, R61); outside the map it is refused (U18). -/
def otherWriteTurn (a v : Word) (s : State) : Result :=
  if (regOfAddr s.par a).isNone then .refused .outsideMap else .next (targetWrite a v s)

/-- Another master reads a register and gets `r` (R61); outside the map it is refused (U18). -/
def otherReadTurn (a r : Word) (s : State) : Result :=
  if (regOfAddr s.par a).isNone then .refused .outsideMap else .next (targetRead a r s)

/-- Another instance's `Access`, its write and its read-back as one event (spec/20_memory.md R63); one that the spec
gives no meaning is refused, as the block's own would be (R54, U18). -/
def otherAccessTurn (q : Request) (given : Option Word) (s : State) : Result :=
  match requestRefusal s.par q with
  | some why => .refused why
  | none => .next (perform q given s).2

/-- The Target loses its contents (spec/70_reset_and_hazards.md R222, U10; log 29); the block is left alone. -/
def targetResetTurn (words : List (Reg × Word)) (s : State) : Result :=
  .next { s with mem := Memory.putRegs s.par [] words }

/-- An access in flight when reset is asserted: the block is at an access the Target is silent on. It is abandoned;
the Target performs it when `landed` says so (spec/70_reset_and_hazards.md R220, U9). -/
def abandonInFlight (landed : Bool) (s : State) : State :=
  match requestAt s, s.answers with
  | some q, .silent :: rest =>
    let t := { s with answers := rest }
    if landed then (perform q none t).2 else t
  | _, _ => s

/-- Reset, at any STEP (R220, R221). -/
def resetTurn (landed : Bool) (s : State) : Result := .next (resetBlock (abandonInFlight landed s))

/-- One turn of the schedule; with no turn listed the block acts (spec/20_memory.md R61, log 5). -/
def takeTurn (s : State) : Result :=
  match s.turns with
  | [] => blockTurn s
  | .block :: rest => blockTurn { s with turns := rest }
  | .call w :: rest => callTurn w { s with turns := rest }
  | .present w :: rest => presentTurn w { s with turns := rest }
  | .line operands :: rest => lineTurn operands { s with turns := rest }
  | .otherWrite a v :: rest => otherWriteTurn a v { s with turns := rest }
  | .otherRead a r :: rest => otherReadTurn a r { s with turns := rest }
  | .otherAccess q given :: rest => otherAccessTurn q given { s with turns := rest }
  | .targetReset words :: rest => targetResetTurn words { s with turns := rest }
  | .reset landed :: rest => resetTurn landed { s with turns := rest }

/-- The parameters are checked before the model runs (spec/00_scope.md R9); then one turn is taken. -/
def checkedTurn (s : State) : Result :=
  if s.par.legal then takeTurn s else .refused .illegalParameters

/-- A STEP code placed where the block fetches it: STEP holds it and the block acts next. `ACCEPT` takes a CMD word as
its operand: where none is presented, the word of zeros is (log 8). -/
def placeStep (code : BitVec 5) (s : State) : State :=
  { s with
    pc := code, turns := .block :: s.turns,
    cmds := if code = sIdle ∧ s.cmds = [] then [0#41] else s.cmds }

/-- A CMD word placed where the block fetches it: the block is idle and the Host calls the word next (log 8). -/
def placeCmd (w : BitVec 41) (s : State) : State :=
  { s with pc := sIdle, turns := .call w :: s.turns }

/-- An instruction of `nbits` table bits placed where the next step fetches it (log 8). -/
def placeTableWord (nbits w : Nat) (s : State) : State :=
  if tableBytes nbits = 1 then placeStep (BitVec.ofNat 5 w) s else placeCmd (BitVec.ofNat 41 w) s

end Sys2Proof.Machine
end

