-- ==== Sys2Proof/Machine/Step.lean ====
section
/-! DEFINITION. One step of the machine (spec/00_scope.md R4, R12): three outcomes, next, fault, refusal. -/

namespace Sys2Proof.Machine

/-- One step: one turn of one agent. -/
def step (s : State) : Host.Outcome State Fault Refusal := Sys2Proof.Machine.checkedTurn s

/-- The instruction of `nbits` table bits stored where `step` fetches its next one (log 8). -/
def State.withFetchWord (s : State) (nbits w : Nat) : State := Sys2Proof.Machine.placeTableWord nbits w s

end Sys2Proof.Machine
end

