-- ==== Sys2Proof/Safety.lean ====
section
/-! DEFINITION. The terms claims are stated in: how a run ends (spec/00_scope.md R13), what a served access leaves, the
write sub-list of the trace (spec/20_memory.md R55), the invariant of every state a run reaches, and two states that
differ only in dead registers (spec/10_state.md R27). -/

namespace Sys2Proof.Safety

open Sys2Proof.Machine

/-- `k` steps, stopping at the first fault or refusal. -/
def run : Nat → State → Result
  | 0, s => .next s
  | k + 1, s =>
    match step s with
    | .next t => run k t
    | .fault r => .fault r
    | .refused r => .refused r

/-! ### How a run ends (R13) -/

/-- Completed: the last accepted command ran to its end (R13a, R182). -/
def Completed (s : State) : Prop := s.pc = sIdle ∧ s.done = true

/-- Faulted: the block stands in the fault state (R13b, R198). -/
def Faulted (s : State) : Prop := s.pc = sFaultCode

/-- Hung: the block drives an access and the Target is silent (R13c, R205). -/
def Hung (s : State) : Prop := (requestAt s).isSome = true ∧ s.answers.head? = some .silent

/-- The block acts next, and nobody before it. -/
def BlockActs (s : State) : Prop := s.turns = [] ∨ s.turns.head? = some .block

/-! ### Answers -/

/-- The answer of the coming access (log 4). -/
def nextAnswer (s : State) : Answer := s.answers.headD .stored

/-- The word an answer gives a read of a cell that holds `stored`; none where it refuses or stays silent. -/
def wordGiven (stored : Word) : Answer → Option Word
  | .stored => some stored
  | .word r => some r
  | .refuse _ => none
  | .silent => none

/-- No answer of the list refuses or stays silent. -/
def AllServe (as : List Answer) : Prop := ∀ a ∈ as, (wordGiven 0#32 a).isSome = true

/-- The state after a served read access at address `a`: one answer used, one `R` event (R50). -/
def afterRead (a x : Word) (s : State) : State :=
  { s with answers := s.answers.tail, trace := s.trace ++ [.rd a .four x] }

/-- The state after a served write access at address `a`: one answer used, the word stored, a `W` event and its
read-back `x` (R50). -/
def afterWrite (a v x : Word) (s : State) : State :=
  { s with
    answers := s.answers.tail, mem := s.mem.putWord a v, trace := s.trace ++ [.wr a .four v, .rd a .four x] }

/-- The state after a refused access of the step `code`: one answer used, `FSTEP` and STEP written, nothing else
(R52, R197). -/
def afterRefusal (code : BitVec 5) (s : State) : State :=
  { s with answers := s.answers.tail, fstep := code, pc := 31#5 }

/-! ### The trace -/

/-- The write sub-list of a trace, as address and value pairs (R55). -/
def writesOf : List Event → List (Word × Word)
  | [] => []
  | .wr a _ v :: rest => (a, v) :: writesOf rest
  | .rd _ _ _ :: rest => writesOf rest

/-- The events of a list of write accesses with the words their read-backs return. -/
def writeEvents (p : Config.Params) : List (Reg × Word) → List Word → List Event
  | (r, v) :: ws, x :: xs => .wr (regAddr p r) .four v :: .rd (regAddr p r) .four x :: writeEvents p ws xs
  | _, _ => []

/-- The words the read-backs of a list of write accesses return, one answer each; none where an answer refuses or stays
silent. -/
def readBacks : List (Reg × Word) → List Answer → Option (List Word)
  | [], _ => some []
  | (_, v) :: ws, as =>
    match wordGiven v (as.headD .stored) with
    | some x => (readBacks ws as.tail).map fun xs => x :: xs
    | none => none

/-- The writes of a `PWM.SET` between its two read-modify-writes of `EN` (spec/40_command.md R112 steps 6 and 7). -/
def configWrites (c : BitVec 2) (con high low pattern : Word) (duty : BitVec 7) : List (Reg × Word) :=
  [(.chan .con c, con), (.chan .hdur c, high), (.chan .ldur c, low), (.chan .gdur c, 0#32),
    (.chan .sd0 c, pattern), (.chan .sd1 c, pattern), (.chan .wavenum c, 0#32)]
  ++ (if duty = 0#7 then [(.chan .sd0 c, 0x00000000#32), (.chan .sd1 c, 0x00000000#32)]
      else if duty = 100#7 then [(.chan .sd0 c, 0xFFFFFFFF#32), (.chan .sd1 c, 0xFFFFFFFF#32)]
      else [])

/-- The configuration writes of `PWM.SET c, f, d` under parameters `p`. -/
def setWrites (p : Config.Params) (c : BitVec 2) (f : Word) (d : BitVec 7) : List (Reg × Word) :=
  configWrites c (controlWord p (timing p f).mode (timing p f).div) (splitHigh (timing p f).dur d)
    (splitLow (timing p f).dur d) p.sendPattern d

/-! ### Instructions by what they touch -/

/-- The micro-operations that perform an access, with their STEP codes (spec/60_exceptions.md R190). -/
def accessing : List (Instr × BitVec 5) :=
  [(.enRd1, 1#5), (.enClr, 2#5), (.wrCon, 8#5), (.wrHdur, 9#5), (.wrLdur, 10#5), (.wrGdur, 11#5), (.wrSd0, 12#5),
    (.wrSd1, 13#5), (.wrWavenum, 14#5), (.wrSd0Ovr, 16#5), (.wrSd1Ovr, 17#5), (.enRd2, 18#5), (.enSet, 19#5)]

/-- The block registers of `s` other than STEP are those of `t`: `FSTEP`, `DONE` and the ten data registers. -/
def SameRegisters (s t : State) : Prop :=
  s.ch = t.ch ∧ s.freq = t.freq ∧ s.duty = t.duty ∧ s.clksel = t.clksel ∧ s.div = t.div ∧ s.dur = t.dur ∧
    s.durh = t.durh ∧ s.durl = t.durl ∧ s.entmp = t.entmp ∧ s.fstep = t.fstep ∧ s.done = t.done

/-- Two states that differ at most in registers that hold values of an earlier command (R27). -/
def DifferOnlyInDeadRegisters (s t : State) : Prop :=
  s.pc = t.pc ∧ s.mem = t.mem ∧ s.trace = t.trace ∧ s.cmds = t.cmds ∧ s.answers = t.answers ∧ s.turns = t.turns ∧
    s.par = t.par

/-! ### The invariant -/

/-- Every listed byte belongs to one of the 29 registers (R57, R58). -/
def memOnMap (p : Config.Params) (m : Memory) : Bool :=
  m.all fun cell => (regOfAddr p (BitVec.ofNat 32 (cell.1 / 4 * 4))).isSome && decide (cell.1 < 2 ^ 32)

/-- The calculator's and the writers' steps, where `FREQ` is not 0 (R133). -/
def pastFreqTest (pc : BitVec 5) : Bool := decide (4 ≤ pc.toNat) && decide (pc.toNat ≤ 19)

/-- What holds of the block in every state a run from reset reaches: the parameters are as R8 prints them;
STEP names a micro-operation (R25); `DONE` only when idle (R26, R182); an accepted command is not reserved (R90);
past `FREQ_TEST` the frequency is not 0 (R133); Slow mode has divider 0 and the search runs in Fast mode (R21);
during the search `DUR` is the Fast quotient at `DIV`, and the search leaves only at the limit or at divider 7
(R141, R142); after `FALLBACK` the duration is within R147's range, and the phases within R148's. -/
structure BlockInv (s : State) : Prop where
  printed : s.par.AsPrinted
  stepNamed : (decodeStep s.pc).isSome = true
  doneOnlyIdle : s.done = true → s.pc = sIdle
  notReserved : s.freq ≠ 0#32 → s.duty.toNat ≤ 100
  freqNonzero : pastFreqTest s.pc = true → s.freq ≠ 0#32
  slowDivZero : s.clksel = .slow → s.div = 0#3
  searchFast : s.pc = sDivStep ∨ s.pc = sFallback → s.clksel = .fast
  searchDuration : s.pc = sDivStep ∨ s.pc = sFallback → s.dur.toNat = 40000000 / (2 ^ s.div.toNat * s.freq.toNat)
  searchLeaves : s.pc = sFallback → 15000 < s.dur.toNat → s.div = 7#3
  durRange : s.dur.toNat ≤ 40000000
  durSettled : pastFreqTest s.pc = true → 7 ≤ s.pc.toNat →
    s.dur.toNat ≤ 100000 ∧ (s.clksel = .fast → s.dur.toNat ≤ 15000)
  highRange : s.durh.toNat ≤ 100000
  lowRange : s.durl.toNat ≤ 100000

/-- What holds of the Target's memory: canonical form, and nothing outside the map (R54, R57, R58). -/
structure TargetInv (s : State) : Prop where
  canonical : s.mem.wf = true
  onMap : memOnMap s.par s.mem = true

/-- The invariant of the whole machine. -/
structure Inv (s : State) : Prop where
  block : BlockInv s
  target : TargetInv s

end Sys2Proof.Safety
end

