-- ==== Sys2Proof/Certificates/Slice0/Obligations.lean ====
section
/-! DEFINITION. The statements for the provers. Each docstring names the rule of spec/ it formalises, or says that it is
derived. Addresses, codes and masks are written as the spec prints them, not by the model's names for them. -/

open Sys2Proof Sys2Proof.Machine Sys2Proof.Safety

/-! ### Encodings -/

/-- Derived from R96 and V1 (bytes padded with 0 are log 12): the worked assemblies, each line to its word and each
word to its command; R24, R92: the code of every micro-operation, and no other byte is one. -/
def Obligations.WrittenOutWordsDecode : Prop :=
  assemble Config.Params.default [['0'], ['4', '0', '0', '0', '0', '0', '0', '0'], ['5',
    '0']] = .command 0x0C802625A00#41 ∧
  assemble Config.Params.default [['1'], ['1', '0', '0', '0'], ['2', '5']] = .command 0x065000003E8#41 ∧
  assemble Config.Params.default [['2'], ['1', '0']] = .command 0x0CA0000000A#41 ∧
  assemble Config.Params.default [['2'], ['0']] = .command 0x0CA00000000#41 ∧
  assemble Config.Params.default [['3'], ['4', '4', '0'], ['1', '0', '0']] = .command 0x193000001B8#41 ∧
  assemble Config.Params.default [['3'], ['4', '4', '0'], ['0']] = .command 0x003000001B8#41 ∧
  decodeTableWord 48 0x0C802625A00 = some (.pwmSet 0#2 40000000#32 50#7) ∧
  decodeTableWord 48 0x065000003E8 = some (.pwmSet 1#2 1000#32 25#7) ∧
  decodeTableWord 48 0x0CA0000000A = some (.pwmSet 2#2 10#32 50#7) ∧
  decodeTableWord 48 0x0CA00000000 = some (.pwmOff 2#2 50#7) ∧
  decodeTableWord 48 0x193000001B8 = some (.pwmSet 3#2 440#32 100#7) ∧
  decodeTableWord 48 0x003000001B8 = some (.pwmSet 3#2 440#32 0#7) ∧
  decodeTableWord 48 0x19400000001 = some (.reserved 0#2 1#32 101#7) ∧
  ([0, 1, 2, 3, 4, 5, 6, 7, 8, 9, 10, 11, 12, 13, 14, 15, 16, 17, 18, 19, 20, 31].map (decodeTableWord 8)) =
    [some .accept, some .enRd1, some .enClr, some .freqTest, some .divInit, some .divStep, some .fallback,
      some .split, some .wrCon, some .wrHdur, some .wrLdur, some .wrGdur, some .wrSd0, some .wrSd1,
      some .wrWavenum, some .dutyTest, some .wrSd0Ovr, some .wrSd1Ovr, some .enRd2, some .enSet, some .finish,
      some .sFault] ∧
  ∀ n : Fin 256, 21 ≤ n.val → n.val ≠ 31 → decodeTableWord 8 n.val = none

/-- Decoding an encoded well-formed instruction gives it back, with every operand at every value (derived: R81, R83,
R89, R90; the byte layout is log 12). -/
def Obligations.DecodeInvertsEncode : Prop :=
  ∀ i : Instr, i.wf = true → decode (encode i) = .instr i

/-- Derived (the byte layout is log 12): bytes that decode have one meaning, they are the encoding of a well-formed
instruction. -/
def Obligations.EncodeInvertsDecode : Prop :=
  ∀ (bytes : List Byte) (i : Instr), decode bytes = .instr i → i.wf = true ∧ encode i = bytes

/-- R89: the two tests of a CMD word in their order, in the table's match and mask form, and the STEP code as the
whole opcode. -/
def Obligations.CommandWordSelectsByTwoTests : Prop :=
  (∀ w : BitVec 41,
    (w &&& 0x000FFFFFFFF#41 = 0x00000000000#41 →
      decodeCmd w = .pwmOff (w.extractLsb' 32 2) (w.extractLsb' 34 7)) ∧
    (w &&& 0x000FFFFFFFF#41 ≠ 0x00000000000#41 → (w.extractLsb' 34 7).toNat ≤ 100 →
      decodeCmd w = .pwmSet (w.extractLsb' 32 2) (w.extractLsb' 0 32) (w.extractLsb' 34 7)) ∧
    (w &&& 0x000FFFFFFFF#41 ≠ 0x00000000000#41 → 101 ≤ (w.extractLsb' 34 7).toNat →
      decodeCmd w = .reserved (w.extractLsb' 32 2) (w.extractLsb' 0 32) (w.extractLsb' 34 7))) ∧
  ∀ (i : Instr) (code : BitVec 5), decodeStep code = some i ↔ codeWord i = .step code

/-- Derived from R82: the ACC request and response words, field by field, read back; and what the block drives in
them. -/
def Obligations.AccessorWordsReadBack : Prop :=
  (∀ q : Request,
    unpackRequest (packRequest q) = some q ∧
    (packRequest q).extractLsb' 0 32 = q.value ∧ (packRequest q).extractLsb' 32 32 = q.address ∧
    (packRequest q).getLsbD 67 = q.write ∧ (q.size = .four → (packRequest q).extractLsb' 64 3 = 4#3)) ∧
  (∀ p : Response,
    unpackResponse (packResponse p) = p ∧ (packResponse p).extractLsb' 0 32 = p.rdata ∧
    (packResponse p).getLsbD 32 = p.err) ∧
  ∀ (s : State) (i : Instr) (q : Request), requestOf s i = some q →
    q.size = .four ∧ (q.write = false → q.value = 0#32) ∧ ∃ r : Reg, q.address = regAddr s.par r

/-- Derived from R85, R97, R57 and R58, for the parameters as printed (log 22): an address is its concatenation, and the
Target's view by mask and match names the register back; an address names a register exactly when it is that register's
address. -/
def Obligations.AddressIsBaseChannelOffset : Prop :=
  ∀ p : Config.Params, p.AsPrinted →
    regAddr p .en = 0x10005000#32 ∧
    (∀ (c : BitVec 2) (k : ChanReg) (off : BitVec 6),
      (k, off) ∈ [(ChanReg.con, 0x10#6), (.hdur, 0x14#6), (.ldur, 0x18#6), (.gdur, 0x1C#6), (.sd0, 0x30#6),
        (.sd1, 0x34#6), (.wavenum, 0x38#6)] →
      regAddr p (.chan k c) = 0x100050#24 ++ c ++ off ∧
      regAddr p (.chan k c) = (0x10005000#32 + off.setWidth 32) + 0x40#32 * c.setWidth 32 ∧
      ∀ a : Word, regOfAddr p a = some (.chan k c) ↔
        a &&& 0xFFFFFF3F#32 = 0x10005000#32 + off.setWidth 32 ∧ a.extractLsb' 6 2 = c) ∧
    (∀ a : Word, regOfAddr p a = some .en ↔ a &&& 0xFFFFFFFF#32 = 0x10005000#32) ∧
    ∀ (a : Word) (r : Reg), regOfAddr p a = some r ↔ a = regAddr p r

/-- R86: the control word's fields do not overlap, so the clock family and the divider read back from it, and `|` and
`+` agree; with the default `FAST_BIT` the nine words the rule lists, the only ones `WR_CON` drives in a state that
keeps the block's invariant. -/
def Obligations.ControlWordFieldsReadBack : Prop :=
  (∀ (p : Config.Params) (mode : ClockMode) (div : BitVec 3), p.AsPrinted → p.legal = true →
    controlWord p mode div = 0x00000A00#32 ||| (if mode = .fast then p.fastBit else 0#32) ||| div.setWidth 32 ∧
    controlWord p mode div = 0x00000A00#32 + (if mode = .fast then p.fastBit else 0#32) + div.setWidth 32 ∧
    (controlWord p mode div).extractLsb' 0 3 = div ∧
    controlWord p mode div &&& p.fastBit = (if mode = .fast then p.fastBit else 0#32)) ∧
  (∀ div : BitVec 3, controlWord Config.Params.default .fast div = 0x00000A08#32 + div.setWidth 32) ∧
  controlWord Config.Params.default .slow 0#3 = 0x00000A00#32 ∧
  ∀ (s : State) (q : Request), BlockInv s → s.par = Config.Params.default → requestOf s .wrCon = some q →
    q.value = 0x00000A00#32 ∨ ∃ div : BitVec 3, q.value = 0x00000A08#32 + div.setWidth 32

/-- Derived, after the spec's own derivation R9: what the model checks of the OPEN parameters: `FAST_BIT` one bit away
from the mode bits and the divider, `SEND_PATTERN` alternating; with the printed table nothing else; under any table
the addresses are aligned (R60; that the model checks it is log 18); and a model with others does not run. -/
def Obligations.OpenParametersAreChecked : Prop :=
  (∀ p : Config.Params, p.AsPrinted → (p.legal = true ↔
    (∃ n : Nat, n < 32 ∧ p.fastBit = 1#32 <<< n ∧ n ∉ [0, 1, 2, 9, 11]) ∧
    ∀ n : Nat, n < 31 → p.sendPattern.getLsbD n ≠ p.sendPattern.getLsbD (n + 1))) ∧
  (∀ p : Config.Params, p.legal = true → p.sendPattern = 0x55555555#32 ∨ p.sendPattern = 0xAAAAAAAA#32) ∧
  (∀ p : Config.Params, p.legal = true → ∀ r : Reg, (regAddr p r).toNat % 4 = 0) ∧
  ∀ s : State, s.par.legal = false → step s = .refused .illegalParameters

/-! ### One step -/

/-- A step runs the decoded instruction: at the block's turn the micro-operation STEP's code decodes to, at a call of
the Host the command its word decodes to (derived: R24, R89, R110; the turn list is log 5, the call log 7). -/
def Obligations.StepRunsTheDecodedInstruction : Prop :=
  ∀ (s : State) (i : Instr), s.par.legal = true →
    (BlockActs s → decode [0#3 ++ s.pc] = .instr i → step s = exec i { s with turns := s.turns.tail }) ∧
    ∀ (w : BitVec 41) (rest : List Turn), s.turns = .call w :: rest → decode (codeBytes (.cmd w)) = .instr i →
      step s = exec i { s with turns := rest }

/-- An instruction placed for the fetch is the one the very next step runs (derived: R81, R83; log 8). -/
def Obligations.PlacedWordIsRunByTheNextStep : Prop :=
  ∀ (s : State) (nbits w : Nat) (i : Instr), s.par.legal = true → decodeTableWord nbits w = some i →
    step (s.withFetchWord nbits w) = exec i { s.withFetchWord nbits w with turns := s.turns }

/-- R24: every micro-operation's successor, with its conditions; the other ways are a fault, which goes to
`S_FAULT` (R25), and a silent Target, at which STEP keeps its code (R205). -/
def Obligations.StepOrderFollowsTheTable : Prop :=
  ∀ (s t : State) (i : Instr) (code next : BitVec 5), s.par.AsPrinted → s.pc = code → exec i s = .next t →
    (i, code, next) ∈
      [(Instr.accept, 0#5, if s.cmds = [] then 0#5 else 1#5), (.enRd1, 1#5, 2#5), (.enClr, 2#5, 3#5),
        (.freqTest, 3#5, if s.freq = 0#32 then 20#5 else 4#5), (.divInit, 4#5, 5#5),
        (.divStep, 5#5, if 15000 < s.dur.toNat ∧ s.div.toNat < 7 then 5#5 else 6#5), (.fallback, 6#5, 7#5),
        (.split, 7#5, 8#5), (.wrCon, 8#5, 9#5), (.wrHdur, 9#5, 10#5), (.wrLdur, 10#5, 11#5), (.wrGdur, 11#5, 12#5),
        (.wrSd0, 12#5, 13#5), (.wrSd1, 13#5, 14#5), (.wrWavenum, 14#5, 15#5),
        (.dutyTest, 15#5, if s.duty = 0#7 ∨ s.duty = 100#7 then 16#5 else 18#5), (.wrSd0Ovr, 16#5, 17#5),
        (.wrSd1Ovr, 17#5, 18#5), (.enRd2, 18#5, 19#5), (.enSet, 19#5, 20#5), (.finish, 20#5, 0#5),
        (.sFault, 31#5, 31#5)] →
    decodeStep code = some i ∧
    ((i, code) ∈ accessing ∧ (∃ cause, nextAnswer s = .refuse cause) ∧ t.pc = 31#5 ∨
      (i, code) ∈ accessing ∧ nextAnswer s = .silent ∧ t.pc = code ∨
      ((i, code) ∈ accessing → (wordGiven 0#32 (nextAnswer s)).isSome = true) ∧ t.pc = next)

/-- A STEP code of 21 to 30 is stuck (derived: U17, R25, R92; log 16). -/
def Obligations.UnusedStepCodeIsStuck : Prop :=
  ∀ s : State, s.par.legal = true → BlockActs s → 21 ≤ s.pc.toNat → s.pc.toNat ≤ 30 →
    step s = .fault (.stuckStep s.pc)

/-- Derived from R61, R63, R203 and R222 (the turn list is log 5, other masters log 19, the Target's reset log 29):
another master's plain write or read, and another instance's access, its write and read-back as one event, change
nothing of the block, only the register written and the trace; the Target's own reset changes only its contents. -/
def Obligations.OtherMastersLeaveTheBlockAlone : Prop :=
  ∀ (s : State) (r : Reg) (v : Word) (rest : List Turn), s.par.legal = true →
    (s.turns = .otherWrite (regAddr s.par r) v :: rest →
      step s = .next { s with
        turns := rest, mem := s.mem.putWord (regAddr s.par r) v,
        trace := s.trace ++ [.wr (regAddr s.par r) .four v] }) ∧
    (s.turns = .otherRead (regAddr s.par r) v :: rest →
      step s = .next { s with turns := rest, trace := s.trace ++ [.rd (regAddr s.par r) .four v] }) ∧
    (∀ given, s.turns = .otherAccess ⟨true, .four, regAddr s.par r, v⟩ given :: rest →
      step s = .next { s with
        turns := rest, mem := s.mem.putWord (regAddr s.par r) v,
        trace := s.trace ++ [.wr (regAddr s.par r) .four v, .rd (regAddr s.par r) .four (given.getD v)] }) ∧
    (∀ given, s.turns = .otherAccess ⟨false, .four, regAddr s.par r, v⟩ given :: rest →
      step s = .next { s with
        turns := rest, trace := s.trace ++ [.rd (regAddr s.par r) .four (given.getD (s.reg r))] }) ∧
    ∀ words, s.turns = .targetReset words :: rest →
      step s = .next { s with turns := rest, mem := Memory.putRegs s.par [] words }

/-- R130: `ACCEPT` with no command, with a reserved word, and with a command, after which the block is busy; no other
micro-operation takes a command: a presented one waits. (That the Host keeps several waiting is the model's, log 6.) -/
def Obligations.AcceptLatchesTheCommand : Prop :=
  ∀ s : State,
    (s.cmds = [] → exec .accept s = .next s) ∧
    (∀ t, exec .accept s = .next t → s.cmds ≠ [] → t.busy = true) ∧
    (∀ i t, i ≠ .accept → (∃ code, codeWord i = .step code) → exec i s = .next t → t.cmds = s.cmds) ∧
    ∀ (w : BitVec 41) (rest : List (BitVec 41)), s.cmds = w :: rest →
      (w.extractLsb' 0 32 ≠ 0#32 → 100 < (w.extractLsb' 34 7).toNat →
        exec .accept s = .refused .reservedCommand) ∧
      (w.extractLsb' 0 32 = 0#32 ∨ (w.extractLsb' 34 7).toNat ≤ 100 →
        exec .accept s = .next { s with
          cmds := rest, ch := w.extractLsb' 32 2, freq := w.extractLsb' 0 32, duty := w.extractLsb' 34 7,
          done := false, pc := 1#5 })

/-- R131, R180: the two reads of Global Enable, served and refused. Each takes the word the Target gives; the second
overwrites the first. -/
def Obligations.EnableReadsFillTheTemporary : Prop :=
  ∀ (s : State) (i : Instr) (code next : BitVec 5),
    s.par.AsPrinted →
    (i, code, next) ∈ [(Instr.enRd1, 1#5, 2#5), (.enRd2, 18#5, 19#5)] →
    (∀ x, wordGiven (s.mem.word 0x10005000#32) (nextAnswer s) = some x →
      exec i s = .next { afterRead 0x10005000#32 x s with entmp := x, pc := next }) ∧
    ∀ c, nextAnswer s = .refuse c → exec i s = .next (afterRefusal code s)

/-- R132, R181, R87: `EN_CLR` and `EN_SET` write `ENTMP` back with the channel's bit clear or set, and discard the
returned word. -/
def Obligations.EnableWritesChangeOneBit : Prop :=
  ∀ (s : State) (i : Instr) (code next : BitVec 5) (v : Word),
    s.par.AsPrinted →
    (i, code, v, next) ∈
      [(Instr.enClr, 2#5, s.entmp &&& ~~~(1#32 <<< s.ch.toNat), 3#5),
        (.enSet, 19#5, s.entmp ||| 1#32 <<< s.ch.toNat, 20#5)] →
    (∀ x, wordGiven v (nextAnswer s) = some x →
      exec i s = .next { afterWrite 0x10005000#32 v x s with pc := next }) ∧
    ∀ c, nextAnswer s = .refuse c → exec i s = .next (afterRefusal code s)

/-! ### The calculator -/

/-- R140: `DIV_INIT`. -/
def Obligations.DivInitStartsTheSearch : Prop :=
  ∀ s : State, s.par.AsPrinted → s.freq ≠ 0#32 →
    exec .divInit s = .next { s with
      clksel := .fast, div := 0#3, dur := BitVec.ofNat 32 (40000000 / s.freq.toNat), pc := 5#5 }

/-- R141: `DIV_STEP`, one turn of the search; the test is strict. -/
def Obligations.DivStepRaisesTheDivider : Prop :=
  ∀ s : State, s.par.AsPrinted → s.freq ≠ 0#32 →
    (15000 < s.dur.toNat → s.div.toNat < 7 →
      exec .divStep s = .next { s with
        div := BitVec.ofNat 3 (s.div.toNat + 1),
        dur := BitVec.ofNat 32 (40000000 / (2 ^ (s.div.toNat + 1) * s.freq.toNat)), pc := 5#5 }) ∧
    (s.dur.toNat ≤ 15000 ∨ s.div.toNat = 7 → exec .divStep s = .next { s with pc := 6#5 })

/-- R142: `FALLBACK`. -/
def Obligations.FallbackTakesTheSlowClock : Prop :=
  ∀ s : State, s.par.AsPrinted → s.freq ≠ 0#32 →
    (15000 < s.dur.toNat →
      exec .fallback s = .next { s with
        clksel := .slow, div := 0#3, dur := BitVec.ofNat 32 (100000 / s.freq.toNat), pc := 7#5 }) ∧
    (s.dur.toNat ≤ 15000 → exec .fallback s = .next { s with pc := 7#5 })

/-- R143: `SPLIT`, each product before its one division. -/
def Obligations.SplitDividesTheDuration : Prop :=
  ∀ s : State, s.duty.toNat ≤ 100 →
    exec .split s = .next { s with
      durh := BitVec.ofNat 32 (s.dur.toNat * s.duty.toNat / 100),
      durl := BitVec.ofNat 32 (s.dur.toNat * (100 - s.duty.toNat) / 100), pc := 8#5 }

/-- The calculator's steps complete on every state, also where no run leads: there the open value is free
(derived: R11, R90; the free values are log 13 and log 14). -/
def Obligations.CalculatorAlwaysCompletes : Prop :=
  ∀ s : State, ∀ i ∈ [Instr.divInit, .divStep, .fallback, .split], ∃ t : State, exec i s = .next t ∧
    t.pc ∈ [5#5, 6#5, 7#5, 8#5] ∧ t.mem = s.mem ∧ t.trace = s.trace

/-- Derived, after the spec's own derivations R146 to R149: along a run `DIV_INIT` gives at most 40000000, the product
stays at most 5332, `DUR` never grows in the search, the settled duration and the products of `SPLIT` keep their
ranges. -/
def Obligations.CalculatorStaysInRange : Prop :=
  ∀ s t : State, BlockInv s →
    (s.pc = 4#5 → exec .divInit s = .next t → t.dur.toNat ≤ 40000000) ∧
    (s.pc = 5#5 → exec .divStep s = .next t →
      t.dur.toNat ≤ s.dur.toNat ∧ (t.pc = 5#5 → 2 ^ t.div.toNat * s.freq.toNat ≤ 5332)) ∧
    (s.pc = 6#5 → exec .fallback s = .next t →
      t.dur.toNat ≤ 100000 ∧ (t.clksel = .fast → t.dur.toNat ≤ 15000) ∧
      (t.clksel = .slow → t.dur.toNat = 100000 / s.freq.toNat)) ∧
    (s.pc = 7#5 → exec .split s = .next t →
      s.dur.toNat ≤ 100000 ∧ s.duty.toNat ≤ 100 ∧
      s.dur.toNat * s.duty.toNat ≤ 10000000 ∧ s.dur.toNat * (100 - s.duty.toNat) ≤ 10000000 ∧
      t.durh.toNat ≤ s.dur.toNat ∧ t.durl.toNat ≤ s.dur.toNat)

/-- Derived, after the spec's own derivation R114: `calc` in closed form, with the table's bands. -/
def Obligations.CalculatorClosedForm : Prop :=
  ∀ (p : Config.Params) (f : Word), p.AsPrinted → f ≠ 0#32 →
    (21 ≤ f.toNat → ∃ d : Nat, d ≤ 7 ∧ 2667 ≤ 2 ^ d * f.toNat ∧ (∀ e < d, 2 ^ e * f.toNat < 2667) ∧
      timing p f = ⟨.fast, BitVec.ofNat 3 d, BitVec.ofNat 32 (40000000 / (2 ^ d * f.toNat))⟩) ∧
    (f.toNat ≤ 20 → timing p f = ⟨.slow, 0#3, BitVec.ofNat 32 (100000 / f.toNat)⟩) ∧
    ∀ (lo hi : Nat) (mode : ClockMode) (div : BitVec 3) (top bottom : Nat),
      (lo, hi, mode, div, top, bottom) ∈
        [(1, 6, ClockMode.slow, 0#3, 100000, 16666), (7, 20, .slow, 0#3, 14285, 5000),
          (21, 41, .fast, 7#3, 14880, 7621), (42, 83, .fast, 6#3, 14880, 7530), (84, 166, .fast, 5#3, 14880, 7530),
          (167, 333, .fast, 4#3, 14970, 7507), (334, 666, .fast, 3#3, 14970, 7507),
          (667, 1333, .fast, 2#3, 14992, 7501), (1334, 2666, .fast, 1#3, 14992, 7501),
          (2667, 40000000, .fast, 0#3, 14998, 1), (40000001, 4294967295, .fast, 0#3, 0, 0)] →
      lo ≤ f.toNat → f.toNat ≤ hi →
      (timing p f).mode = mode ∧ (timing p f).div = div ∧ (timing p f).dur.toNat ≤ top ∧ bottom ≤ (timing p f).dur.toNat

/-- R116: the pair chosen is within the limit whenever any pair is, has the largest duration of those, and the slow
clock is taken only when every divider of the fast clock is over the limit. -/
def Obligations.SelectionIsTheBestWithinTheLimit : Prop :=
  ∀ (p : Config.Params) (f : Word), p.AsPrinted → f ≠ 0#32 →
    ((∃ d ≤ 7, 40000000 / (2 ^ d * f.toNat) ≤ 15000) ∨ 100000 / f.toNat ≤ 15000 →
      (timing p f).dur.toNat ≤ 15000) ∧
    (∀ d ≤ 7, 40000000 / (2 ^ d * f.toNat) ≤ 15000 → 40000000 / (2 ^ d * f.toNat) ≤ (timing p f).dur.toNat) ∧
    (100000 / f.toNat ≤ 15000 → 100000 / f.toNat ≤ (timing p f).dur.toNat) ∧
    ((timing p f).mode = .slow → (timing p f).div = 0#3 ∧ (timing p f).dur.toNat = 100000 / f.toNat ∧
      ∀ d ≤ 7, 15000 < 40000000 / (2 ^ d * f.toNat)) ∧
    ((timing p f).mode = .fast →
      (timing p f).dur.toNat = 40000000 / (2 ^ (timing p f).div.toNat * f.toNat) ∧ (timing p f).dur.toNat ≤ 15000 ∧
      ∀ d < (timing p f).div.toNat, 15000 < 40000000 / (2 ^ d * f.toNat))

/-- R118, R119: the drift of the split is at most one tick, none exactly when 100 divides the product; at the extremes
the split is exact. -/
def Obligations.SplitDriftsAtMostOneTick : Prop :=
  ∀ (dur : Word) (duty : BitVec 7), duty.toNat ≤ 100 →
    (0 < duty.toNat → duty.toNat < 100 →
      ((splitHigh dur duty).toNat + (splitLow dur duty).toNat = dur.toNat ∨
        (splitHigh dur duty).toNat + (splitLow dur duty).toNat = dur.toNat - 1) ∧
      ((splitHigh dur duty).toNat + (splitLow dur duty).toNat = dur.toNat ↔ 100 ∣ dur.toNat * duty.toNat)) ∧
    (duty.toNat = 0 → splitHigh dur duty = 0#32 ∧ splitLow dur duty = dur) ∧
    (duty.toNat = 100 → splitHigh dur duty = dur ∧ splitLow dur duty = 0#32)

/-- R122: the duration is the floor of the effective clock over the frequency, so the frequency is biased high. -/
def Obligations.FrequencyErrorIsUpward : Prop :=
  ∀ (p : Config.Params) (f : Word) (clock : Nat), p.AsPrinted → f ≠ 0#32 →
    clock = (if (timing p f).mode = .fast then 40000000 else 100000) →
    (timing p f).dur.toNat = clock / 2 ^ (timing p f).div.toNat / f.toNat ∧
    (0 < (timing p f).dur.toNat →
      (f.toNat : ℚ) ≤ (clock : ℚ) / 2 ^ (timing p f).div.toNat / (timing p f).dur.toNat)

/-! ### Configuration writes -/

/-- R160: `WR_CON` writes the control word. -/
def Obligations.WrConWritesTheControlWord : Prop :=
  ∀ (s : State) (a con : Word), s.par.AsPrinted → a = 0x10005010#32 + 0x40#32 * s.ch.setWidth 32 →
    con = 0x00000A00#32 ||| (if s.clksel = .fast then s.par.fastBit else 0#32) ||| s.div.setWidth 32 →
    (∀ x, wordGiven con (nextAnswer s) = some x → exec .wrCon s = .next { afterWrite a con x s with pc := 9#5 }) ∧
    ∀ c, nextAnswer s = .refuse c → exec .wrCon s = .next (afterRefusal 8#5 s)

/-- R161 to R166: the other six writes of step 6, each with its base, its word and its successor. -/
def Obligations.ConfigurationWritesFollowTheTable : Prop :=
  ∀ (s : State) (i : Instr) (code : BitVec 5) (base v : Word) (next : BitVec 5),
    s.par.AsPrinted →
    (i, code, base, v, next) ∈
      [(Instr.wrHdur, 9#5, 0x10005014#32, s.durh, 10#5), (.wrLdur, 10#5, 0x10005018#32, s.durl, 11#5),
        (.wrGdur, 11#5, 0x1000501C#32, 0#32, 12#5), (.wrSd0, 12#5, 0x10005030#32, s.par.sendPattern, 13#5),
        (.wrSd1, 13#5, 0x10005034#32, s.par.sendPattern, 14#5), (.wrWavenum, 14#5, 0x10005038#32, 0#32, 15#5)] →
    (∀ x, wordGiven v (nextAnswer s) = some x →
      exec i s = .next { afterWrite (base + 0x40#32 * s.ch.setWidth 32) v x s with pc := next }) ∧
    ∀ c, nextAnswer s = .refuse c → exec i s = .next (afterRefusal code s)

/-- R133, R167: `FREQ_TEST` goes to `S_FINISH` when `FREQ` is 0, `DUTY_TEST` to the overrides when `DUTY` is 0 or 100.
-/
def Obligations.TestsChooseThePath : Prop :=
  ∀ s : State,
    exec .freqTest s = .next { s with pc := if s.freq = 0#32 then 20#5 else 4#5 } ∧
    exec .dutyTest s = .next { s with pc := if s.duty = 0#7 ∨ s.duty = 100#7 then 16#5 else 18#5 }

/-- R168, R169: the overrides write all-zero when `DUTY` is 0 and all-one otherwise. -/
def Obligations.OverridesWriteAllZeroOrAllOne : Prop :=
  ∀ (s : State) (i : Instr) (code : BitVec 5) (base : Word) (next : BitVec 5) (v : Word),
    s.par.AsPrinted →
    v = (if s.duty = 0#7 then 0x00000000#32 else 0xFFFFFFFF#32) →
    (i, code, base, next) ∈ [(Instr.wrSd0Ovr, 16#5, 0x10005030#32, 17#5), (.wrSd1Ovr, 17#5, 0x10005034#32, 18#5)] →
    (∀ x, wordGiven v (nextAnswer s) = some x →
      exec i s = .next { afterWrite (base + 0x40#32 * s.ch.setWidth 32) v x s with pc := next }) ∧
    ∀ c, nextAnswer s = .refuse c → exec i s = .next (afterRefusal code s)

/-! ### Finish -/

/-- R182: `FINISH` sets `DONE` and returns to idle. -/
def Obligations.FinishReturnsToIdle : Prop :=
  ∀ s : State, exec .finish s = .next { s with done := true, pc := 0#5 } ∧
    ∀ t, exec .finish s = .next t → t.busy = false

/-! ### Whole commands -/

/-- R111: `PWM.OFF` as one operation, for the words its two accesses return, and the exception from either access. -/
def Obligations.PwmOffClearsTheEnableBit : Prop :=
  ∀ (c : BitVec 2) (d : BitVec 7) (s : State), s.par.AsPrinted → s.pc = 0#5 →
    (∀ cause, nextAnswer s = .refuse cause →
      exec (.pwmOff c d) s = .next { s with
        ch := c, freq := 0#32, duty := d, done := false, fstep := 1#5, pc := 31#5, answers := s.answers.tail }) ∧
    ∀ e off : Word, off = e &&& ~~~(1#32 <<< c.toNat) →
    wordGiven (s.mem.word 0x10005000#32) (nextAnswer s) = some e →
    (∀ cause, s.answers.tail.headD .stored = .refuse cause →
      exec (.pwmOff c d) s = .next { s with
        ch := c, freq := 0#32, duty := d, entmp := e, done := false, fstep := 2#5, pc := 31#5,
        answers := s.answers.tail.tail, trace := s.trace ++ [.rd 0x10005000#32 .four e] }) ∧
    ∀ x : Word, wordGiven off (s.answers.tail.headD .stored) = some x →
    exec (.pwmOff c d) s = .next { s with
      ch := c, freq := 0#32, duty := d, entmp := e, done := true, pc := 0#5, answers := s.answers.tail.tail,
      mem := s.mem.putWord 0x10005000#32 off,
      trace := s.trace ++
        [.rd 0x10005000#32 .four e, .wr 0x10005000#32 .four off, .rd 0x10005000#32 .four x] }

/-- R112: `PWM.SET` as one operation, for the words its accesses return: every register, the Target's memory and the
bus trace. The second read of `EN` is of what the first write left, unless the Target answers another word. And the
exception from any of its 11 or 13 accesses, the first refused one, at that access's step. -/
def Obligations.PwmSetConfiguresAndEnables : Prop :=
  ∀ (c : BitVec 2) (f : Word) (d : BitVec 7) (s : State), s.par.AsPrinted → s.pc = 0#5 → f ≠ 0#32 → d.toNat ≤ 100 →
    (∀ (n : Nat) (code : BitVec 5) (cause : Cause),
      (([1#5, 2#5, 8#5, 9#5, 10#5, 11#5, 12#5, 13#5, 14#5] ++
        (if d = 0#7 ∨ d = 100#7 then [16#5, 17#5] else []) ++ [18#5, 19#5])[n]? = some code) →
      (∀ m < n, (wordGiven 0#32 (s.answers.getD m .stored)).isSome = true) →
      s.answers.getD n .stored = .refuse cause →
      ∃ t, exec (.pwmSet c f d) s = .next t ∧ t.pc = 31#5 ∧ t.fstep = code ∧ t.done = false) ∧
    ∀ (e₁ off x₁ e₂ on x₂ : Word) (xs : List Word) (ws : List (Reg × Word)) (as : List Answer),
    off = e₁ &&& ~~~(1#32 <<< c.toNat) → on = e₂ ||| 1#32 <<< c.toNat → ws = setWrites s.par c f d →
    wordGiven (s.mem.word 0x10005000#32) (nextAnswer s) = some e₁ →
    wordGiven off (s.answers.tail.headD .stored) = some x₁ →
    readBacks ws (s.answers.drop 2) = some xs →
    as = s.answers.drop (2 + ws.length) →
    wordGiven off (as.headD .stored) = some e₂ →
    wordGiven on (as.tail.headD .stored) = some x₂ →
    exec (.pwmSet c f d) s = .next { s with
      ch := c, freq := f, duty := d, clksel := (timing s.par f).mode, div := (timing s.par f).div,
        dur := (timing s.par f).dur,
      durh := splitHigh (timing s.par f).dur d, durl := splitLow (timing s.par f).dur d, entmp := e₂, done := true,
        pc := 0#5,
      answers := as.drop 2,
      mem := (Memory.putRegs s.par (s.mem.putWord 0x10005000#32 off) ws).putWord 0x10005000#32 on,
      trace := s.trace
        ++ [.rd 0x10005000#32 .four e₁, .wr 0x10005000#32 .four off, .rd 0x10005000#32 .four x₁]
        ++ writeEvents s.par ws xs
        ++ [.rd 0x10005000#32 .four e₂, .wr 0x10005000#32 .four on, .rd 0x10005000#32 .four x₂] }

/-- R90: the reserved words are refused, by the row, by a call and by `ACCEPT`: no step and no access; a word with
frequency 0 is `PWM.OFF` whatever its duty. -/
def Obligations.ReservedWordsAreRefused : Prop :=
  (∀ (c : BitVec 2) (d : BitVec 7), decodeCmd (cmdWord c 0#32 d) = .pwmOff c d) ∧
  ∀ (c : BitVec 2) (f : Word) (d : BitVec 7) (s : State), f ≠ 0#32 → 101 ≤ d.toNat →
    exec (.reserved c f d) s = .refused .reservedCommand ∧
    decodeCmd (cmdWord c f d) = .reserved c f d ∧
    ∀ rest, s.cmds = cmdWord c f d :: rest → exec .accept s = .refused .reservedCommand

/-- A command is taken only when the block is idle; at any other step it waits (derived: R130, D22; that the Host keeps
waiting commands in order is log 6). -/
def Obligations.CommandsWaitUntilIdle : Prop :=
  ∀ (c : BitVec 2) (f : Word) (d : BitVec 7) (s : State), s.pc ≠ 0#5 →
    exec (.pwmOff c d) s = .next { s with cmds := s.cmds ++ [cmdWord c 0#32 d] } ∧
    (d.toNat ≤ 100 → exec (.pwmSet c f d) s = .next { s with cmds := s.cmds ++ [cmdWord c f d] })

/-- Derived, after the spec's own derivation R113: from idle with a command presented and the block alone acting, 28
micro-operations do exactly what the command does as one operation, whatever the Target answers: also a refused
access, a silent one, a reserved word. -/
def Obligations.MicroStepsComposeToTheCommand : Prop :=
  ∀ (s : State) (w : BitVec 41), s.par.legal = true → s.pc = 0#5 → s.turns = [] → s.cmds = [w] →
    run 28 s = exec (decodeCmd w) { s with cmds := [] }

/-- R233: a served command completes in 5 to 28 steps, busy in between, with 2, 11 or 13 accesses. -/
def Obligations.CommandsCompleteWithinTwentyEightSteps : Prop :=
  ∀ (s : State) (w : BitVec 41), s.par.legal = true → s.pc = 0#5 → s.turns = [] → s.cmds = [w] →
    (w.extractLsb' 0 32 = 0#32 ∨ (w.extractLsb' 34 7).toNat ≤ 100) → AllServe s.answers →
    ∃ (n : Nat) (t : State), 5 ≤ n ∧ n ≤ 28 ∧ run n s = .next t ∧ Completed t ∧
      (∀ m, 0 < m → m < n → ∃ u, run m s = .next u ∧ u.busy = true) ∧
      t.answers = s.answers.drop
        (if w.extractLsb' 0 32 = 0#32 then 2
          else if w.extractLsb' 34 7 = 0#7 ∨ w.extractLsb' 34 7 = 100#7 then 13 else 11)

/-- R117: `PWM.OFF` makes one write, to Global Enable, with the channel's bit clear and the other 31 bits as read. -/
def Obligations.OffWritesOnlyTheEnableClear : Prop :=
  ∀ (c : BitVec 2) (d : BitVec 7) (s : State), s.par.AsPrinted → s.pc = 0#5 → AllServe s.answers →
    ∃ (t : State) (evs : List Event) (e off : Word), exec (.pwmOff c d) s = .next t ∧ t.trace = s.trace ++ evs ∧
      evs.head? = some (.rd 0x10005000#32 .four e) ∧ writesOf evs = [(0x10005000#32, off)] ∧
      off.getLsbD c.toNat = false ∧ (∀ n, n ≠ c.toNat → off.getLsbD n = e.getLsbD n) ∧
      t.reg .en = off ∧ ∀ r, r ≠ .en → t.reg r = s.reg r

/-- R120, R226, R227: the first write of a `PWM.SET` clears the channel's enable bit in the word the first read gave,
the last sets it in the word that the second read, the event right before it, gave, and every event between belongs to
a configuration register of that channel. -/
def Obligations.DisableFirstEnableLast : Prop :=
  ∀ (c : BitVec 2) (f : Word) (d : BitVec 7) (s : State), s.par.AsPrinted → s.pc = 0#5 → f ≠ 0#32 → d.toNat ≤ 100 →
    AllServe s.answers →
    ∃ (t : State) (e₁ off x₁ e₂ on x₂ : Word) (mid : List Event),
      exec (.pwmSet c f d) s = .next t ∧
      t.trace = s.trace
        ++ [.rd 0x10005000#32 .four e₁, .wr 0x10005000#32 .four off, .rd 0x10005000#32 .four x₁]
        ++ mid
        ++ [.rd 0x10005000#32 .four e₂, .wr 0x10005000#32 .four on, .rd 0x10005000#32 .four x₂] ∧
      off = e₁ &&& ~~~(1#32 <<< c.toNat) ∧ off.getLsbD c.toNat = false ∧
      on = e₂ ||| 1#32 <<< c.toNat ∧ on.getLsbD c.toNat = true ∧ t.entmp = e₂ ∧
      (writesOf mid).length = (if d = 0#7 ∨ d = 100#7 then 9 else 7) ∧
      ∀ v ∈ mid, ∃ k x, regAddr s.par (.chan k c) ≠ 0x10005000#32 ∧
        (v = .wr (regAddr s.par (.chan k c)) .four x ∨ v = .rd (regAddr s.par (.chan k c)) .four x)

/-- R121: at the storage Target, a command given twice leaves the registers a single one leaves. -/
def Obligations.RepeatedCommandIsIdempotent : Prop :=
  ∀ (w : BitVec 41) (s : State), s.par.AsPrinted → s.pc = 0#5 → s.answers = [] →
    (w.extractLsb' 0 32 = 0#32 ∨ (w.extractLsb' 34 7).toNat ≤ 100) →
    ∃ t u : State, exec (decodeCmd w) s = .next t ∧ exec (decodeCmd w) t = .next u ∧ ∀ r, u.reg r = t.reg r

/-- Derived from R37 and R115: a channel's condition by R37's words, and its condition in R115's state machine, which
parts from them where the command asks for frequency 0 and after a fault (log 20): along a run at `S_FREQ_TEST` and at
`S_FAULT` only. A served `PWM.OFF` leaves the channel Disabled and a served `PWM.SET` leaves it Enabled; no command
leaves a channel Configuring except by a fault or a hang. -/
def Obligations.ChannelStateMachine : Prop :=
  ∀ (c : BitVec 2) (f : Word) (d : BitVec 7) (s : State),
    (s.par.AsPrinted → s.pc = 0#5 → AllServe s.answers →
      (∃ t, exec (.pwmOff c d) s = .next t ∧ channelCondition t c = .disabled ∧ commandCondition t c = .disabled) ∧
      (f ≠ 0#32 → d.toNat ≤ 100 → ∃ t, exec (.pwmSet c f d) s = .next t ∧
        channelCondition t c = .enabled ∧ commandCondition t c = .enabled)) ∧
    (∀ i t, s.pc = 0#5 → (i = .pwmOff c d ∨ i = .pwmSet c f d) → exec i s = .next t →
      ∀ e, commandCondition t e = .configuring → Faulted t ∨ Hung t) ∧
    ((s.reg .en).getLsbD c.toNat = true → channelCondition s c = .enabled ∧ commandCondition s c = .enabled) ∧
    ((s.reg .en).getLsbD c.toNat = false → s.ch = c →
      (3 ≤ s.pc.toNat → s.pc.toNat ≤ 19 → channelCondition s c = .configuring ∧
        commandCondition s c = (if s.freq = 0#32 then .disabled else .configuring)) ∧
      (s.pc = 31#5 → channelCondition s c = .disabled ∧
        commandCondition s c =
          (if 3 ≤ s.fstep.toNat ∧ s.fstep.toNat ≤ 19 ∧ s.freq ≠ 0#32 then .configuring else .disabled)) ∧
      (s.pc.toNat < 3 ∨ 19 < s.pc.toNat → s.pc ≠ 31#5 →
        channelCondition s c = .disabled ∧ commandCondition s c = .disabled)) ∧
    ((s.reg .en).getLsbD c.toNat = false → s.ch ≠ c →
      channelCondition s c = .disabled ∧ commandCondition s c = .disabled) ∧
    (BlockInv s → commandCondition s c ≠ channelCondition s c → s.pc = 3#5 ∧ s.freq = 0#32 ∨ s.pc = 31#5)

/-- R118: after a served `PWM.SET` both send-data registers hold all-zero for duty 0, all-one for duty 100 and
`SEND_PATTERN` otherwise, whatever the durations; the duration registers hold the split, exact at the extremes; and
the writes stand in the order of R112, the durations before the override. -/
def Obligations.SendDataEndsAtTheExtremes : Prop :=
  ∀ (c : BitVec 2) (f : Word) (d : BitVec 7) (s : State), s.par.AsPrinted → s.pc = 0#5 → f ≠ 0#32 → d.toNat ≤ 100 →
    AllServe s.answers →
    ∃ t : State, exec (.pwmSet c f d) s = .next t ∧
      (∀ k ∈ [ChanReg.sd0, ChanReg.sd1], t.reg (.chan k c) =
        (if d = 0#7 then 0x00000000#32 else if d = 100#7 then 0xFFFFFFFF#32 else s.par.sendPattern)) ∧
      t.reg (.chan .hdur c) = splitHigh (timing s.par f).dur d ∧
        t.reg (.chan .ldur c) = splitLow (timing s.par f).dur d ∧
      (d = 0#7 → t.reg (.chan .hdur c) = 0#32 ∧ t.reg (.chan .ldur c) = (timing s.par f).dur) ∧
      (d = 100#7 → t.reg (.chan .hdur c) = (timing s.par f).dur ∧ t.reg (.chan .ldur c) = 0#32) ∧
      ∃ (evs : List Event) (off on : Word), t.trace = s.trace ++ evs ∧
        writesOf evs = (0x10005000#32, off) ::
          (setWrites s.par c f d).map (fun p => (regAddr s.par p.1, p.2)) ++ [(0x10005000#32, on)]

/-! ### Exceptions, hang, reset -/

/-- R197: a refused access, whichever cause, takes the exception at the step that issues it: `FSTEP` and STEP are
written, nothing else of the block or the Target changes, and in a run `DONE` stays 0. The faulting address follows
from `FSTEP` and `CH` (R190). -/
def Obligations.RefusedAccessTakesTheException : Prop :=
  ∀ (i : Instr) (code : BitVec 5) (s : State) (c : Cause), (i, code) ∈ accessing → nextAnswer s = .refuse c →
    ∃ t, exec i s = .next t ∧
      t = { s with answers := s.answers.tail, fstep := code, pc := 31#5 } ∧ t.faultFlag = true ∧ t.busy = false ∧
      (BlockInv s → s.pc = code → t.done = false) ∧
      ∃ q, requestOf s i = some q ∧ faultAddress t = some q.address

/-- Derived from R190 and R194: only a step that performs an access goes to `S_FAULT`, and then `FSTEP` holds its
code. -/
def Obligations.OnlyAccessesRaise : Prop :=
  ∀ (i : Instr) (s t : State), exec i s = .next t → t.pc = 31#5 → s.pc ≠ 31#5 →
    (∃ code, (i, code) ∈ accessing ∧ t.fstep = code) ∨
    ((∃ c d, i = .pwmOff c d) ∨ ∃ c f d, i = .pwmSet c f d) ∧ ∃ j, (j, t.fstep) ∈ accessing

/-- R198: `S_FAULT` is absorbing until reset: whoever acts, the block's registers stay, and at its own turn the block
changes nothing at all. -/
def Obligations.FaultStateIsAbsorbing : Prop :=
  ∀ s : State, s.pc = 31#5 →
    exec .sFault s = .next s ∧
    ∀ t, step s = .next t → (∀ landed rest, s.turns ≠ .reset landed :: rest) →
      SameRegisters t s ∧ t.pc = 31#5 ∧ t.done = s.done ∧ (∃ ws, t.cmds = s.cmds ++ ws) ∧
      (BlockActs s → t = { s with turns := s.turns.tail })

/-- Derived, after the spec's own derivation R199: what a fault of a `PWM.SET` leaves, by faulting step. -/
def Obligations.FaultLeavesTheTable : Prop :=
  ∀ (c : BitVec 2) (f : Word) (d : BitVec 7) (s t : State), s.par.AsPrinted → s.pc = 0#5 → f ≠ 0#32 → d.toNat ≤ 100 →
    exec (.pwmSet c f d) s = .next t → t.pc = 31#5 →
    t.done = false ∧
    (t.fstep.toNat ≤ 2 → ∀ a, t.mem.byte a = s.mem.byte a) ∧
    (2 < t.fstep.toNat → (t.reg .en).getLsbD c.toNat = false) ∧
    t.reg (.chan .con c) = (if t.fstep.toNat ≤ 8 then s.reg (.chan .con c)
      else controlWord s.par (timing s.par f).mode (timing s.par f).div) ∧
    t.reg (.chan .hdur c) = (if t.fstep.toNat ≤ 9 then s.reg (.chan .hdur c) else splitHigh (timing s.par f).dur d) ∧
    t.reg (.chan .ldur c) = (if t.fstep.toNat ≤ 10 then s.reg (.chan .ldur c) else splitLow (timing s.par f).dur d) ∧
    t.reg (.chan .gdur c) = (if t.fstep.toNat ≤ 11 then s.reg (.chan .gdur c) else 0#32) ∧
    t.reg (.chan .sd0 c) = (if t.fstep.toNat ≤ 12 then s.reg (.chan .sd0 c)
      else if t.fstep.toNat ≤ 16 then s.par.sendPattern
      else if d = 0#7 then 0x00000000#32 else if d = 100#7 then 0xFFFFFFFF#32 else s.par.sendPattern) ∧
    t.reg (.chan .sd1 c) = (if t.fstep.toNat ≤ 13 then s.reg (.chan .sd1 c)
      else if t.fstep.toNat ≤ 17 then s.par.sendPattern
      else if d = 0#7 then 0x00000000#32 else if d = 100#7 then 0xFFFFFFFF#32 else s.par.sendPattern) ∧
    t.reg (.chan .wavenum c) = (if t.fstep.toNat ≤ 14 then s.reg (.chan .wavenum c) else 0#32)

/-- Derived from R205: a silent Target holds the block at its step for ever, busy. That the Target's contents, the trace
and the coming answers stay as they are meanwhile is the model's (log 9). -/
def Obligations.SilentTargetHoldsTheBlock : Prop :=
  ∀ (i : Instr) (code : BitVec 5) (s : State), (i, code) ∈ accessing → s.pc = code → nextAnswer s = .silent →
    exec i s = .next s ∧ s.busy = true ∧ (s.par.legal = true → s.turns = [] → ∀ k, run k s = .next s)

/-- Derived from R220 and R221 (what an abandoned access still does is log 10, that inputs and parameters stay log
27): reset acts at any STEP and leaves the block idle with `DONE`, `BUSY` and `FAULT` 0; it issues no access; an
access in flight is abandoned and may or may not have been performed (U9). -/
def Obligations.ResetReturnsToIdle : Prop :=
  ∀ (s : State) (landed : Bool) (rest : List Turn), s.par.legal = true → s.turns = .reset landed :: rest →
    ∃ t, step s = .next t ∧ t.pc = 0#5 ∧ t.done = false ∧ t.busy = false ∧ t.faultFlag = false ∧
      t.turns = rest ∧ t.cmds = s.cmds ∧ t.par = s.par ∧
      (¬ Hung s → t.mem = s.mem ∧ t.trace = s.trace ∧ t.answers = s.answers) ∧
      (Hung s → t.answers = s.answers.tail ∧ (landed = false → t.mem = s.mem ∧ t.trace = s.trace) ∧
        ∀ q, requestAt s = some q → landed = true →
          (q.write = true → t.mem.word q.address = q.value ∧
            (∀ a, a < q.address.toNat ∨ q.address.toNat + 4 ≤ a → t.mem.byte a = s.mem.byte a) ∧
            t.trace = s.trace ++ [.wr q.address .four q.value, .rd q.address .four q.value]) ∧
          (q.write = false → t.mem = s.mem ∧
            t.trace = s.trace ++ [.rd q.address .four (s.mem.word q.address)]))

/-- Derived from R220 and R221 (the empty inputs are log 4 to log 6): the reset state's fixed values, and that it
waits for a command: nothing happens until an agent acts. -/
def Obligations.ResetWaitsForACommand : Prop :=
  State.reset.pc = 0#5 ∧ State.reset.done = false ∧ State.reset.busy = false ∧ State.reset.faultFlag = false ∧
  State.reset.trace = [] ∧ ∀ k, run k State.reset = .next State.reset

/-! ### Frames -/

/-- The micro-operations without an access write only the registers their rules name; memory, trace and inputs stay
(derived: R130, R133, R140 to R143, R167, R182, R198). -/
def Obligations.RegisterOnlyStepsFrame : Prop :=
  ∀ s t : State,
    (exec .accept s = .next t → t = { s with
      ch := t.ch, freq := t.freq, duty := t.duty, done := t.done, pc := t.pc, cmds := t.cmds }) ∧
    (exec .freqTest s = .next t → t = { s with pc := t.pc }) ∧
    (exec .divInit s = .next t → t = { s with clksel := t.clksel, div := t.div, dur := t.dur, pc := t.pc }) ∧
    (exec .divStep s = .next t → t = { s with div := t.div, dur := t.dur, pc := t.pc }) ∧
    (exec .fallback s = .next t → t = { s with clksel := t.clksel, div := t.div, dur := t.dur, pc := t.pc }) ∧
    (exec .split s = .next t → t = { s with durh := t.durh, durl := t.durl, pc := t.pc }) ∧
    (exec .dutyTest s = .next t → t = { s with pc := t.pc }) ∧
    (exec .finish s = .next t → t = { s with done := t.done, pc := t.pc }) ∧
    (exec .sFault s = .next t → t = s) ∧
    ∀ i ∈ [Instr.accept, .freqTest, .divInit, .divStep, .fallback, .split, .dutyTest, .finish, .sFault],
      exec i s = .next t → ∀ a, t.mem.byte a = s.mem.byte a

/-- The micro-operations with an access write STEP, `FSTEP` only when they fault, `ENTMP` only in the two reads, and of
memory only the four bytes at the address of the request they drive (derived: R131, R132, R160 to R166, R168, R169,
R180, R181, R190). -/
def Obligations.AccessingStepsFrame : Prop :=
  ∀ (i : Instr) (code : BitVec 5) (s t : State), (i, code) ∈ accessing → exec i s = .next t →
    t = { s with
      entmp := t.entmp, fstep := t.fstep, pc := t.pc, mem := t.mem, trace := t.trace, answers := t.answers } ∧
    (i ≠ .enRd1 → i ≠ .enRd2 → t.entmp = s.entmp) ∧
    (t.fstep = s.fstep ∨ t.fstep = code ∧ t.pc = 31#5) ∧
    ∃ q, requestOf s i = some q ∧
      ∀ a, q.write = false ∨ a < q.address.toNat ∨ q.address.toNat + 4 ≤ a → t.mem.byte a = s.mem.byte a

/-- A whole command writes, of memory, only Global Enable and, for `PWM.SET`, the seven registers of its own channel;
`PWM.OFF` writes no computed register; the parameters and the turns stay (derived: R7, R111, R112). -/
def Obligations.CommandsFrame : Prop :=
  ∀ (c : BitVec 2) (f : Word) (d : BitVec 7) (s t : State),
    (exec (.pwmOff c d) s = .next t →
      t = { s with
        ch := t.ch, freq := t.freq, duty := t.duty, entmp := t.entmp, fstep := t.fstep, pc := t.pc, done := t.done,
        mem := t.mem, trace := t.trace, cmds := t.cmds, answers := t.answers } ∧
      (t.fstep = s.fstep ∨ t.pc = 31#5) ∧
      ∀ a, a < (regAddr s.par .en).toNat ∨ (regAddr s.par .en).toNat + 4 ≤ a → t.mem.byte a = s.mem.byte a) ∧
    (exec (.pwmSet c f d) s = .next t →
      t.turns = s.turns ∧ t.par = s.par ∧ (t.fstep = s.fstep ∨ t.pc = 31#5) ∧
      ∀ a, (∀ r, (r = .en ∨ ∃ k, r = .chan k c) → a < (regAddr s.par r).toNat ∨ (regAddr s.par r).toNat + 4 ≤ a) →
        t.mem.byte a = s.mem.byte a)

/-- Derived from R26: `DONE` is set by `FINISH` only and cleared by `ACCEPT` only, a whole command being both. -/
def Obligations.DoneChangesOnlyAtFinishAndAccept : Prop :=
  ∀ (i : Instr) (s t : State), exec i s = .next t → t.done ≠ s.done →
    (i = .finish ∧ t.done = true) ∨ (i = .accept ∧ t.done = false) ∨ (∃ c d, i = .pwmOff c d) ∨
      ∃ c f d, i = .pwmSet c f d

/-! ### Memory and ordering -/

/-- Derived from R54, R59 and R64: read after write, little-endian bytes, every other byte unchanged, writes
idempotent; the canonical form is kept, and in it memories with the same written bytes are the same list (the form is
log 2). -/
def Obligations.TargetIsStorage : Prop :=
  ∀ (m : Memory) (a v : Word),
    (m.putWord a v).word a = v ∧
    (m.putWord a v).byte a.toNat = v.extractLsb' 0 8 ∧ (m.putWord a v).byte (a.toNat + 3) = v.extractLsb' 24 8 ∧
    (∀ c, c < a.toNat ∨ a.toNat + 4 ≤ c → (m.putWord a v).byte c = m.byte c) ∧
    (∀ c, ((m.putWord a v).putWord a v).byte c = (m.putWord a v).byte c) ∧
    (m.wf = true → (m.putWord a v).wf = true) ∧
    ∀ n : Memory, m.wf = true → n.wf = true → (∀ b, m.find b = n.find b) → m = n

/-- Derived from R55, R56, R58 and R60: what an instruction adds to the bus trace is 4-byte events at the 29 aligned
registers of the map, and nothing an instruction does is refused but a reserved command. -/
def Obligations.BusTrafficStaysOnTheMap : Prop :=
  (∀ (i : Instr) (s t : State), exec i s = .next t → ∃ evs : List Event, t.trace = s.trace ++ evs ∧
    ∀ e ∈ evs, ∃ (r : Reg) (v : Word), e = .wr (regAddr s.par r) .four v ∨ e = .rd (regAddr s.par r) .four v) ∧
  (∀ (p : Config.Params) (r : Reg), p.AsPrinted →
    (regAddr p r).toNat % 4 = 0 ∧ 0x10005000 ≤ (regAddr p r).toNat ∧ (regAddr p r).toNat + 3 ≤ 0x100050FB) ∧
  ∀ (i : Instr) (s : State) (why : Refusal), exec i s = .refused why → why = .reservedCommand

/-- R62: a change another master makes to `EN` between the read and the write of either read-modify-write is lost: the
write restores the word `x` that the read returned, whichever it was, but for the channel's bit. -/
def Obligations.UpdateBetweenReadAndWriteIsLost : Prop :=
  ∀ (s : State) (v x off on : Word), s.par.AsPrinted → s.par.legal = true →
    s.turns = [.block, .otherWrite 0x10005000#32 v, .block] →
    wordGiven (s.reg .en) (nextAnswer s) = some x →
    off = x &&& ~~~(1#32 <<< s.ch.toNat) → on = x ||| 1#32 <<< s.ch.toNat →
    (s.pc = 1#5 → (wordGiven off (s.answers.tail.headD .stored)).isSome = true →
      ∃ t, run 3 s = .next t ∧ t.pc = 3#5 ∧ t.reg .en = off) ∧
    (s.pc = 18#5 → (wordGiven on (s.answers.tail.headD .stored)).isSome = true →
      ∃ t, run 3 s = .next t ∧ t.pc = 20#5 ∧ t.reg .en = on)

/-! ### Invariants -/

/-- The reset state meets the invariant. -/
def Obligations.ResetMeetsTheInvariant : Prop := Inv State.reset

/-- Every step, of whichever agent, keeps the invariant. -/
def Obligations.InvariantIsKeptByEveryStep : Prop :=
  ∀ s t : State, Inv s → step s = .next t → Inv t

/-- Derived, after the spec's own derivation R27: the values registers hold from an earlier command never influence a
later one: two states idle and alike but for their registers, run side by side under any turns and answers, stay alike
in STEP, memory, trace and inputs. -/
def Obligations.EarlierValuesNeverMatter : Prop :=
  ∀ (k : Nat) (s t : State), s.pc = 0#5 → DifferOnlyInDeadRegisters s t →
    (∀ s', run k s = .next s' → ∃ t', run k t = .next t' ∧ DifferOnlyInDeadRegisters s' t') ∧
    (∀ why, run k s = .refused why → run k t = .refused why) ∧
    ∀ why, run k s = .fault why → run k t = .fault why

/-! ### The command surface -/

/-- Derived from R94, R95 and R193: fewer than two operands; two operands take duty 50; three deliver a word exactly when
all are decimal and in range; a good line delivers its word to the command port, as presenting it does, and a refused
line delivers nothing; how a command's end is reported, and the exit statuses. (That a delivered word goes behind those
that wait is log 6; the syntax of an operand, that a lone operand is never looked at, and the free value of the last
status are log 21.) -/
def Obligations.CommandSurfaceValidates : Prop :=
  (∀ p : Config.Params, p.AsPrinted →
    (∀ ops : List (List Char), ops.length < 2 → assemble p ops = .rejected .missingArguments) ∧
    (∀ c f : List Char, assemble p [c, f] = assemble p [c, f, ['5', '0']]) ∧
    (∀ (c f d : List Char) (nc nf nd : Nat),
      decimal c = some nc → decimal f = some nf → decimal d = some nd →
      (nc ≤ 3 → nf < 4294967296 → nd ≤ 100 →
        assemble p [c, f, d] = .command (BitVec.ofNat 41 (nd * 2 ^ 34 + nc * 2 ^ 32 + nf))) ∧
      (3 < nc ∨ 4294967296 ≤ nf ∨ 100 < nd → assemble p [c, f, d] = .rejected .badArgument)) ∧
    (∀ c f d : List Char, decimal c = none ∨ decimal f = none ∨ decimal d = none →
      assemble p [c, f, d] = .rejected .badArgument)) ∧
  (∀ (s : State) (ops : List (List Char)) (rest : List Turn) (w : BitVec 41) (why : LineError), s.par.legal = true →
    (s.turns = .line ops :: rest → assemble s.par ops = .command w →
      step s = .next { s with turns := rest, cmds := s.cmds ++ [w] }) ∧
    (s.turns = .present w :: rest → step s = .next { s with turns := rest, cmds := s.cmds ++ [w] }) ∧
    (s.turns = .line ops :: rest → assemble s.par ops = .rejected why → step s = .next { s with turns := rest })) ∧
  (∀ s : State, (s.pc = 31#5 → endingOf s = some .accessFault) ∧
    (s.pc ≠ 31#5 → endingOf s = (if s.done then some .success else none))) ∧
  exitStatus .success = some 0 ∧ exitStatus (.lineRejected .missingArguments) = some 2 ∧
  exitStatus (.lineRejected .badArgument) = some 1 ∧ ∃ n, n ≠ 0 ∧ exitStatus .accessFault = some n
end

