-- ==== Sys2Proof/Laws/Memory.lean ====
section
/-! SUPPORT. The laws of the Target's memory: read after write, frames, and that every write keeps the canonical form
and stays on the map. They hold of every list, sorted or not, but for the two about the form. -/

namespace Sys2Proof.Machine

open Sys2Proof.Safety

/-! ### One byte -/

theorem Memory.find_put_same (m : Memory) (a : Nat) (x : Byte) : (m.put a x).find a = some x := by
  induction m with
  | nil => simp [Memory.put, Memory.find]
  | cons c rest ih =>
    obtain ⟨b, y⟩ := c
    by_cases h₁ : a < b
    · simp [Memory.put, Memory.find, h₁]
    · by_cases h₂ : a = b
      · simp [Memory.put, Memory.find, h₂]
      · simp [Memory.put, Memory.find, h₁, h₂, ih]

theorem Memory.find_put_other (m : Memory) {a c : Nat} (x : Byte) (h : c ≠ a) : (m.put a x).find c = m.find c := by
  induction m with
  | nil => simp [Memory.put, Memory.find, h]
  | cons p rest ih =>
    obtain ⟨b, y⟩ := p
    by_cases h₁ : a < b
    · simp [Memory.put, Memory.find, h₁, h]
    · by_cases h₂ : a = b
      · subst h₂; simp [Memory.put, Memory.find, h]
      · simp [Memory.put, Memory.find, h₁, h₂, ih]

@[simp] theorem Memory.byte_put_same (m : Memory) (a : Nat) (x : Byte) : (m.put a x).byte a = x := by
  simp [Memory.byte, Memory.find_put_same]

theorem Memory.byte_put_other (m : Memory) {a c : Nat} (x : Byte) (h : c ≠ a) : (m.put a x).byte c = m.byte c := by
  simp [Memory.byte, Memory.find_put_other _ _ h]

/-! ### One word -/

/-- A word write leaves every byte outside its four alone. -/
theorem Memory.byte_putWord_outside (m : Memory) (a v : Word) {c : Nat} (h : c < a.toNat ∨ a.toNat + 4 ≤ c) :
    (m.putWord a v).byte c = m.byte c := by
  unfold Memory.putWord
  rw [Memory.byte_put_other _ _ (by omega), Memory.byte_put_other _ _ (by omega),
    Memory.byte_put_other _ _ (by omega), Memory.byte_put_other _ _ (by omega)]

theorem Memory.byte_putWord_0 (m : Memory) (a v : Word) : (m.putWord a v).byte a.toNat = v.extractLsb' 0 8 := by
  unfold Memory.putWord
  rw [Memory.byte_put_other _ _ (by omega), Memory.byte_put_other _ _ (by omega),
    Memory.byte_put_other _ _ (by omega), Memory.byte_put_same]

theorem Memory.byte_putWord_1 (m : Memory) (a v : Word) : (m.putWord a v).byte (a.toNat + 1) = v.extractLsb' 8 8 := by
  unfold Memory.putWord
  rw [Memory.byte_put_other _ _ (by omega), Memory.byte_put_other _ _ (by omega), Memory.byte_put_same]

theorem Memory.byte_putWord_2 (m : Memory) (a v : Word) : (m.putWord a v).byte (a.toNat + 2) = v.extractLsb' 16 8 := by
  unfold Memory.putWord
  rw [Memory.byte_put_other _ _ (by omega), Memory.byte_put_same]

theorem Memory.byte_putWord_3 (m : Memory) (a v : Word) : (m.putWord a v).byte (a.toNat + 3) = v.extractLsb' 24 8 := by
  unfold Memory.putWord
  rw [Memory.byte_put_same]

/-- The four bytes of a word, joined again. -/
theorem joinBytes (v : Word) :
    v.extractLsb' 24 8 ++ v.extractLsb' 16 8 ++ v.extractLsb' 8 8 ++ v.extractLsb' 0 8 = v := by
  ext i hi
  simp only [BitVec.getElem_append, BitVec.getElem_extractLsb']
  split
  · simp [BitVec.getLsbD_eq_getElem hi]
  · split
    · rw [show 8 + (i - 8) = i by omega, BitVec.getLsbD_eq_getElem hi]
    · split
      · rw [show 16 + (i - 8 - 8) = i by omega, BitVec.getLsbD_eq_getElem hi]
      · rw [show 24 + (i - 8 - 8 - 8) = i by omega, BitVec.getLsbD_eq_getElem hi]

/-- Read after write: the cell holds the word written (spec/20_memory.md R54). -/
@[simp] theorem Memory.word_putWord_same (m : Memory) (a v : Word) : (m.putWord a v).word a = v := by
  unfold Memory.word
  rw [Memory.byte_putWord_0, Memory.byte_putWord_1, Memory.byte_putWord_2, Memory.byte_putWord_3]
  exact joinBytes v

/-- A write leaves every word that does not overlap it alone. -/
theorem Memory.word_putWord_apart (m : Memory) (a v : Word) {c : Word}
    (h : c.toNat + 4 ≤ a.toNat ∨ a.toNat + 4 ≤ c.toNat) : (m.putWord a v).word c = m.word c := by
  unfold Memory.word
  rw [Memory.byte_putWord_outside _ _ _ (by omega), Memory.byte_putWord_outside _ _ _ (by omega),
    Memory.byte_putWord_outside _ _ _ (by omega), Memory.byte_putWord_outside _ _ _ (by omega)]

/-! ### Canonical form -/

theorem Memory.wf_tail {c : Host.Cell} {m : Memory} (h : Memory.wf (c :: m) = true) : m.wf = true := by
  cases m with
  | nil => rfl
  | cons d rest => simp only [Memory.wf, Bool.and_eq_true] at h; exact h.2

/-- The head of `put` is the new entry or the old head. -/
theorem Memory.wf_cons_put {b : Nat} {y : Byte} {m : Memory} {a : Nat} (x : Byte)
    (hm : Memory.wf ((b, y) :: m) = true) (hp : (m.put a x).wf = true) (hb : b < a) :
    Memory.wf ((b, y) :: m.put a x) = true := by
  cases m with
  | nil => simp [Memory.put, Memory.wf, hb]
  | cons c rest =>
    obtain ⟨d, z⟩ := c
    simp only [Memory.wf, Bool.and_eq_true, decide_eq_true_eq] at hm
    by_cases h₁ : a < d
    · simp only [Memory.put, h₁, if_true] at hp ⊢
      simp only [Memory.wf, Bool.and_eq_true, decide_eq_true_eq]
      exact ⟨hb, h₁, hm.2⟩
    · by_cases h₂ : a = d
      · simp only [Memory.put, h₂, if_true, lt_irrefl, if_false] at hp ⊢
        simp only [Memory.wf, Bool.and_eq_true, decide_eq_true_eq]
        exact ⟨hm.1, hp⟩
      · simp only [Memory.put, h₁, h₂, if_false] at hp ⊢
        simp only [Memory.wf, Bool.and_eq_true, decide_eq_true_eq]
        exact ⟨hm.1, hp⟩

/-- A byte write keeps the canonical form. -/
theorem Memory.wf_put {m : Memory} (h : m.wf = true) (a : Nat) (x : Byte) : (m.put a x).wf = true := by
  induction m with
  | nil => rfl
  | cons c rest ih =>
    obtain ⟨b, y⟩ := c
    have hr := ih (Memory.wf_tail h)
    by_cases h₁ : a < b
    · simp only [Memory.put, h₁, if_true, Memory.wf, decide_true, Bool.true_and]; exact h
    · by_cases h₂ : a = b
      · subst h₂
        simp only [Memory.put, lt_irrefl, if_false, if_true]
        cases rest with
        | nil => rfl
        | cons d tail => simpa only [Memory.wf] using h
      · simp only [Memory.put, h₁, h₂, if_false]
        exact Memory.wf_cons_put x h hr (by omega)

/-- A word write keeps the canonical form. -/
theorem Memory.wf_putWord {m : Memory} (h : m.wf = true) (a v : Word) : (m.putWord a v).wf = true :=
  Memory.wf_put (Memory.wf_put (Memory.wf_put (Memory.wf_put h _ _) _ _) _ _) _ _

theorem reset_mem_wf : State.reset.mem.wf = true := rfl

/-! ### On the map -/

/-- What `memOnMap` says of one address. -/
def cellOnMap (p : Config.Params) (a : Nat) : Bool :=
  (regOfAddr p (BitVec.ofNat 32 (a / 4 * 4))).isSome && decide (a < 2 ^ 32)

theorem memOnMap_put {p : Config.Params} {m : Memory} (h : memOnMap p m = true) {a : Nat} (x : Byte)
    (ha : cellOnMap p a = true) : memOnMap p (m.put a x) = true := by
  induction m with
  | nil => simpa [Memory.put, memOnMap, cellOnMap] using ha
  | cons c rest ih =>
    obtain ⟨b, y⟩ := c
    simp only [memOnMap, List.all_cons, Bool.and_eq_true] at h ih
    simp only [Memory.put]
    simp only [cellOnMap, Bool.and_eq_true] at ha
    split
    · simp only [memOnMap, List.all_cons, Bool.and_eq_true]; exact ⟨ha, h.1, h.2⟩
    · split
      · simp only [memOnMap, List.all_cons, Bool.and_eq_true]; exact ⟨ha, h.2⟩
      · simp only [memOnMap, List.all_cons, Bool.and_eq_true]; exact ⟨h.1, ih h.2⟩

end Sys2Proof.Machine
end

