-- ==== Sys2Proof/Laws/Params.lean ====
section
/-! SUPPORT. The parameters of spec/00_scope.md R8 as printed: one lemma per field, so that no later proof unfolds the
table. -/

namespace Sys2Proof.Config

theorem Params.AsPrinted.clkFastHz {p : Params} (h : p.AsPrinted) : p.clkFastHz = 40000000 := by rw [h]; rfl
theorem Params.AsPrinted.clkSlowHz {p : Params} (h : p.AsPrinted) : p.clkSlowHz = 100000 := by rw [h]; rfl
theorem Params.AsPrinted.maxDuration {p : Params} (h : p.AsPrinted) : p.maxDuration = 15000 := by rw [h]; rfl
theorem Params.AsPrinted.maxDiv {p : Params} (h : p.AsPrinted) : p.maxDiv = 7#3 := by rw [h]; rfl
theorem Params.AsPrinted.numChannels {p : Params} (h : p.AsPrinted) : p.numChannels = 4 := by rw [h]; rfl
theorem Params.AsPrinted.chStride {p : Params} (h : p.AsPrinted) : p.chStride = 0x40#32 := by rw [h]; rfl
theorem Params.AsPrinted.addrEn {p : Params} (h : p.AsPrinted) : p.addrEn = 0x10005000#32 := by rw [h]; rfl
theorem Params.AsPrinted.addrCon {p : Params} (h : p.AsPrinted) : p.addrCon = 0x10005010#32 := by rw [h]; rfl
theorem Params.AsPrinted.addrHdur {p : Params} (h : p.AsPrinted) : p.addrHdur = 0x10005014#32 := by rw [h]; rfl
theorem Params.AsPrinted.addrLdur {p : Params} (h : p.AsPrinted) : p.addrLdur = 0x10005018#32 := by rw [h]; rfl
theorem Params.AsPrinted.addrGdur {p : Params} (h : p.AsPrinted) : p.addrGdur = 0x1000501C#32 := by rw [h]; rfl
theorem Params.AsPrinted.addrSd0 {p : Params} (h : p.AsPrinted) : p.addrSd0 = 0x10005030#32 := by rw [h]; rfl
theorem Params.AsPrinted.addrSd1 {p : Params} (h : p.AsPrinted) : p.addrSd1 = 0x10005034#32 := by rw [h]; rfl
theorem Params.AsPrinted.addrWavenum {p : Params} (h : p.AsPrinted) : p.addrWavenum = 0x10005038#32 := by rw [h]; rfl
theorem Params.AsPrinted.conModeBits {p : Params} (h : p.AsPrinted) : p.conModeBits = 0x00000A00#32 := by rw [h]; rfl
theorem Params.AsPrinted.guardValue {p : Params} (h : p.AsPrinted) : p.guardValue = 0#32 := by rw [h]; rfl
theorem Params.AsPrinted.wavenumValue {p : Params} (h : p.AsPrinted) : p.wavenumValue = 0#32 := by rw [h]; rfl
theorem Params.AsPrinted.defaultDuty {p : Params} (h : p.AsPrinted) : p.defaultDuty = 50 := by rw [h]; rfl
theorem Params.AsPrinted.sendAllZero {p : Params} (h : p.AsPrinted) : p.sendAllZero = 0x00000000#32 := by rw [h]; rfl
theorem Params.AsPrinted.sendAllOne {p : Params} (h : p.AsPrinted) : p.sendAllOne = 0xFFFFFFFF#32 := by rw [h]; rfl

/-- The defaults are the printed table. -/
theorem Params.default_asPrinted : Params.default.AsPrinted := rfl

/-- Any two values of the OPEN parameters stand in a printed table. -/
theorem Params.printed_asPrinted (fastBit sendPattern : Word) : (Params.printed fastBit sendPattern).AsPrinted := rfl

end Sys2Proof.Config
end

