-- ==== Sys2Proof/Laws/Encoding.lean ====
section
/-! SUPPORT. Laws of the encodings: the register map read both ways, its alignment, and the fields of a CMD word. -/

namespace Sys2Proof

/-- A property of the 29 registers holds of all when it holds of each. -/
theorem Reg.forall_of {P : Reg → Prop} (hen : P .en) (hch : ∀ c : BitVec 2, ∀ k, P (.chan k c)) : ∀ r, P r
  | .en => hen
  | .chan k c => hch c k

/-- A two-bit value is one of four. -/
theorem channel_cases (c : BitVec 2) : c = 0#2 ∨ c = 1#2 ∨ c = 2#2 ∨ c = 3#2 := by
  revert c; decide

/-- Every register is one of the 29 (spec/10_state.md R28). -/
theorem mem_allRegs (r : Reg) : r ∈ allRegs := by
  revert r
  apply Reg.forall_of
  · decide
  · intro c k
    rcases channel_cases c with rfl | rfl | rfl | rfl <;> cases k <;> decide

/-- The address of a register is on the map, whatever the parameters. -/
@[simp] theorem regOfAddr_regAddr_isNone (p : Config.Params) (r : Reg) : (regOfAddr p (regAddr p r)).isNone = false :=
  by
  rw [Option.isNone_eq_false_iff, regOfAddr, List.find?_isSome]
  exact ⟨r, mem_allRegs r, beq_self_eq_true _⟩

/-- What an address names stands at that address. -/
theorem regAddr_of_regOfAddr {p : Config.Params} {a : Word} {r : Reg} (h : regOfAddr p a = some r) :
    regAddr p r = a := by
  simpa using List.find?_some h

/-- An access to a register of 4 bytes has a meaning (spec/20_memory.md R54). -/
@[simp] theorem requestRefusal_readReq (p : Config.Params) (r : Reg) :
    Machine.requestRefusal p (Machine.readReq p r) = none := by
  simp [Machine.requestRefusal, Machine.readReq]

@[simp] theorem requestRefusal_writeReq (p : Config.Params) (r : Reg) (v : Word) :
    Machine.requestRefusal p (Machine.writeReq p r v) = none := by
  simp [Machine.requestRefusal, Machine.writeReq]

/-! ### The map as printed -/

section Printed

variable {p : Config.Params} (hp : p.AsPrinted)
include hp

/-- The addresses as the spec prints them (spec/20_memory.md R57, spec/30_encoding.md R85). -/
theorem regAddr_en : regAddr p .en = 0x10005000#32 := hp.addrEn

theorem regAddr_chan (k : ChanReg) (c : BitVec 2) :
    regAddr p (.chan k c) = chanBase p k + 0x40#32 * c.setWidth 32 := by
  rw [regAddr, chOff, hp.chStride]

/-- The OPEN parameters place no register. -/
theorem regAddr_eq_default (r : Reg) : regAddr p r = regAddr Config.Params.default r := by
  rw [hp]
  cases r with
  | en => rfl
  | chan k c => cases k <;> rfl

theorem regOfAddr_eq_default (a : Word) : regOfAddr p a = regOfAddr Config.Params.default a := by
  unfold regOfAddr
  exact congrArg (fun q => allRegs.find? q) (funext fun r => by rw [regAddr_eq_default hp])

/-- With the printed bases the map inverts the address assembly (spec/30_encoding.md R85, R97). -/
theorem regOfAddr_regAddr (r : Reg) : regOfAddr p (regAddr p r) = some r := by
  rw [regOfAddr_eq_default hp, regAddr_eq_default hp]
  revert r
  apply Reg.forall_of
  · decide
  · intro c k
    rcases channel_cases c with rfl | rfl | rfl | rfl <;> cases k <;> decide

theorem regAddr_injective {r q : Reg} (h : regAddr p r = regAddr p q) : r = q := by
  have := congrArg (regOfAddr p) h
  simpa [regOfAddr_regAddr hp] using this

/-- Every register stands at a multiple of 4 between `0x10005000` and `0x100050F8` (spec/20_memory.md R56, R60). -/
theorem regAddr_range (r : Reg) :
    (regAddr p r).toNat % 4 = 0 ∧ 0x10005000 ≤ (regAddr p r).toNat ∧ (regAddr p r).toNat ≤ 0x100050F8 := by
  rw [regAddr_eq_default hp]
  revert r
  apply Reg.forall_of
  · decide
  · intro c k
    rcases channel_cases c with rfl | rfl | rfl | rfl <;> cases k <;> decide

/-- Two different registers do not overlap. -/
theorem regAddr_apart {r q : Reg} (h : r ≠ q) :
    (regAddr p r).toNat + 4 ≤ (regAddr p q).toNat ∨ (regAddr p q).toNat + 4 ≤ (regAddr p r).toNat := by
  have hr := regAddr_range hp r
  have hq := regAddr_range hp q
  have hne : (regAddr p r).toNat ≠ (regAddr p q).toNat := fun e =>
    h (regAddr_injective hp (BitVec.eq_of_toNat_eq e))
  omega

end Printed

/-- The bits of a CMD word, field by field (spec/30_encoding.md R81). -/
theorem cmdWord_getLsbD (c : BitVec 2) (f : Word) (d : BitVec 7) (i : Nat) :
    (cmdWord c f d).getLsbD i =
      if i < 32 then f.getLsbD i else if i < 34 then c.getLsbD (i - 32) else d.getLsbD (i - 34) := by
  have h : (cmdWord c f d).getLsbD i = BitVec.getLsbD (w := 7 + 2 + 32) (d ++ c ++ f) i := rfl
  rw [h, BitVec.getLsbD_append, BitVec.getLsbD_append]
  by_cases h₁ : i < 32
  · simp [h₁]
  · by_cases h₂ : i < 34
    · simp [h₁, h₂, show i - 32 < 2 by omega]
    · simp [h₁, h₂, show ¬ i - 32 < 2 by omega, show i - 32 - 2 = i - 34 by omega]

@[simp] theorem cmdFrequency_cmdWord (c : BitVec 2) (f : Word) (d : BitVec 7) : cmdFrequency (cmdWord c f d) = f := by
  unfold cmdFrequency
  ext i hi
  simp [cmdWord_getLsbD, hi]

@[simp] theorem cmdChannel_cmdWord (c : BitVec 2) (f : Word) (d : BitVec 7) : cmdChannel (cmdWord c f d) = c := by
  unfold cmdChannel
  ext i hi
  simp [cmdWord_getLsbD, show 32 + i < 34 by omega, BitVec.getLsbD_eq_getElem hi]

@[simp] theorem cmdDuty_cmdWord (c : BitVec 2) (f : Word) (d : BitVec 7) : cmdDuty (cmdWord c f d) = d := by
  unfold cmdDuty
  ext i hi
  simp [cmdWord_getLsbD, show ¬ 34 + i < 32 by omega, BitVec.getLsbD_eq_getElem hi]

/-- A CMD word is its fields (spec/30_encoding.md R81). -/
@[simp] theorem cmdWord_fields (w : BitVec 41) : cmdWord (cmdChannel w) (cmdFrequency w) (cmdDuty w) = w := by
  apply BitVec.eq_of_getLsbD_eq
  intro i hi
  rw [cmdWord_getLsbD]
  unfold cmdFrequency cmdChannel cmdDuty
  by_cases h₁ : i < 32
  · simp [h₁]
  · by_cases h₂ : i < 34
    · simp [h₁, h₂, show i - 32 < 2 by omega, show 32 + (i - 32) = i by omega]
    · simp [h₁, h₂, show i - 34 < 7 by omega, show 34 + (i - 34) = i by omega]

/-- The command of a word, by its fields (spec/30_encoding.md R89, R90). -/
theorem decodeCmd_cmdWord (c : BitVec 2) (f : Word) (d : BitVec 7) :
    decodeCmd (cmdWord c f d) =
      if f = 0#32 then .pwmOff c d else if d.toNat ≤ 100 then .pwmSet c f d else .reserved c f d := by
  simp [decodeCmd, Config.maxDuty]

/-- What the decoder reads from a STEP code, by code. -/
theorem decodeStep_codeWord {c : BitVec 5} {i : Instr} (h : decodeStep c = some i) : codeWord i = .step c := by
  revert c i
  decide +revert

namespace Machine

open Sys2Proof.Safety

/-- The four bytes of a register are on the map. -/
theorem cellOnMap_regAddr {p : Config.Params} (hp : p.AsPrinted) (r : Reg) (k : Nat) (hk : k < 4) :
    cellOnMap p ((regAddr p r).toNat + k) = true := by
  have hr := regAddr_range hp r
  have hdiv : ((regAddr p r).toNat + k) / 4 * 4 = (regAddr p r).toNat := by omega
  simp only [cellOnMap, hdiv, BitVec.ofNat_toNat, BitVec.setWidth_eq, regOfAddr_regAddr hp, Option.isSome_some,
    Bool.true_and, decide_eq_true_eq]
  omega

/-- A write to a register keeps the memory on the map (spec/20_memory.md R58). -/
theorem memOnMap_putWord {p : Config.Params} (hp : p.AsPrinted) {m : Memory} (h : memOnMap p m = true) (r : Reg)
    (v : Word) : memOnMap p (m.putWord (regAddr p r) v) = true :=
  memOnMap_put (memOnMap_put (memOnMap_put (memOnMap_put h _ (cellOnMap_regAddr hp r 0 (by omega))) _
    (cellOnMap_regAddr hp r 1 (by omega))) _ (cellOnMap_regAddr hp r 2 (by omega))) _
    (cellOnMap_regAddr hp r 3 (by omega))

/-- A list of register writes keeps the canonical form. -/
theorem Memory.wf_putRegs (p : Config.Params) (ws : List (Reg × Word)) {m : Memory} (h : m.wf = true) :
    (Memory.putRegs p m ws).wf = true := by
  induction ws generalizing m with
  | nil => exact h
  | cons w rest ih => exact ih (Memory.wf_putWord h _ _)

/-- A list of register writes keeps the memory on the map. -/
theorem memOnMap_putRegs {p : Config.Params} (hp : p.AsPrinted) (ws : List (Reg × Word)) {m : Memory}
    (h : memOnMap p m = true) : memOnMap p (Memory.putRegs p m ws) = true := by
  induction ws generalizing m with
  | nil => exact h
  | cons w rest ih => exact ih (memOnMap_putWord hp h _ _)

end Machine

end Sys2Proof
end

