-- ==== Sys2Proof/Laws/State.lean ====
section
/-! SUPPORT. One lemma per field per update of State, true by rfl, so that no proof unfolds a record update. -/

namespace Sys2Proof.Machine

open Sys2Proof.Safety

/-! ### targetWrite -/

@[simp] theorem targetWrite_ch (a v : Word) (s : State) : (targetWrite a v s).ch = s.ch := rfl
@[simp] theorem targetWrite_freq (a v : Word) (s : State) : (targetWrite a v s).freq = s.freq := rfl
@[simp] theorem targetWrite_duty (a v : Word) (s : State) : (targetWrite a v s).duty = s.duty := rfl
@[simp] theorem targetWrite_clksel (a v : Word) (s : State) : (targetWrite a v s).clksel = s.clksel := rfl
@[simp] theorem targetWrite_div (a v : Word) (s : State) : (targetWrite a v s).div = s.div := rfl
@[simp] theorem targetWrite_dur (a v : Word) (s : State) : (targetWrite a v s).dur = s.dur := rfl
@[simp] theorem targetWrite_durh (a v : Word) (s : State) : (targetWrite a v s).durh = s.durh := rfl
@[simp] theorem targetWrite_durl (a v : Word) (s : State) : (targetWrite a v s).durl = s.durl := rfl
@[simp] theorem targetWrite_entmp (a v : Word) (s : State) : (targetWrite a v s).entmp = s.entmp := rfl
@[simp] theorem targetWrite_fstep (a v : Word) (s : State) : (targetWrite a v s).fstep = s.fstep := rfl
@[simp] theorem targetWrite_pc (a v : Word) (s : State) : (targetWrite a v s).pc = s.pc := rfl
@[simp] theorem targetWrite_done (a v : Word) (s : State) : (targetWrite a v s).done = s.done := rfl
@[simp] theorem targetWrite_mem (a v : Word) (s : State) : (targetWrite a v s).mem = s.mem.putWord a v := rfl
@[simp] theorem targetWrite_trace (a v : Word) (s : State) : (targetWrite a v s).trace = s.trace ++ [.wr a .four v] :=
  rfl
@[simp] theorem targetWrite_cmds (a v : Word) (s : State) : (targetWrite a v s).cmds = s.cmds := rfl
@[simp] theorem targetWrite_answers (a v : Word) (s : State) : (targetWrite a v s).answers = s.answers := rfl
@[simp] theorem targetWrite_turns (a v : Word) (s : State) : (targetWrite a v s).turns = s.turns := rfl
@[simp] theorem targetWrite_par (a v : Word) (s : State) : (targetWrite a v s).par = s.par := rfl

/-! ### targetRead -/

@[simp] theorem targetRead_ch (a r : Word) (s : State) : (targetRead a r s).ch = s.ch := rfl
@[simp] theorem targetRead_freq (a r : Word) (s : State) : (targetRead a r s).freq = s.freq := rfl
@[simp] theorem targetRead_duty (a r : Word) (s : State) : (targetRead a r s).duty = s.duty := rfl
@[simp] theorem targetRead_clksel (a r : Word) (s : State) : (targetRead a r s).clksel = s.clksel := rfl
@[simp] theorem targetRead_div (a r : Word) (s : State) : (targetRead a r s).div = s.div := rfl
@[simp] theorem targetRead_dur (a r : Word) (s : State) : (targetRead a r s).dur = s.dur := rfl
@[simp] theorem targetRead_durh (a r : Word) (s : State) : (targetRead a r s).durh = s.durh := rfl
@[simp] theorem targetRead_durl (a r : Word) (s : State) : (targetRead a r s).durl = s.durl := rfl
@[simp] theorem targetRead_entmp (a r : Word) (s : State) : (targetRead a r s).entmp = s.entmp := rfl
@[simp] theorem targetRead_fstep (a r : Word) (s : State) : (targetRead a r s).fstep = s.fstep := rfl
@[simp] theorem targetRead_pc (a r : Word) (s : State) : (targetRead a r s).pc = s.pc := rfl
@[simp] theorem targetRead_done (a r : Word) (s : State) : (targetRead a r s).done = s.done := rfl
@[simp] theorem targetRead_mem (a r : Word) (s : State) : (targetRead a r s).mem = s.mem := rfl
@[simp] theorem targetRead_trace (a r : Word) (s : State) : (targetRead a r s).trace = s.trace ++ [.rd a .four r] := rfl
@[simp] theorem targetRead_cmds (a r : Word) (s : State) : (targetRead a r s).cmds = s.cmds := rfl
@[simp] theorem targetRead_answers (a r : Word) (s : State) : (targetRead a r s).answers = s.answers := rfl
@[simp] theorem targetRead_turns (a r : Word) (s : State) : (targetRead a r s).turns = s.turns := rfl
@[simp] theorem targetRead_par (a r : Word) (s : State) : (targetRead a r s).par = s.par := rfl

/-! ### raiseAccessFault -/

@[simp] theorem raiseAccessFault_ch (k : BitVec 5) (s : State) : (raiseAccessFault k s).ch = s.ch := rfl
@[simp] theorem raiseAccessFault_freq (k : BitVec 5) (s : State) : (raiseAccessFault k s).freq = s.freq := rfl
@[simp] theorem raiseAccessFault_duty (k : BitVec 5) (s : State) : (raiseAccessFault k s).duty = s.duty := rfl
@[simp] theorem raiseAccessFault_clksel (k : BitVec 5) (s : State) : (raiseAccessFault k s).clksel = s.clksel := rfl
@[simp] theorem raiseAccessFault_div (k : BitVec 5) (s : State) : (raiseAccessFault k s).div = s.div := rfl
@[simp] theorem raiseAccessFault_dur (k : BitVec 5) (s : State) : (raiseAccessFault k s).dur = s.dur := rfl
@[simp] theorem raiseAccessFault_durh (k : BitVec 5) (s : State) : (raiseAccessFault k s).durh = s.durh := rfl
@[simp] theorem raiseAccessFault_durl (k : BitVec 5) (s : State) : (raiseAccessFault k s).durl = s.durl := rfl
@[simp] theorem raiseAccessFault_entmp (k : BitVec 5) (s : State) : (raiseAccessFault k s).entmp = s.entmp := rfl
@[simp] theorem raiseAccessFault_fstep (k : BitVec 5) (s : State) : (raiseAccessFault k s).fstep = k := rfl
@[simp] theorem raiseAccessFault_pc (k : BitVec 5) (s : State) : (raiseAccessFault k s).pc = sFaultCode := rfl
@[simp] theorem raiseAccessFault_done (k : BitVec 5) (s : State) : (raiseAccessFault k s).done = s.done := rfl
@[simp] theorem raiseAccessFault_mem (k : BitVec 5) (s : State) : (raiseAccessFault k s).mem = s.mem := rfl
@[simp] theorem raiseAccessFault_trace (k : BitVec 5) (s : State) : (raiseAccessFault k s).trace = s.trace := rfl
@[simp] theorem raiseAccessFault_cmds (k : BitVec 5) (s : State) : (raiseAccessFault k s).cmds = s.cmds := rfl
@[simp] theorem raiseAccessFault_answers (k : BitVec 5) (s : State) : (raiseAccessFault k s).answers = s.answers := rfl
@[simp] theorem raiseAccessFault_turns (k : BitVec 5) (s : State) : (raiseAccessFault k s).turns = s.turns := rfl
@[simp] theorem raiseAccessFault_par (k : BitVec 5) (s : State) : (raiseAccessFault k s).par = s.par := rfl

/-! ### latch -/

@[simp] theorem latch_ch (c : BitVec 2) (f : Word) (d : BitVec 7) (s : State) : (latch c f d s).ch = c := rfl
@[simp] theorem latch_freq (c : BitVec 2) (f : Word) (d : BitVec 7) (s : State) : (latch c f d s).freq = f := rfl
@[simp] theorem latch_duty (c : BitVec 2) (f : Word) (d : BitVec 7) (s : State) : (latch c f d s).duty = d := rfl
@[simp] theorem latch_clksel (c : BitVec 2) (f : Word) (d : BitVec 7) (s : State) :
  (latch c f d s).clksel = s.clksel := rfl
@[simp] theorem latch_div (c : BitVec 2) (f : Word) (d : BitVec 7) (s : State) : (latch c f d s).div = s.div := rfl
@[simp] theorem latch_dur (c : BitVec 2) (f : Word) (d : BitVec 7) (s : State) : (latch c f d s).dur = s.dur := rfl
@[simp] theorem latch_durh (c : BitVec 2) (f : Word) (d : BitVec 7) (s : State) : (latch c f d s).durh = s.durh := rfl
@[simp] theorem latch_durl (c : BitVec 2) (f : Word) (d : BitVec 7) (s : State) : (latch c f d s).durl = s.durl := rfl
@[simp] theorem latch_entmp (c : BitVec 2) (f : Word) (d : BitVec 7) (s : State) : (latch c f d s).entmp = s.entmp :=
  rfl
@[simp] theorem latch_fstep (c : BitVec 2) (f : Word) (d : BitVec 7) (s : State) : (latch c f d s).fstep = s.fstep :=
  rfl
@[simp] theorem latch_pc (c : BitVec 2) (f : Word) (d : BitVec 7) (s : State) : (latch c f d s).pc = sEnRd1 := rfl
@[simp] theorem latch_done (c : BitVec 2) (f : Word) (d : BitVec 7) (s : State) : (latch c f d s).done = false := rfl
@[simp] theorem latch_mem (c : BitVec 2) (f : Word) (d : BitVec 7) (s : State) : (latch c f d s).mem = s.mem := rfl
@[simp] theorem latch_trace (c : BitVec 2) (f : Word) (d : BitVec 7) (s : State) : (latch c f d s).trace = s.trace :=
  rfl
@[simp] theorem latch_cmds (c : BitVec 2) (f : Word) (d : BitVec 7) (s : State) : (latch c f d s).cmds = s.cmds := rfl
@[simp] theorem latch_answers (c : BitVec 2) (f : Word) (d : BitVec 7) (s : State) :
  (latch c f d s).answers = s.answers := rfl
@[simp] theorem latch_turns (c : BitVec 2) (f : Word) (d : BitVec 7) (s : State) : (latch c f d s).turns = s.turns :=
  rfl
@[simp] theorem latch_par (c : BitVec 2) (f : Word) (d : BitVec 7) (s : State) : (latch c f d s).par = s.par := rfl

/-! ### finished -/

@[simp] theorem finished_ch (s : State) : (finished s).ch = s.ch := rfl
@[simp] theorem finished_freq (s : State) : (finished s).freq = s.freq := rfl
@[simp] theorem finished_duty (s : State) : (finished s).duty = s.duty := rfl
@[simp] theorem finished_clksel (s : State) : (finished s).clksel = s.clksel := rfl
@[simp] theorem finished_div (s : State) : (finished s).div = s.div := rfl
@[simp] theorem finished_dur (s : State) : (finished s).dur = s.dur := rfl
@[simp] theorem finished_durh (s : State) : (finished s).durh = s.durh := rfl
@[simp] theorem finished_durl (s : State) : (finished s).durl = s.durl := rfl
@[simp] theorem finished_entmp (s : State) : (finished s).entmp = s.entmp := rfl
@[simp] theorem finished_fstep (s : State) : (finished s).fstep = s.fstep := rfl
@[simp] theorem finished_pc (s : State) : (finished s).pc = sIdle := rfl
@[simp] theorem finished_done (s : State) : (finished s).done = true := rfl
@[simp] theorem finished_mem (s : State) : (finished s).mem = s.mem := rfl
@[simp] theorem finished_trace (s : State) : (finished s).trace = s.trace := rfl
@[simp] theorem finished_cmds (s : State) : (finished s).cmds = s.cmds := rfl
@[simp] theorem finished_answers (s : State) : (finished s).answers = s.answers := rfl
@[simp] theorem finished_turns (s : State) : (finished s).turns = s.turns := rfl
@[simp] theorem finished_par (s : State) : (finished s).par = s.par := rfl

/-! ### waits -/

@[simp] theorem waits_ch (w : BitVec 41) (s : State) : (waits w s).ch = s.ch := rfl
@[simp] theorem waits_freq (w : BitVec 41) (s : State) : (waits w s).freq = s.freq := rfl
@[simp] theorem waits_duty (w : BitVec 41) (s : State) : (waits w s).duty = s.duty := rfl
@[simp] theorem waits_clksel (w : BitVec 41) (s : State) : (waits w s).clksel = s.clksel := rfl
@[simp] theorem waits_div (w : BitVec 41) (s : State) : (waits w s).div = s.div := rfl
@[simp] theorem waits_dur (w : BitVec 41) (s : State) : (waits w s).dur = s.dur := rfl
@[simp] theorem waits_durh (w : BitVec 41) (s : State) : (waits w s).durh = s.durh := rfl
@[simp] theorem waits_durl (w : BitVec 41) (s : State) : (waits w s).durl = s.durl := rfl
@[simp] theorem waits_entmp (w : BitVec 41) (s : State) : (waits w s).entmp = s.entmp := rfl
@[simp] theorem waits_fstep (w : BitVec 41) (s : State) : (waits w s).fstep = s.fstep := rfl
@[simp] theorem waits_pc (w : BitVec 41) (s : State) : (waits w s).pc = s.pc := rfl
@[simp] theorem waits_done (w : BitVec 41) (s : State) : (waits w s).done = s.done := rfl
@[simp] theorem waits_mem (w : BitVec 41) (s : State) : (waits w s).mem = s.mem := rfl
@[simp] theorem waits_trace (w : BitVec 41) (s : State) : (waits w s).trace = s.trace := rfl
@[simp] theorem waits_cmds (w : BitVec 41) (s : State) : (waits w s).cmds = s.cmds ++ [w] := rfl
@[simp] theorem waits_answers (w : BitVec 41) (s : State) : (waits w s).answers = s.answers := rfl
@[simp] theorem waits_turns (w : BitVec 41) (s : State) : (waits w s).turns = s.turns := rfl
@[simp] theorem waits_par (w : BitVec 41) (s : State) : (waits w s).par = s.par := rfl

/-! ### resetBlock -/

@[simp] theorem resetBlock_ch (s : State) : (resetBlock s).ch = 0#2 := rfl
@[simp] theorem resetBlock_freq (s : State) : (resetBlock s).freq = 0#32 := rfl
@[simp] theorem resetBlock_duty (s : State) : (resetBlock s).duty = 0#7 := rfl
@[simp] theorem resetBlock_clksel (s : State) : (resetBlock s).clksel = .slow := rfl
@[simp] theorem resetBlock_div (s : State) : (resetBlock s).div = 0#3 := rfl
@[simp] theorem resetBlock_dur (s : State) : (resetBlock s).dur = 0#32 := rfl
@[simp] theorem resetBlock_durh (s : State) : (resetBlock s).durh = 0#32 := rfl
@[simp] theorem resetBlock_durl (s : State) : (resetBlock s).durl = 0#32 := rfl
@[simp] theorem resetBlock_entmp (s : State) : (resetBlock s).entmp = 0#32 := rfl
@[simp] theorem resetBlock_fstep (s : State) : (resetBlock s).fstep = 0#5 := rfl
@[simp] theorem resetBlock_pc (s : State) : (resetBlock s).pc = sIdle := rfl
@[simp] theorem resetBlock_done (s : State) : (resetBlock s).done = false := rfl
@[simp] theorem resetBlock_mem (s : State) : (resetBlock s).mem = s.mem := rfl
@[simp] theorem resetBlock_trace (s : State) : (resetBlock s).trace = s.trace := rfl
@[simp] theorem resetBlock_cmds (s : State) : (resetBlock s).cmds = s.cmds := rfl
@[simp] theorem resetBlock_answers (s : State) : (resetBlock s).answers = s.answers := rfl
@[simp] theorem resetBlock_turns (s : State) : (resetBlock s).turns = s.turns := rfl
@[simp] theorem resetBlock_par (s : State) : (resetBlock s).par = s.par := rfl

/-! ### compute -/

@[simp] theorem compute_ch (s : State) : (compute s).ch = s.ch := rfl
@[simp] theorem compute_freq (s : State) : (compute s).freq = s.freq := rfl
@[simp] theorem compute_duty (s : State) : (compute s).duty = s.duty := rfl
@[simp] theorem compute_clksel (s : State) : (compute s).clksel = (timing s.par s.freq).mode := rfl
@[simp] theorem compute_div (s : State) : (compute s).div = (timing s.par s.freq).div := rfl
@[simp] theorem compute_dur (s : State) : (compute s).dur = (timing s.par s.freq).dur := rfl
@[simp] theorem compute_durh (s : State) : (compute s).durh = splitHigh (timing s.par s.freq).dur s.duty := rfl
@[simp] theorem compute_durl (s : State) : (compute s).durl = splitLow (timing s.par s.freq).dur s.duty := rfl
@[simp] theorem compute_entmp (s : State) : (compute s).entmp = s.entmp := rfl
@[simp] theorem compute_fstep (s : State) : (compute s).fstep = s.fstep := rfl
@[simp] theorem compute_pc (s : State) : (compute s).pc = s.pc := rfl
@[simp] theorem compute_done (s : State) : (compute s).done = s.done := rfl
@[simp] theorem compute_mem (s : State) : (compute s).mem = s.mem := rfl
@[simp] theorem compute_trace (s : State) : (compute s).trace = s.trace := rfl
@[simp] theorem compute_cmds (s : State) : (compute s).cmds = s.cmds := rfl
@[simp] theorem compute_answers (s : State) : (compute s).answers = s.answers := rfl
@[simp] theorem compute_turns (s : State) : (compute s).turns = s.turns := rfl
@[simp] theorem compute_par (s : State) : (compute s).par = s.par := rfl

/-! ### afterRead -/

@[simp] theorem afterRead_ch (a x : Word) (s : State) : (afterRead a x s).ch = s.ch := rfl
@[simp] theorem afterRead_freq (a x : Word) (s : State) : (afterRead a x s).freq = s.freq := rfl
@[simp] theorem afterRead_duty (a x : Word) (s : State) : (afterRead a x s).duty = s.duty := rfl
@[simp] theorem afterRead_clksel (a x : Word) (s : State) : (afterRead a x s).clksel = s.clksel := rfl
@[simp] theorem afterRead_div (a x : Word) (s : State) : (afterRead a x s).div = s.div := rfl
@[simp] theorem afterRead_dur (a x : Word) (s : State) : (afterRead a x s).dur = s.dur := rfl
@[simp] theorem afterRead_durh (a x : Word) (s : State) : (afterRead a x s).durh = s.durh := rfl
@[simp] theorem afterRead_durl (a x : Word) (s : State) : (afterRead a x s).durl = s.durl := rfl
@[simp] theorem afterRead_entmp (a x : Word) (s : State) : (afterRead a x s).entmp = s.entmp := rfl
@[simp] theorem afterRead_fstep (a x : Word) (s : State) : (afterRead a x s).fstep = s.fstep := rfl
@[simp] theorem afterRead_pc (a x : Word) (s : State) : (afterRead a x s).pc = s.pc := rfl
@[simp] theorem afterRead_done (a x : Word) (s : State) : (afterRead a x s).done = s.done := rfl
@[simp] theorem afterRead_mem (a x : Word) (s : State) : (afterRead a x s).mem = s.mem := rfl
@[simp] theorem afterRead_trace (a x : Word) (s : State) : (afterRead a x s).trace = s.trace ++ [.rd a .four x] := rfl
@[simp] theorem afterRead_cmds (a x : Word) (s : State) : (afterRead a x s).cmds = s.cmds := rfl
@[simp] theorem afterRead_answers (a x : Word) (s : State) : (afterRead a x s).answers = s.answers.tail := rfl
@[simp] theorem afterRead_turns (a x : Word) (s : State) : (afterRead a x s).turns = s.turns := rfl
@[simp] theorem afterRead_par (a x : Word) (s : State) : (afterRead a x s).par = s.par := rfl

/-! ### afterWrite -/

@[simp] theorem afterWrite_ch (a v x : Word) (s : State) : (afterWrite a v x s).ch = s.ch := rfl
@[simp] theorem afterWrite_freq (a v x : Word) (s : State) : (afterWrite a v x s).freq = s.freq := rfl
@[simp] theorem afterWrite_duty (a v x : Word) (s : State) : (afterWrite a v x s).duty = s.duty := rfl
@[simp] theorem afterWrite_clksel (a v x : Word) (s : State) : (afterWrite a v x s).clksel = s.clksel := rfl
@[simp] theorem afterWrite_div (a v x : Word) (s : State) : (afterWrite a v x s).div = s.div := rfl
@[simp] theorem afterWrite_dur (a v x : Word) (s : State) : (afterWrite a v x s).dur = s.dur := rfl
@[simp] theorem afterWrite_durh (a v x : Word) (s : State) : (afterWrite a v x s).durh = s.durh := rfl
@[simp] theorem afterWrite_durl (a v x : Word) (s : State) : (afterWrite a v x s).durl = s.durl := rfl
@[simp] theorem afterWrite_entmp (a v x : Word) (s : State) : (afterWrite a v x s).entmp = s.entmp := rfl
@[simp] theorem afterWrite_fstep (a v x : Word) (s : State) : (afterWrite a v x s).fstep = s.fstep := rfl
@[simp] theorem afterWrite_pc (a v x : Word) (s : State) : (afterWrite a v x s).pc = s.pc := rfl
@[simp] theorem afterWrite_done (a v x : Word) (s : State) : (afterWrite a v x s).done = s.done := rfl
@[simp] theorem afterWrite_mem (a v x : Word) (s : State) : (afterWrite a v x s).mem = s.mem.putWord a v := rfl
@[simp] theorem afterWrite_trace (a v x : Word) (s : State) :
    (afterWrite a v x s).trace = s.trace ++ [.wr a .four v, .rd a .four x] := rfl
@[simp] theorem afterWrite_cmds (a v x : Word) (s : State) : (afterWrite a v x s).cmds = s.cmds := rfl
@[simp] theorem afterWrite_answers (a v x : Word) (s : State) : (afterWrite a v x s).answers = s.answers.tail := rfl
@[simp] theorem afterWrite_turns (a v x : Word) (s : State) : (afterWrite a v x s).turns = s.turns := rfl
@[simp] theorem afterWrite_par (a v x : Word) (s : State) : (afterWrite a v x s).par = s.par := rfl

/-! ### afterRefusal -/

@[simp] theorem afterRefusal_ch (k : BitVec 5) (s : State) : (afterRefusal k s).ch = s.ch := rfl
@[simp] theorem afterRefusal_freq (k : BitVec 5) (s : State) : (afterRefusal k s).freq = s.freq := rfl
@[simp] theorem afterRefusal_duty (k : BitVec 5) (s : State) : (afterRefusal k s).duty = s.duty := rfl
@[simp] theorem afterRefusal_clksel (k : BitVec 5) (s : State) : (afterRefusal k s).clksel = s.clksel := rfl
@[simp] theorem afterRefusal_div (k : BitVec 5) (s : State) : (afterRefusal k s).div = s.div := rfl
@[simp] theorem afterRefusal_dur (k : BitVec 5) (s : State) : (afterRefusal k s).dur = s.dur := rfl
@[simp] theorem afterRefusal_durh (k : BitVec 5) (s : State) : (afterRefusal k s).durh = s.durh := rfl
@[simp] theorem afterRefusal_durl (k : BitVec 5) (s : State) : (afterRefusal k s).durl = s.durl := rfl
@[simp] theorem afterRefusal_entmp (k : BitVec 5) (s : State) : (afterRefusal k s).entmp = s.entmp := rfl
@[simp] theorem afterRefusal_fstep (k : BitVec 5) (s : State) : (afterRefusal k s).fstep = k := rfl
@[simp] theorem afterRefusal_pc (k : BitVec 5) (s : State) : (afterRefusal k s).pc = 31#5 := rfl
@[simp] theorem afterRefusal_done (k : BitVec 5) (s : State) : (afterRefusal k s).done = s.done := rfl
@[simp] theorem afterRefusal_mem (k : BitVec 5) (s : State) : (afterRefusal k s).mem = s.mem := rfl
@[simp] theorem afterRefusal_trace (k : BitVec 5) (s : State) : (afterRefusal k s).trace = s.trace := rfl
@[simp] theorem afterRefusal_cmds (k : BitVec 5) (s : State) : (afterRefusal k s).cmds = s.cmds := rfl
@[simp] theorem afterRefusal_answers (k : BitVec 5) (s : State) : (afterRefusal k s).answers = s.answers.tail := rfl
@[simp] theorem afterRefusal_turns (k : BitVec 5) (s : State) : (afterRefusal k s).turns = s.turns := rfl
@[simp] theorem afterRefusal_par (k : BitVec 5) (s : State) : (afterRefusal k s).par = s.par := rfl

end Sys2Proof.Machine
end

