-- ==== Sys2Proof/Laws/Access.lean ====
section
/-! SUPPORT. What one transaction can do, said once: served, refused or silent. The meanings' lemmas cite these and
never unfold `access`. -/

namespace Sys2Proof.Machine

open Sys2Proof.Safety

/-- A read of a register, for each answer of the Target. -/
theorem access_readReq (r : Reg) (s : State) :
    access (readReq s.par r) s =
      match nextAnswer s with
      | .stored =>
        .response ⟨false, s.mem.word (regAddr s.par r)⟩
          (afterRead (regAddr s.par r) (s.mem.word (regAddr s.par r)) s)
      | .word x => .response ⟨false, x⟩ (afterRead (regAddr s.par r) x s)
      | .refuse _ => .response ⟨true, Config.errRdata⟩ { s with answers := s.answers.tail }
      | .silent => .silent := by
  simp only [access, requestRefusal_readReq, nextAnswer]
  cases s.answers.headD .stored <;> rfl

/-- A write of a register, for each answer of the Target; storage reads back what was written. -/
theorem access_writeReq (r : Reg) (v : Word) (s : State) :
    access (writeReq s.par r v) s =
      match nextAnswer s with
      | .stored => .response ⟨false, v⟩ (afterWrite (regAddr s.par r) v v s)
      | .word x => .response ⟨false, x⟩ (afterWrite (regAddr s.par r) v x s)
      | .refuse _ => .response ⟨true, Config.errRdata⟩ { s with answers := s.answers.tail }
      | .silent => .silent := by
  simp only [access, requestRefusal_writeReq, nextAnswer]
  cases s.answers.headD .stored <;>
    simp [answered, perform, writeReq, targetWrite, targetRead, afterWrite, List.append_assoc]

/-- A served read goes on with the word given. -/
theorem accessThen_read_served {code : BitVec 5} {r : Reg} {s : State} {k : Word → State → Result} {x : Word}
    (h : wordGiven (s.mem.word (regAddr s.par r)) (nextAnswer s) = some x) :
    accessThen code (readReq s.par r) s k = k x (afterRead (regAddr s.par r) x s) := by
  unfold accessThen
  rw [access_readReq]
  cases ha : nextAnswer s <;> simp_all [wordGiven]

/-- A served write goes on with the word read back. -/
theorem accessThen_write_served {code : BitVec 5} {r : Reg} {v : Word} {s : State} {k : Word → State → Result}
    {x : Word} (h : wordGiven v (nextAnswer s) = some x) :
    accessThen code (writeReq s.par r v) s k = k x (afterWrite (regAddr s.par r) v x s) := by
  unfold accessThen
  rw [access_writeReq]
  cases ha : nextAnswer s <;> simp_all [wordGiven]

/-- A refused read takes the exception. -/
theorem accessThen_read_refused {code : BitVec 5} {r : Reg} {s : State} {k : Word → State → Result} {c : Cause}
    (h : nextAnswer s = .refuse c) : accessThen code (readReq s.par r) s k = .next (afterRefusal code s) := by
  unfold accessThen
  rw [access_readReq, h]
  rfl

/-- A refused write takes the exception. -/
theorem accessThen_write_refused {code : BitVec 5} {r : Reg} {v : Word} {s : State} {k : Word → State → Result}
    {c : Cause} (h : nextAnswer s = .refuse c) :
    accessThen code (writeReq s.par r v) s k = .next (afterRefusal code s) := by
  unfold accessThen
  rw [access_writeReq, h]
  rfl

/-- A silent Target holds the block at the step. -/
theorem accessThen_read_silent {code : BitVec 5} {r : Reg} {s : State} {k : Word → State → Result}
    (h : nextAnswer s = .silent) : accessThen code (readReq s.par r) s k = .next { s with pc := code } := by
  unfold accessThen
  rw [access_readReq, h]

/-- A silent Target holds the block at the step. -/
theorem accessThen_write_silent {code : BitVec 5} {r : Reg} {v : Word} {s : State} {k : Word → State → Result}
    (h : nextAnswer s = .silent) : accessThen code (writeReq s.par r v) s k = .next { s with pc := code } := by
  unfold accessThen
  rw [access_writeReq, h]

/-- All that a read followed by `k` can do. -/
theorem accessThen_read_cases (code : BitVec 5) (r : Reg) (s : State) (k : Word → State → Result) :
    (∃ x, wordGiven (s.mem.word (regAddr s.par r)) (nextAnswer s) = some x ∧
      accessThen code (readReq s.par r) s k = k x (afterRead (regAddr s.par r) x s)) ∨
    ((∃ c, nextAnswer s = .refuse c) ∧ accessThen code (readReq s.par r) s k = .next (afterRefusal code s)) ∨
    (nextAnswer s = .silent ∧ accessThen code (readReq s.par r) s k = .next { s with pc := code }) := by
  cases ha : nextAnswer s with
  | stored => exact .inl ⟨_, rfl, accessThen_read_served (by rw [ha]; rfl)⟩
  | word x => exact .inl ⟨x, rfl, accessThen_read_served (by rw [ha]; rfl)⟩
  | refuse c => exact .inr (.inl ⟨⟨c, rfl⟩, accessThen_read_refused ha⟩)
  | silent => exact .inr (.inr ⟨rfl, accessThen_read_silent ha⟩)

/-- All that a write followed by `k` can do. -/
theorem accessThen_write_cases (code : BitVec 5) (r : Reg) (v : Word) (s : State) (k : Word → State → Result) :
    (∃ x, wordGiven v (nextAnswer s) = some x ∧
      accessThen code (writeReq s.par r v) s k = k x (afterWrite (regAddr s.par r) v x s)) ∨
    ((∃ c, nextAnswer s = .refuse c) ∧ accessThen code (writeReq s.par r v) s k = .next (afterRefusal code s)) ∨
    (nextAnswer s = .silent ∧ accessThen code (writeReq s.par r v) s k = .next { s with pc := code }) := by
  cases ha : nextAnswer s with
  | stored => exact .inl ⟨_, rfl, accessThen_write_served (by rw [ha]; rfl)⟩
  | word x => exact .inl ⟨x, rfl, accessThen_write_served (by rw [ha]; rfl)⟩
  | refuse c => exact .inr (.inl ⟨⟨c, rfl⟩, accessThen_write_refused ha⟩)
  | silent => exact .inr (.inr ⟨rfl, accessThen_write_silent ha⟩)

/-- A micro-operation's access is `accessThen` with nothing after it but register writes. -/
theorem accessStep_eq (code : BitVec 5) (q : Request) (k : Word → State → State) (s : State) :
    accessStep code q k s = accessThen code q s fun r t => .next (k r t) := rfl

/-- A register write of a whole command is an access whose word is discarded. -/
theorem putThen_eq (code : BitVec 5) (r : Reg) (v : Word) (s : State) (k : State → Result) :
    putThen code r v s k = accessThen code (writeReq s.par r v) s fun _ t => k t := rfl

end Sys2Proof.Machine
end

