-- ==== Sys2Proof/Laws/Calc.lean ====
section
/-! SUPPORT. The calculator's numbers: what its words are as naturals, so that later proofs work in Nat (spec/42_calc.md
R144 to R149). -/

namespace Sys2Proof.Machine

theorem word_toNat_lt (w : Word) : w.toNat < 2 ^ 32 := w.isLt

theorem word_ne_zero {w : Word} (h : w ≠ 0#32) : 0 < w.toNat := by
  rcases Nat.eq_zero_or_pos w.toNat with h0 | h0
  · exact absurd (BitVec.eq_of_toNat_eq (by simpa using h0)) h
  · exact h0

/-- A quotient of a number below 2^32 fits a word. -/
theorem quotient_toNat {n d : Nat} (hd : 0 < d) (hn : n < 2 ^ 32) : (quotient n d).toNat = n / d := by
  have : n / d ≤ n := Nat.div_le_self n d
  simp only [quotient, Nat.pos_iff_ne_zero.mp hd, if_false, BitVec.toNat_ofNat]
  exact Nat.mod_eq_of_lt (by omega)

/-- The high phase as a natural; no product overflows (R143, R148). -/
theorem splitHigh_toNat {dur : Word} {duty : BitVec 7} (h : duty.toNat ≤ 100) :
    (splitHigh dur duty).toNat = dur.toNat * duty.toNat / 100 := by
  have hd := dur.isLt
  have : dur.toNat * duty.toNat ≤ dur.toNat * 100 := Nat.mul_le_mul_left _ h
  simp only [splitHigh, BitVec.toNat_ofNat]
  exact Nat.mod_eq_of_lt (by omega)

/-- The low phase as a natural (R143, R148). -/
theorem splitLow_toNat {dur : Word} {duty : BitVec 7} (h : duty.toNat ≤ 100) :
    (splitLow dur duty).toNat = dur.toNat * (100 - duty.toNat) / 100 := by
  have hd := dur.isLt
  have : dur.toNat * (100 - duty.toNat) ≤ dur.toNat * 100 := Nat.mul_le_mul_left _ (by omega)
  simp only [splitLow, Config.maxDuty, h, if_true, BitVec.toNat_ofNat]
  exact Nat.mod_eq_of_lt (by omega)

/-! ### The search, with the printed parameters -/

section Printed

variable {p : Config.Params} (hp : p.AsPrinted)
include hp

/-- The Fast duration as a natural (R140, R141). -/
theorem fastDuration_toNat {f : Word} (hf : f ≠ 0#32) (d : Nat) :
    (fastDuration p f d).toNat = 40000000 / (2 ^ d * f.toNat) := by
  unfold fastDuration
  rw [hp.clkFastHz]
  exact quotient_toNat (Nat.mul_pos (Nat.two_pow_pos d) (word_ne_zero hf)) (by decide)

/-- The Slow duration as a natural (R142). -/
theorem slowDuration_toNat {f : Word} (hf : f ≠ 0#32) : (slowDuration p f).toNat = 100000 / f.toNat := by
  unfold slowDuration
  rw [hp.clkSlowHz]
  exact quotient_toNat (word_ne_zero hf) (by decide)

theorem overLimit_iff (d : Word) : overLimit p d = true ↔ 15000 < d.toNat := by
  unfold overLimit
  rw [hp.maxDuration]
  exact decide_eq_true_iff

/-- The limit test, in its false form. -/
theorem overLimit_eq_false {d : Word} (h : ¬ 15000 < d.toNat) : overLimit p d = false :=
  Bool.eq_false_iff.mpr (mt (overLimit_iff hp d).mp h)

/-- One more turn of the search at a divider that is still below its maximum. -/
theorem searchFrom_over {f : Word} {left d : Nat} {dur : Word} (h : 15000 < dur.toNat) :
    searchFrom p f (left + 1) d dur = searchFrom p f left (d + 1) (fastDuration p f (d + 1)) := by
  simp [searchFrom, (overLimit_iff hp dur).mpr h]

/-- The search stops at the first duration within the limit. -/
theorem searchFrom_within {f : Word} {left d : Nat} {dur : Word} (h : ¬ 15000 < dur.toNat) :
    searchFrom p f left d dur = (d, dur) := by
  cases left with
  | zero => rfl
  | succ n => simp [searchFrom, overLimit_eq_false hp h]

end Printed

end Sys2Proof.Machine
end

