-- ==== Sys2Proof/Laws/Exec.lean ====
section
/-! SUPPORT. One equation per meaning, as its access or its register update, and the inversion lemma of the thirteen
micro-operations that perform an access: everything they can do, said once. -/

namespace Sys2Proof.Machine

open Sys2Proof.Safety

theorem exec_enRd1 (s : State) : exec .enRd1 s =
    accessThen sEnRd1 (readReq s.par .en) s fun r t => .next { t with entmp := r, pc := sEnClr } := rfl

theorem exec_enRd2 (s : State) : exec .enRd2 s =
    accessThen sEnRd2 (readReq s.par .en) s fun r t => .next { t with entmp := r, pc := sEnSet } := rfl

theorem exec_enClr (s : State) : exec .enClr s =
    accessThen sEnClr (writeReq s.par .en (clearEnable s.entmp s.ch)) s fun _ t => .next { t with pc := sFreqTest } :=
      rfl

theorem exec_enSet (s : State) : exec .enSet s =
    accessThen sEnSet (writeReq s.par .en (setEnable s.entmp s.ch)) s fun _ t => .next { t with pc := sFinish } := rfl

theorem exec_wrCon (s : State) : exec .wrCon s =
    accessThen sWrCon (writeReq s.par (.chan .con s.ch) (controlWord s.par s.clksel s.div)) s
      fun _ t => .next { t with pc := sWrHdur } := rfl

theorem exec_wrHdur (s : State) : exec .wrHdur s =
    accessThen sWrHdur (writeReq s.par (.chan .hdur s.ch) s.durh) s fun _ t => .next { t with pc := sWrLdur } := rfl

theorem exec_wrLdur (s : State) : exec .wrLdur s =
    accessThen sWrLdur (writeReq s.par (.chan .ldur s.ch) s.durl) s fun _ t => .next { t with pc := sWrGdur } := rfl

theorem exec_wrGdur (s : State) : exec .wrGdur s =
    accessThen sWrGdur (writeReq s.par (.chan .gdur s.ch) s.par.guardValue) s
      fun _ t => .next { t with pc := sWrSd0 } := rfl

theorem exec_wrSd0 (s : State) : exec .wrSd0 s =
    accessThen sWrSd0 (writeReq s.par (.chan .sd0 s.ch) s.par.sendPattern) s
      fun _ t => .next { t with pc := sWrSd1 } := rfl

theorem exec_wrSd1 (s : State) : exec .wrSd1 s =
    accessThen sWrSd1 (writeReq s.par (.chan .sd1 s.ch) s.par.sendPattern) s
      fun _ t => .next { t with pc := sWrWavenum } := rfl

theorem exec_wrWavenum (s : State) : exec .wrWavenum s =
    accessThen sWrWavenum (writeReq s.par (.chan .wavenum s.ch) s.par.wavenumValue) s
      fun _ t => .next { t with pc := sDutyTest } := rfl

theorem exec_wrSd0Ovr (s : State) : exec .wrSd0Ovr s =
    accessThen sWrSd0Ovr (writeReq s.par (.chan .sd0 s.ch) (overrideWord s.par s.duty)) s
      fun _ t => .next { t with pc := sWrSd1Ovr } := rfl

theorem exec_wrSd1Ovr (s : State) : exec .wrSd1Ovr s =
    accessThen sWrSd1Ovr (writeReq s.par (.chan .sd1 s.ch) (overrideWord s.par s.duty)) s
      fun _ t => .next { t with pc := sEnRd2 } := rfl

theorem exec_freqTest (s : State) : exec .freqTest s =
    .next { s with pc := if s.freq = 0#32 then sFinish else sDivInit } := rfl

theorem exec_divInit (s : State) : exec .divInit s =
    .next { s with clksel := .fast, div := 0#3, dur := fastDuration s.par s.freq 0, pc := sDivStep } := rfl

theorem exec_split (s : State) : exec .split s =
    .next { s with durh := splitHigh s.dur s.duty, durl := splitLow s.dur s.duty, pc := sWrCon } := rfl

theorem exec_dutyTest (s : State) : exec .dutyTest s =
    .next { s with pc := if overrides s.duty then sWrSd0Ovr else sEnRd2 } := rfl

theorem exec_finish (s : State) : exec .finish s = .next (finished s) := rfl

theorem exec_sFault (s : State) : exec .sFault s = .next s := rfl

theorem exec_pwmOff (c : BitVec 2) (d : BitVec 7) (s : State) : exec (.pwmOff c d) s = program c 0#32 d s := rfl

theorem exec_pwmSet (c : BitVec 2) (f : Word) (d : BitVec 7) (s : State) :
    exec (.pwmSet c f d) s = program c f d s := rfl

theorem exec_reserved (c : BitVec 2) (f : Word) (d : BitVec 7) (s : State) :
    exec (.reserved c f d) s = .refused .reservedCommand := rfl

/-- `DIV_STEP` raises the divider or leaves the search. -/
theorem exec_divStep_cases (s : State) :
    (s.par.maxDuration < s.dur.toNat ∧ s.div.toNat < s.par.maxDiv.toNat ∧ exec .divStep s = .next { s with
      div := s.div + 1#3, dur := fastDuration s.par s.freq (s.div.toNat + 1), pc := sDivStep }) ∨
    (¬ (s.par.maxDuration < s.dur.toNat ∧ s.div.toNat < s.par.maxDiv.toNat) ∧
      exec .divStep s = .next { s with pc := sFallback }) := by
  simp only [exec, execDivStep, overLimit, ← Bool.decide_and, decide_eq_true_eq]
  by_cases h : s.par.maxDuration < s.dur.toNat ∧ s.div.toNat < s.par.maxDiv.toNat
  · exact .inl ⟨h.1, h.2, if_pos h⟩
  · exact .inr ⟨h, if_neg h⟩

/-- `FALLBACK` takes the Slow clock or keeps the Fast one. -/
theorem exec_fallback_cases (s : State) :
    (s.par.maxDuration < s.dur.toNat ∧ exec .fallback s = .next { s with
      clksel := .slow, div := 0#3, dur := slowDuration s.par s.freq, pc := sSplit }) ∨
    (¬ s.par.maxDuration < s.dur.toNat ∧ exec .fallback s = .next { s with pc := sSplit }) := by
  simp only [exec, execFallback, overLimit, decide_eq_true_eq]
  by_cases h : s.par.maxDuration < s.dur.toNat
  · exact .inl ⟨h, if_pos h⟩
  · exact .inr ⟨h, if_neg h⟩

/-- `ACCEPT`: nothing presented, a reserved word, or a command taken. -/
theorem exec_accept_cases (s : State) :
    (s.cmds = [] ∧ exec .accept s = .next s) ∨
    ∃ w rest, s.cmds = w :: rest ∧
      ((reservedOperands (cmdFrequency w) (cmdDuty w) = true ∧ exec .accept s = .refused .reservedCommand) ∨
        (reservedOperands (cmdFrequency w) (cmdDuty w) = false ∧ exec .accept s =
          .next (latch (cmdChannel w) (cmdFrequency w) (cmdDuty w) { s with cmds := rest }))) := by
  cases hc : s.cmds with
  | nil => exact .inl ⟨rfl, by simp [exec, execAccept, hc]⟩
  | cons w rest =>
    refine .inr ⟨w, rest, rfl, ?_⟩
    cases hr : reservedOperands (cmdFrequency w) (cmdDuty w) with
    | true => exact .inl ⟨rfl, by simp [exec, execAccept, hc, hr]⟩
    | false => exact .inr ⟨rfl, by simp [exec, execAccept, hc, hr]⟩

/-- How a micro-operation that drives the request `q` ends: its read is served, its write is served, it takes the
exception, or it is held. -/
def AccessEnds (i : Instr) (code : BitVec 5) (s : State) (q : Request) : Prop :=
  (∃ x k, exec i s = .next { afterRead q.address x s with entmp := x, pc := k } ∧ q.write = false ∧
    k ≠ sFaultCode ∧ wordGiven (s.mem.word q.address) (nextAnswer s) = some x) ∨
  (∃ x k, exec i s = .next { afterWrite q.address q.value x s with pc := k } ∧ q.write = true ∧
    k ≠ sFaultCode ∧ wordGiven q.value (nextAnswer s) = some x) ∨
  ((∃ c, nextAnswer s = .refuse c) ∧ exec i s = .next (afterRefusal code s)) ∨
  (nextAnswer s = .silent ∧ exec i s = .next { s with pc := code })

theorem accessEnds_read {code k : BitVec 5} {i : Instr} {r : Reg} {s : State} (hk : k ≠ sFaultCode)
    (h : exec i s = accessThen code (readReq s.par r) s fun x t => .next { t with entmp := x, pc := k }) :
    AccessEnds i code s (readReq s.par r) := by
  unfold AccessEnds
  rw [h]
  rcases accessThen_read_cases code r s fun x t => .next { t with entmp := x, pc := k } with
    ⟨x, hx, h⟩ | ⟨hc, h⟩ | ⟨hs, h⟩
  · exact .inl ⟨x, k, h, rfl, hk, hx⟩
  · exact .inr (.inr (.inl ⟨hc, h⟩))
  · exact .inr (.inr (.inr ⟨hs, h⟩))

theorem accessEnds_write {code k : BitVec 5} {i : Instr} {r : Reg} {v : Word} {s : State} (hk : k ≠ sFaultCode)
    (h : exec i s = accessThen code (writeReq s.par r v) s fun _ t => .next { t with pc := k }) :
    AccessEnds i code s (writeReq s.par r v) := by
  unfold AccessEnds
  rw [h]
  rcases accessThen_write_cases code r v s fun _ t => .next { t with pc := k } with ⟨x, hx, h⟩ | ⟨hc, h⟩ | ⟨hs, h⟩
  · exact .inr (.inl ⟨x, k, h, rfl, hk, hx⟩)
  · exact .inr (.inr (.inl ⟨hc, h⟩))
  · exact .inr (.inr (.inr ⟨hs, h⟩))

/-- A property of the thirteen accessing micro-operations holds of all when it holds of each. -/
theorem accessing_forall {P : Instr → BitVec 5 → Prop}
    (reads : P .enRd1 sEnRd1 ∧ P .enRd2 sEnRd2) (enables : P .enClr sEnClr ∧ P .enSet sEnSet)
    (timings : P .wrCon sWrCon ∧ P .wrHdur sWrHdur ∧ P .wrLdur sWrLdur ∧ P .wrGdur sWrGdur)
    (patterns : P .wrSd0 sWrSd0 ∧ P .wrSd1 sWrSd1 ∧ P .wrWavenum sWrWavenum)
    (overridden : P .wrSd0Ovr sWrSd0Ovr ∧ P .wrSd1Ovr sWrSd1Ovr) {i : Instr} {code : BitVec 5}
    (hi : (i, code) ∈ accessing) : P i code := by
  have all : ∀ e ∈ accessing, P e.1 e.2 := by
    simp only [accessing, List.forall_mem_cons]
    tauto
  exact all _ hi

/-- Everything a micro-operation with an access can do, on the request it drives. -/
theorem exec_accessing_cases {i : Instr} {code : BitVec 5} (hi : (i, code) ∈ accessing) (s : State) :
    ∃ q, requestOf s i = some q ∧ AccessEnds i code s q := by
  refine @accessing_forall (fun i code => ∃ q, requestOf s i = some q ∧ AccessEnds i code s q)
    ⟨?_, ?_⟩ ⟨?_, ?_⟩ ⟨?_, ?_, ?_, ?_⟩ ⟨?_, ?_, ?_⟩ ⟨?_, ?_⟩ i code hi
  · exact ⟨_, rfl, accessEnds_read (by decide) (exec_enRd1 s)⟩
  · exact ⟨_, rfl, accessEnds_read (by decide) (exec_enRd2 s)⟩
  · exact ⟨_, rfl, accessEnds_write (by decide) (exec_enClr s)⟩
  · exact ⟨_, rfl, accessEnds_write (by decide) (exec_enSet s)⟩
  · exact ⟨_, rfl, accessEnds_write (by decide) (exec_wrCon s)⟩
  · exact ⟨_, rfl, accessEnds_write (by decide) (exec_wrHdur s)⟩
  · exact ⟨_, rfl, accessEnds_write (by decide) (exec_wrLdur s)⟩
  · exact ⟨_, rfl, accessEnds_write (by decide) (exec_wrGdur s)⟩
  · exact ⟨_, rfl, accessEnds_write (by decide) (exec_wrSd0 s)⟩
  · exact ⟨_, rfl, accessEnds_write (by decide) (exec_wrSd1 s)⟩
  · exact ⟨_, rfl, accessEnds_write (by decide) (exec_wrWavenum s)⟩
  · exact ⟨_, rfl, accessEnds_write (by decide) (exec_wrSd0Ovr s)⟩
  · exact ⟨_, rfl, accessEnds_write (by decide) (exec_wrSd1Ovr s)⟩

end Sys2Proof.Machine
end

