-- ==== Sys2Proof/Laws/PerInstr.lean ====
section
/-! SUPPORT. The family `Placed`: how the bytes of an instruction lie, one lemma per constructor of `Instr`. -/

namespace Sys2Proof.Laws.Placed

/-- The encoding fills whole bytes and pads with zeros: one byte with bits 7:5 clear for a STEP code, six bytes with
bits 7:1 of the last clear for a CMD word (spec/30_encoding.md R80, R81, R83; log 12). -/
def Statement (i : Instr) : Prop :=
  match codeWord i with
  | .step _ => (encode i).length = 1 ∧ ∀ b ∈ encode i, b.extractLsb' 5 3 = 0#3
  | .cmd _ => (encode i).length = 6 ∧ ∀ b, (encode i)[5]? = some b → b.extractLsb' 1 7 = 0#7

/-- The padding of a CMD word's last byte. -/
theorem padded (x : BitVec 1) : BitVec.extractLsb' 1 7 (0#7 ++ x : BitVec 8) = 0#7 := by
  revert x
  decide

/-- The family for the CMD rows. -/
theorem of_cmd {i : Instr} {w : BitVec 41} (h : codeWord i = .cmd w) : Statement i := by
  simp [Statement, h, encode, codeBytes, padded]

theorem pwmOff (c : BitVec 2) (d : BitVec 7) : Statement (.pwmOff c d) := of_cmd rfl

theorem pwmSet (c : BitVec 2) (f : Word) (d : BitVec 7) : Statement (.pwmSet c f d) := of_cmd rfl

theorem reserved (c : BitVec 2) (f : Word) (d : BitVec 7) : Statement (.reserved c f d) := of_cmd rfl

theorem accept : Statement .accept := by simp [Statement, codeWord, encode, codeBytes]

theorem enRd1 : Statement .enRd1 := by simp [Statement, codeWord, encode, codeBytes]

theorem enClr : Statement .enClr := by simp [Statement, codeWord, encode, codeBytes]

theorem freqTest : Statement .freqTest := by simp [Statement, codeWord, encode, codeBytes]

theorem divInit : Statement .divInit := by simp [Statement, codeWord, encode, codeBytes]

theorem divStep : Statement .divStep := by simp [Statement, codeWord, encode, codeBytes]

theorem fallback : Statement .fallback := by simp [Statement, codeWord, encode, codeBytes]

theorem split : Statement .split := by simp [Statement, codeWord, encode, codeBytes]

theorem wrCon : Statement .wrCon := by simp [Statement, codeWord, encode, codeBytes]

theorem wrHdur : Statement .wrHdur := by simp [Statement, codeWord, encode, codeBytes]

theorem wrLdur : Statement .wrLdur := by simp [Statement, codeWord, encode, codeBytes]

theorem wrGdur : Statement .wrGdur := by simp [Statement, codeWord, encode, codeBytes]

theorem wrSd0 : Statement .wrSd0 := by simp [Statement, codeWord, encode, codeBytes]

theorem wrSd1 : Statement .wrSd1 := by simp [Statement, codeWord, encode, codeBytes]

theorem wrWavenum : Statement .wrWavenum := by simp [Statement, codeWord, encode, codeBytes]

theorem dutyTest : Statement .dutyTest := by simp [Statement, codeWord, encode, codeBytes]

theorem wrSd0Ovr : Statement .wrSd0Ovr := by simp [Statement, codeWord, encode, codeBytes]

theorem wrSd1Ovr : Statement .wrSd1Ovr := by simp [Statement, codeWord, encode, codeBytes]

theorem enRd2 : Statement .enRd2 := by simp [Statement, codeWord, encode, codeBytes]

theorem enSet : Statement .enSet := by simp [Statement, codeWord, encode, codeBytes]

theorem finish : Statement .finish := by simp [Statement, codeWord, encode, codeBytes]

theorem sFault : Statement .sFault := by simp [Statement, codeWord, encode, codeBytes]

end Sys2Proof.Laws.Placed
end

