-- ==== Sys2Proof/Tests/Slice0.lean ====
section
/-! SUPPORT. Our own tests: the well-formedness smoke, every constructor's decoding by a word written out from the
opcode table, single steps whose results are the spec's own vectors (spec/95_test_vectors.md), and for every statement
with hypotheses a concrete state that meets them. -/

namespace Sys2Proof.Tests

open Sys2Proof Sys2Proof.Machine Sys2Proof.Safety

/-! ### Helpers -/

/-- Reset, with Global Enable holding a word. -/
def withEn (w : Word) : State := { State.reset with mem := Memory.putWord [] 0x10005000#32 w }

/-- The middle of `pwm 1 1000 25` (95 P1) at a step. -/
def running (pc : BitVec 5) : State :=
  { withEn 0x0000000F#32 with
    ch := 1#2, freq := 1000#32, duty := 25#7, clksel := .fast, div := 2#3, dur := 10000#32, durh := 2500#32,
    durl := 7500#32, entmp := 0x0000000F#32, pc := pc }

/-- The same at channel 3 with duty `d` (95 V5). -/
def onThree (d : BitVec 7) (pc : BitVec 5) : State := { running pc with ch := 3#2, duty := d }

/-- The next state of a result. -/
def nextOf : Result → Option State
  | .next t => some t
  | .fault _ => none
  | .refused _ => none

/-- The events an instruction adds to an empty trace and the STEP it goes to. -/
def busAndStep (r : Result) : Option (List Event × BitVec 5) := (nextOf r).map fun t => (t.trace, t.pc)

/-! ### Well-formedness: each check refuses an ill-formed term -/

theorem test_wf_set_frequency_zero : (Instr.pwmSet 1#2 0#32 25#7).wf = false := by decide
theorem test_wf_set_duty_101 : (Instr.pwmSet 1#2 1000#32 101#7).wf = false := by decide
theorem test_wf_set_duty_100 : (Instr.pwmSet 1#2 1000#32 100#7).wf = true := by decide
theorem test_wf_reserved_frequency_zero : (Instr.reserved 1#2 0#32 101#7).wf = false := by decide
theorem test_wf_reserved_duty_100 : (Instr.reserved 1#2 1#32 100#7).wf = false := by decide
theorem test_wf_reserved_duty_101 : (Instr.reserved 1#2 1#32 101#7).wf = true := by decide

/-! ### Decoding: words written out from 95 V1 and the opcode table -/

theorem test_decode_set : decode [0xE8#8, 0x03#8, 0x00#8, 0x00#8, 0x65#8,
  0x00#8] = .instr (.pwmSet 1#2 1000#32 25#7) := by
  decide
theorem test_decode_set_all_ones : decode [0xFF#8, 0xFF#8, 0xFF#8, 0xFF#8, 0xCB#8, 0x00#8] =
    .instr (.pwmSet 3#2 4294967295#32 50#7) := by decide
theorem test_decode_set_duty_100 : decode [0xB8#8, 0x01#8, 0x00#8, 0x00#8, 0x93#8, 0x01#8] =
    .instr (.pwmSet 3#2 440#32 100#7) := by decide
theorem test_decode_off : decode [0x00#8, 0x00#8, 0x00#8, 0x00#8, 0xFD#8, 0x01#8] = .instr (.pwmOff 1#2 127#7) := by
  decide
theorem test_decode_reserved : decode [0x01#8, 0x00#8, 0x00#8, 0x00#8, 0x94#8, 0x01#8] =
    .instr (.reserved 0#2 1#32 101#7) := by decide
theorem test_decode_accept : decode [0b00000#8] = .instr .accept := by decide
theorem test_decode_enRd1 : decode [0b00001#8] = .instr .enRd1 := by decide
theorem test_decode_enClr : decode [0b00010#8] = .instr .enClr := by decide
theorem test_decode_freqTest : decode [0b00011#8] = .instr .freqTest := by decide
theorem test_decode_divInit : decode [0b00100#8] = .instr .divInit := by decide
theorem test_decode_divStep : decode [0b00101#8] = .instr .divStep := by decide
theorem test_decode_fallback : decode [0b00110#8] = .instr .fallback := by decide
theorem test_decode_split : decode [0b00111#8] = .instr .split := by decide
theorem test_decode_wrCon : decode [0b01000#8] = .instr .wrCon := by decide
theorem test_decode_wrHdur : decode [0b01001#8] = .instr .wrHdur := by decide
theorem test_decode_wrLdur : decode [0b01010#8] = .instr .wrLdur := by decide
theorem test_decode_wrGdur : decode [0b01011#8] = .instr .wrGdur := by decide
theorem test_decode_wrSd0 : decode [0b01100#8] = .instr .wrSd0 := by decide
theorem test_decode_wrSd1 : decode [0b01101#8] = .instr .wrSd1 := by decide
theorem test_decode_wrWavenum : decode [0b01110#8] = .instr .wrWavenum := by decide
theorem test_decode_dutyTest : decode [0b01111#8] = .instr .dutyTest := by decide
theorem test_decode_wrSd0Ovr : decode [0b10000#8] = .instr .wrSd0Ovr := by decide
theorem test_decode_wrSd1Ovr : decode [0b10001#8] = .instr .wrSd1Ovr := by decide
theorem test_decode_enRd2 : decode [0b10010#8] = .instr .enRd2 := by decide
theorem test_decode_enSet : decode [0b10011#8] = .instr .enSet := by decide
theorem test_decode_finish : decode [0b10100#8] = .instr .finish := by decide
theorem test_decode_sFault : decode [0b11111#8] = .instr .sFault := by decide
theorem test_decode_unused_code : decode [0b10101#8] = .rejected .unusedStepCode := by decide
theorem test_decode_step_padding : decode [0b100000#8] = .rejected .paddingSet := by decide
theorem test_decode_cmd_padding : decode [0x00#8, 0x00#8, 0x00#8, 0x00#8, 0x00#8, 0x02#8] = .rejected .paddingSet := by
  decide
theorem test_decode_two_bytes : decode [0#8, 0#8] = .rejected .badLength := by decide

/-! ### The fetch: a placed word runs as the first instruction after reset -/

theorem test_every_step_code_runs_first :
    ([0, 1, 2, 3, 4, 5, 6, 7, 8, 9, 10, 11, 12, 13, 14, 15, 16, 17, 18, 19, 20, 31].all fun w =>
      (nextOf (step (State.reset.withFetchWord 8 w))).isSome) = true := by decide
theorem test_off_runs_first :
    (nextOf (step (State.reset.withFetchWord 48 0x0CA00000000))).map (fun t => (t.pc, t.done, t.ch, t.freq)) =
      some (0#5, true, 2#2, 0#32) := by decide
theorem test_set_runs_first :
    (nextOf (step (State.reset.withFetchWord 48 0x065000003E8))).map (fun t => (t.pc, t.done, t.dur, t.durh, t.durl)) =
      some (0#5, true, 10000#32, 2500#32, 7500#32) := by decide
theorem test_accept_runs_first :
    (nextOf (step (State.reset.withFetchWord 8 0))).map (fun t => (t.pc, t.cmds, t.ch)) = some (1#5, [], 0#2) := by
  decide

/-! ### One step at a time: 95 V2 to V7 -/

/-- V2, first row. -/
theorem test_accept : (nextOf (exec .accept { State.reset with done := true, cmds := [0x065000003E8#41] })).map
    (fun t => (t.ch, t.freq, t.duty, t.done, t.pc)) = some (1#2, 1000#32, 25#7, false, 1#5) := by decide
/-- V2, second row: with no command the state is unchanged. -/
theorem test_accept_nothing : exec .accept State.reset = .next State.reset := rfl
/-- V1, the reserved word. -/
theorem test_accept_reserved : exec .accept { State.reset with cmds := [0x19400000001#41] } =
    .refused .reservedCommand := rfl
/-- V2, the row of `EN_RD1`. -/
theorem test_enRd1 : (nextOf (exec .enRd1 { withEn 0xFFFFFFFF#32 with pc := 1#5 })).map
    (fun t => (t.entmp, t.pc, t.trace)) = some (0xFFFFFFFF#32, 2#5, [.rd 0x10005000#32 .four 0xFFFFFFFF#32]) :=
      by decide
/-- V2: `ENTMP` 0xF, channel 3. -/
theorem test_enClr : busAndStep (exec .enClr { onThree 25#7 2#5 with entmp := 0x0000000F#32 }) =
    some ([.wr 0x10005000#32 .four 0x00000007#32, .rd 0x10005000#32 .four 0x00000007#32], 3#5) := by decide
/-- V2: the bit already clear; the write is still issued. -/
theorem test_enClr_already_clear : busAndStep (exec .enClr { running 2#5 with entmp := 0x00000005#32 }) =
    some ([.wr 0x10005000#32 .four 0x00000005#32, .rd 0x10005000#32 .four 0x00000005#32], 3#5) := by decide
/-- V2, the last two rows. -/
theorem test_freqTest : (nextOf (exec .freqTest { running 3#5 with freq := 0#32 })).map State.pc = some 20#5 :=
  by decide
theorem test_freqTest_on : (nextOf (exec .freqTest { running 3#5 with freq :=
  4294967295#32 })).map State.pc = some 4#5 := by
  decide
/-- V3, the first column. -/
theorem test_divInit : (nextOf (exec .divInit { running 4#5 with freq := 6#32, clksel := .slow })).map
    (fun t => (t.clksel, t.div, t.dur, t.pc)) = some (.fast, 0#3, 6666666#32, 5#5) := by decide
/-- V3, the search for 21: divider 6 to 7. -/
theorem test_divStep : (nextOf (exec .divStep { running 5#5 with freq := 21#32, div := 6#3, dur := 29761#32 })).map
    (fun t => (t.div, t.dur, t.pc)) = some (7#3, 14880#32, 5#5) := by decide
/-- R141: a duration of exactly 15000 stops the search; "exceeds" is strict. -/
theorem test_divStep_strict : (nextOf (exec .divStep { running 5#5 with div := 1#3, dur := 15000#32 })).map
    (fun t => (t.div, t.dur, t.pc)) = some (1#3, 15000#32, 6#5) := by decide
/-- V3, the row of 10. -/
theorem test_fallback : (nextOf (exec .fallback { running 6#5 with freq := 10#32, div := 7#3, dur := 31250#32 })).map
    (fun t => (t.clksel, t.div, t.dur, t.pc)) = some (.slow, 0#3, 10000#32, 7#5) := by decide
/-- V3, the row of 21: `FALLBACK` changes nothing. -/
theorem test_fallback_keeps : (nextOf (exec .fallback { running 6#5 with freq := 21#32, div := 7#3, dur :=
  14880#32 })).map
    (fun t => (t.clksel, t.div, t.dur, t.pc)) = some (.fast, 7#3, 14880#32, 7#5) := by decide
/-- V4: 14998 at 33. -/
theorem test_split : (nextOf (exec .split { running 7#5 with dur := 14998#32, duty := 33#7 })).map
    (fun t => (t.durh, t.durl, t.pc)) = some (4949#32, 10048#32, 8#5) := by decide
/-- V4: 100000 at 100. -/
theorem test_split_full : (nextOf (exec .split { running 7#5 with dur := 100000#32, duty := 100#7 })).map
    (fun t => (t.durh, t.durl)) = some (100000#32, 0#32) := by decide
/-- V5: channel 0, Fast, divider 7. -/
theorem test_wrCon : busAndStep (exec .wrCon { running 8#5 with ch := 0#2, div := 7#3 }) =
    some ([.wr 0x10005010#32 .four 0x00000A0F#32, .rd 0x10005010#32 .four 0x00000A0F#32], 9#5) := by decide
/-- V5: channel 2, Slow. -/
theorem test_wrCon_slow : busAndStep (exec .wrCon { running 8#5 with ch := 2#2, clksel := .slow, div := 0#3 }) =
    some ([.wr 0x10005090#32 .four 0x00000A00#32, .rd 0x10005090#32 .four 0x00000A00#32], 9#5) := by decide
/-- V5. -/
theorem test_wrHdur : busAndStep (exec .wrHdur { running 9#5 with durh := 100000#32 }) =
    some ([.wr 0x10005054#32 .four 0x000186A0#32, .rd 0x10005054#32 .four 0x000186A0#32], 10#5) := by decide
/-- R162's worked example. -/
theorem test_wrLdur : busAndStep (exec .wrLdur (running 10#5)) =
    some ([.wr 0x10005058#32 .four 0x00001D4C#32, .rd 0x10005058#32 .four 0x00001D4C#32], 11#5) := by decide
/-- R163's worked example. -/
theorem test_wrGdur : busAndStep (exec .wrGdur (running 11#5)) =
    some ([.wr 0x1000505C#32 .four 0#32, .rd 0x1000505C#32 .four 0#32], 12#5) := by decide
/-- R164's worked example. -/
theorem test_wrSd0 : busAndStep (exec .wrSd0 (running 12#5)) =
    some ([.wr 0x10005070#32 .four 0x55555555#32, .rd 0x10005070#32 .four 0x55555555#32], 13#5) := by decide
/-- R165's worked example. -/
theorem test_wrSd1 : busAndStep (exec .wrSd1 (running 13#5)) =
    some ([.wr 0x10005074#32 .four 0x55555555#32, .rd 0x10005074#32 .four 0x55555555#32], 14#5) := by decide
/-- V5: the highest address the block forms. -/
theorem test_wrWavenum : busAndStep (exec .wrWavenum (onThree 25#7 14#5)) =
    some ([.wr 0x100050F8#32 .four 0#32, .rd 0x100050F8#32 .four 0#32], 15#5) := by decide
/-- V5: duty 0, 1, 99, 100. -/
theorem test_dutyTest : [0#7, 1#7, 99#7, 100#7].map (fun d => (nextOf (exec .dutyTest (onThree d 15#5))).map State.pc) =
    [some 16#5, some 18#5, some 18#5, some 16#5] := by decide
/-- V5. -/
theorem test_wrSd0Ovr : busAndStep (exec .wrSd0Ovr (onThree 100#7 16#5)) =
    some ([.wr 0x100050F0#32 .four 0xFFFFFFFF#32, .rd 0x100050F0#32 .four 0xFFFFFFFF#32], 17#5) := by decide
/-- V5. -/
theorem test_wrSd1Ovr : busAndStep (exec .wrSd1Ovr (onThree 0#7 17#5)) =
    some ([.wr 0x100050F4#32 .four 0#32, .rd 0x100050F4#32 .four 0#32], 18#5) := by decide
/-- V6, first row; `ENTMP` held another word. -/
theorem test_enRd2 : (nextOf (exec .enRd2 { running 18#5 with mem := (withEn 9#32).mem })).map
    (fun t => (t.entmp, t.pc)) = some (9#32, 19#5) := by decide
/-- V6, second row. -/
theorem test_enSet : busAndStep (exec .enSet { running 19#5 with ch := 2#2, entmp := 0x00000009#32 }) =
    some ([.wr 0x10005000#32 .four 0x0000000D#32, .rd 0x10005000#32 .four 0x0000000D#32], 20#5) := by decide
/-- V6, last row. -/
theorem test_finish : (nextOf (exec .finish (running 20#5))).map (fun t => (t.done, t.pc)) = some (true, 0#5) :=
  by decide
/-- R198. -/
theorem test_sFault : exec .sFault (running 31#5) = .next (running 31#5) := rfl

/-- R111's worked example: `pwm 2 0` with `EN` 0xF. -/
theorem test_pwmOff : busAndStep (exec (.pwmOff 2#2 50#7) (withEn 0x0000000F#32)) =
    some ([.rd 0x10005000#32 .four 0x0000000F#32, .wr 0x10005000#32 .four 0x0000000B#32,
      .rd 0x10005000#32 .four 0x0000000B#32], 0#5) := by decide
/-- P3, the first command's write sub-list: `pwm 3 440 100` with `EN` 0xFFFFFFF0. -/
theorem test_pwmSet_extreme : (nextOf (exec (.pwmSet 3#2 440#32 100#7) (withEn 0xFFFFFFF0#32))).map
    (fun t => (writesOf t.trace, t.trace.length)) =
    some ([(0x10005000#32, 0xFFFFFFF0#32), (0x100050D0#32, 0x00000A0B#32), (0x100050D4#32, 0x00002C63#32),
      (0x100050D8#32, 0#32), (0x100050DC#32, 0#32), (0x100050F0#32, 0x55555555#32), (0x100050F4#32, 0x55555555#32),
      (0x100050F8#32, 0#32), (0x100050F0#32, 0xFFFFFFFF#32), (0x100050F4#32, 0xFFFFFFFF#32),
      (0x10005000#32, 0xFFFFFFF8#32)], 24) := by decide
/-- V7: the Accessor refuses the fifth access. -/
theorem test_pwmSet_faults : (nextOf (exec (.pwmSet 1#2 1000#32 25#7)
      { withEn 2#32 with answers := [.stored, .stored, .stored, .stored, .refuse .cannotMapPage] })).map
    (fun t => (t.pc, t.hostView, t.trace.length, t.reg .en, faultAddress t)) =
    some (31#5, ⟨false, false, true, 10#5⟩, 7, 0#32, some 0x10005058#32) := by decide
/-- V7, second run: the first access refused. -/
theorem test_pwmSet_faults_at_once : (nextOf (exec (.pwmSet 1#2 1000#32 25#7)
      { withEn 2#32 with answers := [.refuse .cannotOpenHandle] })).map
    (fun t => (t.pc, t.fstep, t.trace, t.reg .en)) = some (31#5, 1#5, [], 2#32) := by decide
/-- U1. -/
theorem test_reserved : exec (.reserved 0#2 1#32 101#7) State.reset = .refused .reservedCommand := rfl
/-- R220, U9: reset during a hang at `EN_CLR`, the write still performed at the Target. -/
theorem test_reset_landed : (nextOf (step { running 2#5 with answers := [.silent], turns := [.reset true] })).map
    (fun t => (t.pc, t.reg .en, t.answers)) = some (0#5, 0x0000000D#32, []) := by decide
/-- R63: another instance's write of `EN` and its read-back are one step. -/
theorem test_other_access : (nextOf (step { running 2#5 with turns := [.otherAccess
      ⟨true, .four, 0x10005000#32, 7#32⟩ none] })).map (fun t => (t.pc, t.reg .en, t.trace)) =
    some (2#5, 7#32, [.wr 0x10005000#32 .four 7#32, .rd 0x10005000#32 .four 7#32]) := by decide
/-- R54: no meaning for a 2-byte access, whoever makes it. -/
theorem test_other_access_narrow : step { running 2#5 with turns := [.otherAccess
      ⟨true, .two, 0x10005000#32, 7#32⟩ none] } = .refused .narrowAccess := rfl
/-- R222, U10: after a power loss of the Target any words stand there; the block goes on. -/
theorem test_target_reset : (nextOf (step { running 2#5 with turns := [.targetReset [(.en, 0x80000000#32)]] })).map
    (fun t => (t.pc, t.entmp, t.reg .en)) = some (2#5, 0xF#32, 0x80000000#32) := by decide
/-- R95: a good line delivers its word. -/
theorem test_line_delivers : (nextOf (step { running 5#5 with turns := [.line [['2'], ['0']]] })).map State.cmds =
    some [0x0CA00000000#41] := by decide
/-- R58: with other bases the block forms other addresses. -/
theorem test_wrSd1_other_bases : busAndStep (exec .wrSd1 { running 13#5 with par := { Config.Params.default with
      addrSd1 := 0x20000004#32, chStride := 0x100#32 } }) =
    some ([.wr 0x20000104#32 .four 0x55555555#32, .rd 0x20000104#32 .four 0x55555555#32], 14#5) := by decide
/-- S7: command lines that deliver nothing. -/
theorem test_lines_refused : [[], [['1']], [['4'], ['9']], [['1'], ['-', '5']], [['1'], ['9'], ['1', '0', '1']],
  [['x'], ['9']]].map
      (assemble Config.Params.default) =
    [.rejected .missingArguments, .rejected .missingArguments, .rejected .badArgument, .rejected .badArgument,
      .rejected .badArgument, .rejected .badArgument] := by decide

/-! ### Witnesses: for every statement with hypotheses, a state and operands that meet them, clause by clause -/

/-- Next answers of each kind. -/
def answering (a : Answer) (pc : BitVec 5) : State := { running pc with answers := [a] }

theorem witness_DecodeInvertsEncode : (Instr.pwmOff 3#2 127#7).wf = true ∧ (Instr.pwmSet 3#2 1#32 100#7).wf = true ∧
    (Instr.reserved 0#2 4294967295#32 101#7).wf = true ∧ Instr.sFault.wf = true := by decide

theorem witness_EncodeInvertsDecode : decode [0x14#8] = .instr .finish ∧
    decode [0xB8#8, 0x01#8, 0x00#8, 0x00#8, 0x93#8, 0x01#8] = .instr (.pwmSet 3#2 440#32 100#7) := by decide

theorem witness_CommandWordSelectsByTwoTests :
    0x1FD00000000#41 &&& 0x000FFFFFFFF#41 = 0x00000000000#41 ∧
    (0x193000001B8#41 &&& 0x000FFFFFFFF#41 ≠ 0x00000000000#41 ∧
      ((0x193000001B8#41).extractLsb' 34 7).toNat = 100) ∧
    (0x19400000001#41 &&& 0x000FFFFFFFF#41 ≠ 0x00000000000#41 ∧
      ((0x19400000001#41).extractLsb' 34 7).toNat = 101) := by decide

theorem witness_AccessorWordsReadBack : requestOf (running 1#5) .enRd1 = some (readReq Config.Params.default .en) ∧
    (readReq Config.Params.default .en).write = false ∧ (readReq Config.Params.default .en).size = .four ∧
    requestOf (running 8#5) .wrCon = some (writeReq Config.Params.default (.chan .con 1#2) 0x00000A0A#32) := by decide

theorem witness_AddressIsBaseChannelOffset : (ChanReg.wavenum, 0x38#6) ∈
      [(ChanReg.con, 0x10#6), (.hdur, 0x14#6), (.ldur, 0x18#6), (.gdur, 0x1C#6), (.sd0, 0x30#6), (.sd1, 0x34#6),
        (.wavenum, 0x38#6)] ∧
    Config.Params.default.AsPrinted ∧
    [0x100050F8#32, 0x10005000#32, 0x10005004#32, 0x100050FC#32, 0x10005040#32].map (regOfAddr Config.Params.default) =
      [some (.chan .wavenum 3#2), some .en, none, none, none] := by decide

theorem writing_inv : BlockInv (running 8#5) := by constructor <;> decide

theorem witness_ControlWordFieldsReadBack : BlockInv (running 8#5) ∧ (running 8#5).par = Config.Params.default ∧
    (requestOf (running 8#5) .wrCon).map Request.value = some 0x00000A0A#32 ∧ Config.Params.default.legal = true ∧
    (Config.Params.printed 0x80000000#32 0xAAAAAAAA#32).legal = true :=
  ⟨writing_inv, rfl, by decide, rfl, rfl⟩

theorem witness_OpenParametersAreChecked : (Config.Params.printed 0x00000010#32 0xAAAAAAAA#32).legal = true ∧
    (Config.Params.printed 0x00000010#32 0xAAAAAAAA#32).AsPrinted ∧
    ({ Config.Params.default with addrEn := 0x40000000#32, chStride := 0x100#32 } : Config.Params).legal = true ∧
    ({ Config.Params.default with addrEn := 0x40000002#32 } : Config.Params).legal = false ∧
    ({ State.reset with par := Config.Params.printed 0x00000200#32 0x55555555#32 } : State).par.legal = false :=
      by decide

theorem witness_StepRunsTheDecodedInstruction :
    ((running 8#5).par.legal = true ∧ BlockActs (running 8#5) ∧ decode [0#3 ++ (running 8#5).pc] = .instr .wrCon) ∧
    BlockActs { running 8#5 with turns := [.block, .reset true] } ∧
    decode (codeBytes (.cmd 0x065000003E8#41)) = .instr (.pwmSet 1#2 1000#32 25#7) :=
  ⟨⟨rfl, .inl rfl, rfl⟩, .inr rfl, by decide⟩

theorem witness_PlacedWordIsRunByTheNextStep : State.reset.par.legal = true ∧
    decodeTableWord 48 0x0CA00000000 = some (.pwmOff 2#2 50#7) ∧ decodeTableWord 8 31 = some .sFault := by decide

theorem witness_StepOrderFollowsTheTable :
    [(Instr.accept, 0#5), (.enRd1, 1#5), (.divStep, 5#5), (.wrWavenum, 14#5), (.sFault, 31#5)].map
      (fun p => (decodeStep p.2, (nextOf (exec p.1 (running p.2))).map State.pc)) =
    [(some .accept, some 0#5), (some .enRd1, some 2#5), (some .divStep, some 6#5), (some .wrWavenum, some 15#5),
      (some .sFault, some 31#5)] ∧
    (nextOf (exec .enSet (answering (.refuse .cannotMapPage) 19#5))).map State.pc = some 31#5 ∧
    (nextOf (exec .enSet (answering .silent 19#5))).map State.pc = some 19#5 := by decide

theorem witness_UnusedStepCodeIsStuck : (running 21#5).par.legal = true ∧ BlockActs (running 21#5) ∧
    21 ≤ (running 21#5).pc.toNat ∧ (running 30#5).pc.toNat ≤ 30 :=
  ⟨rfl, .inl rfl, by decide, by decide⟩

theorem witness_OtherMastersLeaveTheBlockAlone : (running 19#5).par.legal = true ∧
    [Turn.otherWrite (regAddr (running 19#5).par .en) 5#32, .otherRead 0x100050F4#32 5#32,
      .otherAccess ⟨true, .four, 0x100050F4#32, 5#32⟩ none, .otherAccess ⟨false, .four, 0x10005000#32,
        5#32⟩ (some 6#32),
      .targetReset [(.en, 8#32)]].all (fun turn =>
        (nextOf (step { running 19#5 with turns := [turn] })).map (fun t => (t.pc, t.entmp, t.turns)) ==
          some (19#5, 0x0000000F#32, [])) = true ∧
    regAddr (running 19#5).par (.chan .sd1 3#2) = 0x100050F4#32 := by decide

theorem witness_AcceptLatchesTheCommand : State.reset.cmds = [] ∧
    (nextOf (exec .accept { State.reset with cmds := [0x0CA00000000#41] })).map State.busy = some true ∧
    (nextOf (exec .divStep { running 5#5 with cmds := [0x0CA00000000#41] })).map State.cmds = some [0x0CA00000000#41] ∧
    ((0x19400000001#41).extractLsb' 0 32 ≠ 0#32 ∧ 100 < ((0x19400000001#41).extractLsb' 34 7).toNat) ∧
    (0x1FD00000000#41).extractLsb' 0 32 = 0#32 ∧ ((0x193000001B8#41).extractLsb' 34 7).toNat ≤ 100 := by decide

theorem witness_EnableReadsFillTheTemporary :
    wordGiven ((running 1#5).mem.word 0x10005000#32) (nextAnswer (running 1#5)) = some 0x0000000F#32 ∧
    wordGiven ((running 18#5).mem.word 0x10005000#32) (nextAnswer (answering (.word 9#32) 18#5)) = some 9#32 ∧
    nextAnswer (answering (.refuse .cannotOpenHandle) 1#5) = .refuse .cannotOpenHandle := by decide

theorem witness_EnableWritesChangeOneBit :
    wordGiven 0x0000000D#32 (nextAnswer (running 2#5)) = some 0x0000000D#32 ∧
    wordGiven 0x0000000F#32 (nextAnswer (answering (.word 9#32) 19#5)) = some 9#32 ∧
    nextAnswer (answering (.refuse .cannotMapPage) 2#5) = .refuse .cannotMapPage := by decide

theorem witness_DivInitStartsTheSearch : (running 4#5).freq ≠ 0#32 := by decide

theorem witness_DivStepRaisesTheDivider :
    (15000 < ({ running 5#5 with dur := 15001#32, div := 6#3 } : State).dur.toNat ∧ (6#3).toNat < 7) ∧
    ({ running 5#5 with dur := 15000#32 } : State).dur.toNat ≤ 15000 ∧
    ({ running 5#5 with dur := 15001#32, div := 7#3 } : State).div.toNat = 7 := by decide

theorem witness_FallbackTakesTheSlowClock : (running 6#5).freq ≠ 0#32 ∧
    15000 < ({ running 6#5 with dur := 15001#32 } : State).dur.toNat ∧
    ({ running 6#5 with dur := 15000#32 } : State).dur.toNat ≤ 15000 := by decide

theorem witness_SplitDividesTheDuration : (onThree 0#7 7#5).duty.toNat ≤ 100 ∧
  (onThree 100#7 7#5).duty.toNat ≤ 100 := by
  decide

/-- The search at 21 Hz with divider 6, where the product grows to its largest. -/
def searching : State := { running 5#5 with freq := 21#32, div := 6#3, dur := 29761#32 }

theorem searching_inv : BlockInv searching := by constructor <;> decide

theorem leaving_inv : BlockInv { searching with pc := 6#5, freq := 20#32, div := 7#3, dur := 15625#32 } := by
  constructor <;> decide

theorem splitting_inv : BlockInv { running 7#5 with freq := 1#32, clksel := .slow, div := 0#3, dur := 100000#32 } := by
  constructor <;> decide

theorem starting_inv : BlockInv (running 4#5) := by constructor <;> decide

theorem witness_CalculatorStaysInRange : BlockInv (running 4#5) ∧ BlockInv searching ∧ searching.pc = 5#5 ∧
    (nextOf (exec .divStep searching)).map State.pc = some 5#5 :=
  ⟨starting_inv, searching_inv, rfl, by decide⟩

theorem witness_CalculatorClosedForm : (21#32) ≠ 0#32 ∧ 21 ≤ (21#32).toNat ∧ (20#32).toNat ≤ 20 := by decide

theorem witness_SelectionIsTheBestWithinTheLimit :
    (∃ d ≤ 7, 40000000 / (2 ^ d * (21#32).toNat) ≤ 15000) ∧ 100000 / (7#32).toNat ≤ 15000 ∧
    (timing Config.Params.default 6#32).mode = .slow ∧ (timing Config.Params.default 21#32).mode = .fast := by decide

theorem witness_SplitDriftsAtMostOneTick : (100#7).toNat ≤ 100 ∧ (0 < (1#7).toNat ∧ (1#7).toNat < 100) ∧
    (0#7).toNat = 0 ∧ (100#7).toNat = 100 := by decide

theorem witness_FrequencyErrorIsUpward : (20#32) ≠ 0#32 ∧ (timing Config.Params.default 20#32).mode = .slow ∧
    0 < (timing Config.Params.default 20#32).dur.toNat ∧ (timing Config.Params.default 40000000#32).mode = .fast ∧
      0 < (timing Config.Params.default 40000000#32).dur.toNat := by decide

theorem witness_WrConWritesTheControlWord :
    wordGiven 0x00000A0A#32 (nextAnswer (running 8#5)) = some 0x00000A0A#32 ∧
    nextAnswer (answering (.refuse .cannotMapPage) 8#5) = .refuse .cannotMapPage := by decide

theorem witness_ConfigurationWritesFollowTheTable :
    wordGiven (running 9#5).durh (nextAnswer (answering (.word 7#32) 9#5)) = some 7#32 ∧
    wordGiven 0#32 (nextAnswer (running 14#5)) = some 0#32 ∧
    nextAnswer (answering (.refuse .cannotMapPage) 10#5) = .refuse .cannotMapPage := by decide

theorem witness_OverridesWriteAllZeroOrAllOne :
    wordGiven 0#32 (nextAnswer (onThree 0#7 16#5)) = some 0#32 ∧
    wordGiven 0xFFFFFFFF#32 (nextAnswer (onThree 100#7 17#5)) = some 0xFFFFFFFF#32 ∧
    nextAnswer (answering (.refuse .cannotMapPage) 16#5) = .refuse .cannotMapPage := by decide

theorem witness_PwmOffClearsTheEnableBit : (withEn 15#32).pc = 0#5 ∧
    nextAnswer { withEn 15#32 with answers := [.refuse .cannotMapPage] } = .refuse .cannotMapPage ∧
    ([.stored, .refuse .cannotOpenHandle] : List Answer).tail.headD .stored = .refuse .cannotOpenHandle ∧
    wordGiven ((withEn 15#32).mem.word 0x10005000#32) (nextAnswer (withEn 15#32)) = some 15#32 ∧
    wordGiven 0x0000000B#32 ((withEn 15#32).answers.tail.headD .stored) = some 0x0000000B#32 := by decide

/-- Answers for the eleven accesses of a `PWM.SET`, the two reads of `EN` answered with words of their own. -/
def elevenAnswers : List Answer :=
  [.word 0xFFFFFFFF#32, .stored, .stored, .word 1#32, .stored, .stored, .stored, .stored, .stored,
    .word 0xFFFFFFF0#32, .word 3#32]

theorem witness_PwmSetConfiguresAndEnables :
    wordGiven ((withEn 2#32).mem.word 0x10005000#32) (elevenAnswers.headD .stored) = some 0xFFFFFFFF#32 ∧
    wordGiven 0xFFFFFFFD#32 (elevenAnswers.tail.headD .stored) = some 0xFFFFFFFD#32 ∧
    readBacks (setWrites Config.Params.default 1#2 1000#32 25#7) (elevenAnswers.drop 2) =
      some [0x00000A0A#32, 1#32, 7500#32, 0#32, 0x55555555#32, 0x55555555#32, 0#32] ∧
    elevenAnswers.drop (2 + (setWrites Config.Params.default 1#2 1000#32 25#7).length) =
      [.word 0xFFFFFFF0#32, .word 3#32] ∧
    (setWrites Config.Params.default 1#2 1000#32 100#7).length = 9 ∧
    (nextOf (exec (.pwmSet 1#2 1000#32 100#7)
      { withEn 2#32 with answers := List.replicate 12 .stored ++ [.refuse .cannotMapPage] })).map
      (fun t => (t.pc, t.fstep, t.done)) = some (31#5, 19#5, false) := by decide

theorem witness_ReservedWordsAreRefused : (1#32) ≠ 0#32 ∧ 101 ≤ (101#7).toNat ∧
    ({ State.reset with cmds := [cmdWord 0#2 1#32 101#7] } : State).cmds = cmdWord 0#2 1#32 101#7 :: [] := by decide

theorem witness_CommandsWaitUntilIdle : (running 5#5).pc ≠ 0#5 ∧ (running 31#5).pc ≠ 0#5 ∧ (100#7).toNat ≤ 100 := by
  decide

/-- Reset with one command presented. -/
def presenting (w : BitVec 41) (as : List Answer) : State := { State.reset with cmds := [w], answers := as }

theorem witness_MicroStepsComposeToTheCommand (w : BitVec 41) (as : List Answer) :
    (presenting w as).par.legal = true ∧ (presenting w as).pc = 0#5 ∧
    (presenting w as).turns = [] ∧ (presenting w as).cmds = [w] :=
  ⟨by simp only [presenting]; decide, rfl, rfl, rfl⟩

theorem witness_CommandsCompleteWithinTwentyEightSteps : AllServe (presenting 0x0CA00000000#41 []).answers ∧
    AllServe (presenting 0x193000001B8#41 [.word 5#32]).answers ∧
    (0x0CA00000000#41).extractLsb' 0 32 = 0#32 ∧ ((0x193000001B8#41).extractLsb' 34 7).toNat ≤ 100 :=
  ⟨by simp [AllServe, presenting], by simp [AllServe, presenting, wordGiven], by decide, by decide⟩

/-- The premises of the statements about a served command: idle, served, duty at its bounds. -/
theorem witness_served_commands : (withEn 15#32).pc = 0#5 ∧ AllServe (withEn 15#32).answers ∧
    AllServe ({ withEn 15#32 with answers := elevenAnswers } : State).answers ∧ (1#32) ≠ 0#32 ∧
    (0#7).toNat ≤ 100 ∧ (100#7).toNat ≤ 100 :=
  ⟨rfl, by simp [AllServe, withEn, State.reset], by simp [AllServe, elevenAnswers, wordGiven], by decide, by decide,
    by decide⟩

theorem witness_OffWritesOnlyTheEnableClear : (withEn 15#32).pc = 0#5 ∧ AllServe (withEn 15#32).answers :=
  ⟨rfl, witness_served_commands.2.1⟩

theorem witness_DisableFirstEnableLast : (withEn 15#32).pc = 0#5 ∧ AllServe (withEn 15#32).answers ∧
    (1#32) ≠ 0#32 ∧ (100#7).toNat ≤ 100 :=
  ⟨rfl, witness_served_commands.2.1, by decide, by decide⟩

theorem witness_RepeatedCommandIsIdempotent : (withEn 2#32).pc = 0#5 ∧ (withEn 2#32).answers = [] ∧
    ((0x0C802625A00#41).extractLsb' 34 7).toNat ≤ 100 ∧ (0x0CA00000000#41).extractLsb' 0 32 = 0#32 := by decide

/-- The middle of `pwm 1 0`: `EN_CLR` has cleared the bit (R115). -/
def offTesting (en : Word) : State := { running 3#5 with freq := 0#32, mem := (withEn en).mem }

theorem offTesting_inv : BlockInv (offTesting 13#32) := by constructor <;> decide

theorem witness_ChannelStateMachine : (withEn 15#32).pc = 0#5 ∧ AllServe (withEn 15#32).answers ∧
    ((withEn 15#32).reg .en).getLsbD (1#2).toNat = true ∧
    (({ running 19#5 with mem := (withEn 0#32).mem } : State).reg .en).getLsbD (1#2).toNat = false ∧
    (running 3#5).ch = 1#2 ∧ 3 ≤ (running 3#5).pc.toNat ∧ (running 19#5).pc.toNat ≤ 19 ∧
    (running 2#5).pc.toNat < 3 ∧ 19 < (running 20#5).pc.toNat ∧ (running 5#5).ch ≠ 0#2 ∧
    BlockInv (offTesting 13#32) ∧
    (channelCondition (offTesting 13#32) 1#2, commandCondition (offTesting 13#32) 1#2) = (.configuring, .disabled) ∧
    [1#5, 3#5, 19#5, 20#5].map (fun code =>
      commandCondition { running 31#5 with fstep := code, mem := (withEn 0#32).mem } 1#2) =
        [.disabled, .configuring, .configuring, .disabled] ∧
    (nextOf (exec (.pwmSet 1#2 1000#32 25#7)
      { withEn 2#32 with answers := [.stored, .stored, .refuse .cannotMapPage] })).map
      (fun t => (t.pc, commandCondition t 1#2)) = some (31#5, .configuring) :=
  ⟨rfl, witness_served_commands.2.1, by decide, by decide, by decide, by decide, by decide, by decide, by decide,
    by decide, offTesting_inv, by decide, by decide, by decide⟩

theorem witness_SendDataEndsAtTheExtremes : (withEn 15#32).pc = 0#5 ∧ AllServe (withEn 15#32).answers ∧
    (440#32) ≠ 0#32 ∧ (0#7).toNat ≤ 100 ∧ (100#7).toNat ≤ 100 :=
  ⟨rfl, witness_served_commands.2.1, by decide, by decide, by decide⟩

theorem refusing_inv : BlockInv (answering (.refuse .cannotMapPage) 10#5) := by constructor <;> decide

theorem witness_RefusedAccessTakesTheException : (Instr.wrLdur, 10#5) ∈ accessing ∧
    nextAnswer (answering (.refuse .cannotOpenHandle) 10#5) = .refuse .cannotOpenHandle ∧
    nextAnswer (answering (.refuse .cannotMapPage) 10#5) = .refuse .cannotMapPage := by decide

theorem witness_OnlyAccessesRaise :
    (nextOf (exec .wrLdur (answering (.refuse .cannotMapPage) 10#5))).map State.pc = some 31#5 ∧
    (running 10#5).pc ≠ 31#5 ∧
    (nextOf (exec (.pwmOff 1#2 0#7) { withEn 1#32 with answers := [.stored, .refuse .cannotMapPage] })).map State.pc =
      some 31#5 := by decide

theorem witness_FaultStateIsAbsorbing : (running 31#5).pc = 31#5 ∧ BlockActs (running 31#5) ∧
    (nextOf (step { running 31#5 with turns := [.call 0x0CA00000000#41] })).map State.cmds = some [0x0CA00000000#41] :=
  ⟨rfl, .inl rfl, by decide⟩

theorem witness_FaultLeavesTheTable :
    (nextOf (exec (.pwmSet 1#2 1000#32 100#7) { withEn 2#32 with answers := [.refuse .cannotMapPage] })).map
      (fun t => (t.pc, t.fstep)) = some (31#5, 1#5) ∧
    (nextOf (exec (.pwmSet 1#2 1000#32 100#7)
      { withEn 2#32 with answers := List.replicate 10 .stored ++ [.refuse .cannotMapPage] })).map
      (fun t => (t.pc, t.fstep)) = some (31#5, 17#5) ∧
    (nextOf (exec (.pwmSet 1#2 1000#32 25#7)
      { withEn 2#32 with answers := List.replicate 10 .stored ++ [.refuse .cannotMapPage] })).map
      (fun t => (t.pc, t.fstep)) = some (31#5, 19#5) := by decide

theorem witness_SilentTargetHoldsTheBlock : (Instr.enSet, 19#5) ∈ accessing ∧ (answering .silent 19#5).pc = 19#5 ∧
    nextAnswer (answering .silent 19#5) = .silent ∧ (answering .silent 19#5).par.legal = true ∧
    (answering .silent 19#5).turns = [] := by decide

theorem witness_ResetReturnsToIdle : (running 5#5).par.legal = true ∧ ¬ Hung (running 5#5) ∧
    Hung (answering .silent 2#5) ∧
      requestAt (answering .silent 2#5) = some (writeReq Config.Params.default .en 0x0000000D#32) ∧
    Hung (answering .silent 18#5) ∧ requestAt (answering .silent 18#5) = some (readReq Config.Params.default .en) :=
  ⟨rfl, by simp [Hung, running, withEn, State.reset], ⟨rfl, rfl⟩, by decide, ⟨rfl, rfl⟩, by decide⟩

theorem witness_RegisterOnlyStepsFrame :
    [Instr.accept, .freqTest, .divInit, .divStep, .fallback, .split, .dutyTest, .finish, .sFault].all
      (fun i => (nextOf (exec i { running 4#5 with cmds := [0x065000003E8#41] })).isSome) = true := by decide

theorem witness_AccessingStepsFrame : accessing.all (fun p => (nextOf (exec p.1 (running p.2))).isSome) = true := by
  decide

theorem witness_CommandsFrame : (nextOf (exec (.pwmOff 1#2 0#7) (withEn 2#32))).isSome = true ∧
    (nextOf (exec (.pwmSet 1#2 7#32 0#7) (withEn 2#32))).isSome = true := by decide

theorem witness_DoneChangesOnlyAtFinishAndAccept :
    (nextOf (exec .finish (running 20#5))).map State.done = some true ∧ (running 20#5).done = false ∧
    (nextOf (exec .accept { State.reset with done := true, cmds := [0#41] })).map State.done = some false := by decide

theorem witness_TargetIsStorage : (withEn 15#32).mem.wf = true ∧
    ((withEn 15#32).mem.putWord 0x100050F8#32 7#32).wf = true := by decide

theorem witness_BusTrafficStaysOnTheMap : (nextOf (exec .wrWavenum (onThree 25#7 14#5))).isSome = true ∧
    exec (.reserved 0#2 1#32 101#7) State.reset = .refused .reservedCommand :=
  ⟨by decide, rfl⟩

theorem witness_UpdateBetweenReadAndWriteIsLost :
    (running 1#5).pc = 1#5 ∧
    ({ running 18#5 with turns := [.block, .otherWrite 0x10005000#32 7#32, .block] } : State).par.legal = true ∧
    (running 18#5).pc = 18#5 ∧ (running 18#5).par.AsPrinted ∧
    wordGiven ((running 1#5).reg .en) (nextAnswer (answering (.word 0x30#32) 1#5)) = some 0x30#32 ∧
    (wordGiven 0x30#32 ((answering (.word 0x30#32) 1#5).answers.tail.headD .stored)).isSome = true := by decide

theorem witness_InvariantIsKeptByEveryStep : Inv searching ∧
    (nextOf (step searching)).map State.div = some 7#3 :=
  ⟨⟨searching_inv, by constructor <;> decide⟩, by decide⟩

theorem witness_EarlierValuesNeverMatter : (presenting 0x065000003E8#41 []).pc = 0#5 ∧
    DifferOnlyInDeadRegisters (presenting 0x065000003E8#41 [])
      { presenting 0x065000003E8#41 [] with dur := 7#32, entmp := 9#32, duty := 127#7, fstep := 3#5 } :=
  ⟨rfl, rfl, rfl, rfl, rfl, rfl, rfl, rfl⟩

theorem witness_CommandSurfaceValidates : decimal ['3'] = some 3 ∧ decimal ['4'] = some 4 ∧
    decimal ['4', '2', '9', '4', '9', '6', '7', '2', '9', '5'] = some 4294967295 ∧
    decimal ['4', '2', '9', '4', '9', '6', '7', '2', '9', '6'] = some 4294967296 ∧
    decimal ['1', '0', '0'] = some 100 ∧ decimal ['1', '0', '1'] = some 101 ∧ decimal ['x'] = none ∧ decimal [] = none ∧
    ([] : List (List Char)).length < 2 ∧ assemble Config.Params.default [['4'], ['9']] = .rejected .badArgument ∧
    assemble Config.Params.default [['1'], ['1', '0', '0', '0'], ['2', '5']] = .command 0x065000003E8#41 ∧
    (running 31#5).par.legal = true ∧ endingOf (running 31#5) = some .accessFault ∧
    endingOf (running 5#5) = none := by decide

end Sys2Proof.Tests
end

section
/-! PROOFS. The OPEN parameters (spec/00_scope.md R9): what the two tests of `Params.openLegal` and the alignment test
say bit by bit. -/

namespace Sys2Proof.Config

/-! ### `FAST_BIT` -/

/-- The test `w & (w - 1) = 0` on a word that is not 0 finds the words with exactly one bit set. -/
theorem singleBit_iff (w : Word) :
    (w ≠ 0#32 ∧ w &&& (w - 1#32) = 0#32) ↔ ∃ n : Nat, n < 32 ∧ w = 1#32 <<< n := by
  constructor
  · rintro ⟨hne, hand⟩
    have hpos : w.toNat ≠ 0 := fun h => hne (BitVec.eq_of_toNat_eq h)
    have hlt := w.isLt
    have hsub : (w - 1#32).toNat = w.toNat - 1 := by
      simp only [BitVec.toNat_sub, BitVec.toNat_ofNat]
      omega
    have hnat : w.toNat &&& (w.toNat - 1) = 0 := by
      rw [← hsub, ← BitVec.toNat_and, hand]
      rfl
    obtain ⟨n, hn⟩ := Nat.ne_zero_and_sub_one_eq_zero_iff_isPowerOfTwo.mp ⟨hpos, hnat⟩
    have hn32 : n < 32 := (Nat.pow_lt_pow_iff_right (by decide)).mp (hn ▸ hlt)
    refine ⟨n, hn32, BitVec.eq_of_toNat_eq ?_⟩
    rw [← BitVec.twoPow_eq, BitVec.toNat_twoPow_of_lt hn32, hn]
  · rintro ⟨n, hn, rfl⟩
    revert n
    decide

/-- A single bit misses `CON_MODE_BITS | 0x7` as printed exactly when it is none of the mode bits 9 and 11 and of the
divider bits 0 to 2. -/
theorem singleBit_misses_iff {n : Nat} (h : n < 32) :
    (1#32 <<< n) &&& (0x00000A00#32 ||| 0x7#32) = 0#32 ↔ n ∉ [0, 1, 2, 9, 11] := by
  revert n
  decide

/-! ### `SEND_PATTERN` -/

/-- Adjacent bits of the word all differ. -/
def Alternates (w : Word) : Prop := ∀ n : Nat, n < 31 → w.getLsbD n ≠ w.getLsbD (n + 1)

/-- Bit 0 fixes an alternating word. -/
theorem Alternates.eq_of_bit_zero {v w : Word} (hv : Alternates v) (hw : Alternates w)
    (h0 : v.getLsbD 0 = w.getLsbD 0) : v = w := by
  apply BitVec.eq_of_getLsbD_eq
  intro i hi
  induction i with
  | zero => exact h0
  | succ n ih =>
    have hvn : v.getLsbD (n + 1) = !v.getLsbD n := Bool.eq_not.mpr (hv n (by omega)).symm
    have hwn : w.getLsbD (n + 1) = !w.getLsbD n := Bool.eq_not.mpr (hw n (by omega)).symm
    rw [hvn, hwn, ih (by omega)]

theorem alternates_0x55555555 : Alternates 0x55555555#32 := by unfold Alternates; decide

theorem alternates_0xAAAAAAAA : Alternates 0xAAAAAAAA#32 := by unfold Alternates; decide

/-- There are two alternating words, one for each value of bit 0. -/
theorem alternates_iff (w : Word) : Alternates w ↔ w = 0x55555555#32 ∨ w = 0xAAAAAAAA#32 := by
  constructor
  · intro hw
    cases h0 : w.getLsbD 0 with
    | true => exact .inl (hw.eq_of_bit_zero alternates_0x55555555 h0)
    | false => exact .inr (hw.eq_of_bit_zero alternates_0xAAAAAAAA h0)
  · rintro (rfl | rfl)
    · exact alternates_0x55555555
    · exact alternates_0xAAAAAAAA

/-! ### The three tests together -/

/-- R9 for any mode bits, its Boolean tests read as propositions. -/
theorem Params.openLegal_iff (p : Params) :
    p.openLegal = true ↔
      ((p.fastBit ≠ 0#32 ∧ p.fastBit &&& (p.fastBit - 1#32) = 0#32) ∧
        p.fastBit &&& (p.conModeBits ||| 0x7#32) = 0#32) ∧
      Alternates p.sendPattern := by
  simp [Params.openLegal, alternates_iff]

/-- The printed bases and the printed stride are multiples of 4. -/
theorem Params.AsPrinted.aligned {p : Params} (hp : p.AsPrinted) : p.aligned = true := by
  rw [hp]
  simp [Params.aligned, Params.printed]

/-- R9 with the printed mode bits: where `FAST_BIT` may stand, and that `SEND_PATTERN` alternates. -/
theorem Params.AsPrinted.legal_iff {p : Params} (hp : p.AsPrinted) :
    p.legal = true ↔
      (∃ n : Nat, n < 32 ∧ p.fastBit = 1#32 <<< n ∧ n ∉ [0, 1, 2, 9, 11]) ∧ Alternates p.sendPattern := by
  rw [Params.legal, hp.aligned, Bool.and_true, Params.openLegal_iff, hp.conModeBits, singleBit_iff]
  refine and_congr_left' ?_
  constructor
  · rintro ⟨⟨n, hn, hbit⟩, hmiss⟩
    exact ⟨n, hn, hbit, (singleBit_misses_iff hn).mp (hbit ▸ hmiss)⟩
  · rintro ⟨n, hn, hbit, hout⟩
    exact ⟨⟨n, hn, hbit⟩, hbit ▸ (singleBit_misses_iff hn).mpr hout⟩

/-- Under any legal table `SEND_PATTERN` is one of the two alternating words. -/
theorem Params.sendPattern_of_legal {p : Params} (h : p.legal = true) :
    p.sendPattern = 0x55555555#32 ∨ p.sendPattern = 0xAAAAAAAA#32 := by
  rw [Params.legal, Bool.and_eq_true] at h
  exact (alternates_iff _).mp ((p.openLegal_iff.mp h.1).2)

/-! ### Alignment -/

/-- The test `a & 3 = 0` finds the multiples of 4. -/
theorem and_three_eq_zero_iff (a : Word) : a &&& 0x3#32 = 0#32 ↔ 4 ∣ a.toNat := by
  rw [← BitVec.toNat_inj, BitVec.toNat_and, Nat.dvd_iff_mod_eq_zero]
  exact iff_of_eq (congrArg (· = 0) (Nat.and_two_pow_sub_one_eq_mod a.toNat 2))

theorem Params.aligned_iff (p : Params) :
    p.aligned = true ↔ 4 ∣ p.chStride.toNat ∧ 4 ∣ (regAddr p .en).toNat ∧ ∀ k, 4 ∣ (chanBase p k).toNat := by
  have hall (P : ChanReg → Prop) : (∀ k, P k) ↔
      P .con ∧ P .hdur ∧ P .ldur ∧ P .gdur ∧ P .sd0 ∧ P .sd1 ∧ P .wavenum :=
    ⟨fun h => ⟨h _, h _, h _, h _, h _, h _, h _⟩, fun h k => by cases k <;> simp [h]⟩
  simp [Params.aligned, hall, chanBase, regAddr, and_three_eq_zero_iff]

/-- Where the bases and the stride are multiples of 4, so is every register's address: `2 ^ 32` is one, so the sums and
products may wrap (spec/20_memory.md R60). -/
theorem four_dvd_regAddr {p : Params} (h : p.aligned = true) (r : Reg) : 4 ∣ (regAddr p r).toNat := by
  obtain ⟨hstride, hen, hbase⟩ := p.aligned_iff.mp h
  have hwrap : (4 : Nat) ∣ 2 ^ 32 := by decide
  cases r with
  | en => exact hen
  | chan k c =>
    rw [regAddr, BitVec.toNat_add, Nat.dvd_mod_iff hwrap, chOff, BitVec.toNat_mul]
    exact (hbase k).add ((Nat.dvd_mod_iff hwrap).mpr (hstride.mul_right _))

end Sys2Proof.Config

namespace Sys2Proof.Machine

/-- The parameters are checked before any turn is taken (spec/00_scope.md R9, log 18). -/
theorem step_illegalParameters {s : State} (h : s.par.legal = false) : step s = .refused .illegalParameters := by
  simp [step, checkedTurn, h]

/-- Settles O8: R9's tests read bit by bit with the printed table, and alignment kept by the address assembly. -/
theorem openParametersAreChecked : Obligations.OpenParametersAreChecked := by
  refine ⟨fun p hp => hp.legal_iff, fun p => Config.Params.sendPattern_of_legal, fun p h r => ?_,
    fun s => step_illegalParameters⟩
  rw [Config.Params.legal, Bool.and_eq_true] at h
  exact Nat.dvd_iff_mod_eq_zero.mp (Config.four_dvd_regAddr h.2 r)

end Sys2Proof.Machine
end

section
/-! PROOFS. The frame of the whole commands (spec/40_command.md R111, R112): one relation between the state that has
latched a command and every state the command can end in, kept by each access and by the calculator. -/

namespace Sys2Proof.Machine

open Sys2Proof.Safety

/-! ### The frame of a latched command -/

/-- The registers of the Target that the latched command may write: Global Enable, and for a frequency other than 0
those of its own channel (spec/00_scope.md R7). -/
def MayWrite (s : State) (r : Reg) : Prop := r = .en ∨ s.freq ≠ 0#32 ∧ ∃ k, r = .chan k s.ch

/-- The byte address `a` is none of the four of the register `r`. -/
def Outside (p : Config.Params) (r : Reg) (a : Nat) : Prop :=
  a < (regAddr p r).toNat ∨ (regAddr p r).toNat + 4 ≤ a

/-- What the command latched in `s` leaves alone on its way to `t`: the operands that say what it is, the turns and the
parameters, with frequency 0 every computed register, and every byte outside the registers it may write. -/
structure CommandFrame (s t : State) : Prop where
  ch : t.ch = s.ch
  freq : t.freq = s.freq
  turns : t.turns = s.turns
  par : t.par = s.par
  computed : s.freq = 0#32 →
    t.clksel = s.clksel ∧ t.div = s.div ∧ t.dur = s.dur ∧ t.durh = s.durh ∧ t.durl = s.durl
  memory : ∀ a, (∀ r, MayWrite s r → Outside s.par r a) → t.mem.byte a = s.mem.byte a

theorem CommandFrame.trans {s u t : State} (hsu : CommandFrame s u) (hut : CommandFrame u t) : CommandFrame s t where
  ch := hut.ch.trans hsu.ch
  freq := hut.freq.trans hsu.freq
  turns := hut.turns.trans hsu.turns
  par := hut.par.trans hsu.par
  computed hf := by
    obtain ⟨h₁, h₂, h₃, h₄, h₅⟩ := hsu.computed hf
    obtain ⟨k₁, k₂, k₃, k₄, k₅⟩ := hut.computed (hsu.freq.trans hf)
    exact ⟨k₁.trans h₁, k₂.trans h₂, k₃.trans h₃, k₄.trans h₄, k₅.trans h₅⟩
  memory a ha := by
    refine (hut.memory a fun r hr => ?_).trans (hsu.memory a ha)
    rw [hsu.par]
    exact ha r (by simpa only [MayWrite, hsu.ch, hsu.freq] using hr)

/-- A served write to a register that the command may write keeps the frame. -/
theorem commandFrame_afterWrite {r : Reg} {s : State} (hr : MayWrite s r) (v x : Word) :
    CommandFrame s (afterWrite (regAddr s.par r) v x s) where
  ch := rfl
  freq := rfl
  turns := rfl
  par := rfl
  computed _ := ⟨rfl, rfl, rfl, rfl, rfl⟩
  memory _ ha := Memory.byte_putWord_outside _ _ _ (ha r hr)

/-- The calculator writes computed registers only, and runs for a frequency other than 0 only. -/
theorem commandFrame_compute {s : State} (hf : s.freq ≠ 0#32) : CommandFrame s (compute s) where
  ch := rfl
  freq := rfl
  turns := rfl
  par := rfl
  computed h0 := absurd h0 hf
  memory _ _ := rfl

/-- Every next state that `x` can be keeps the frame of `s`, and has another `FSTEP` only in the fault state. -/
def EndsInFrame (s : State) (x : Result) : Prop :=
  ∀ t, x = .next t → CommandFrame s t ∧ (t.fstep = s.fstep ∨ t.pc = 31#5)

theorem endsInFrame_next {s t : State} (hframe : CommandFrame s t) (hf : t.fstep = s.fstep ∨ t.pc = 31#5) :
    EndsInFrame s (.next t) := by
  rintro _ ⟨⟩
  exact ⟨hframe, hf⟩

/-- What goes on from a state within the frame ends in the frame. -/
theorem CommandFrame.endsInFrame {s u : State} {x : Result} (hsu : CommandFrame s u) (hf : u.fstep = s.fstep)
    (hx : EndsInFrame u x) : EndsInFrame s x := by
  intro t ht
  obtain ⟨hut, hfault⟩ := hx t ht
  exact ⟨hsu.trans hut, hf ▸ hfault⟩

/-! ### The parts of a command -/

theorem endsInFrame_finished (s : State) : EndsInFrame s (.next (finished s)) :=
  endsInFrame_next ⟨rfl, rfl, rfl, rfl, fun _ => ⟨rfl, rfl, rfl, rfl, rfl⟩, fun _ _ => rfl⟩ (.inl rfl)

theorem endsInFrame_afterRefusal (code : BitVec 5) (s : State) : EndsInFrame s (.next (afterRefusal code s)) :=
  endsInFrame_next ⟨rfl, rfl, rfl, rfl, fun _ => ⟨rfl, rfl, rfl, rfl, rfl⟩, fun _ _ => rfl⟩ (.inr rfl)

theorem endsInFrame_held (code : BitVec 5) (s : State) : EndsInFrame s (.next { s with pc := code }) :=
  endsInFrame_next ⟨rfl, rfl, rfl, rfl, fun _ => ⟨rfl, rfl, rfl, rfl, rfl⟩, fun _ _ => rfl⟩ (.inl rfl)

/-- A read of Global Enable into `ENTMP`, then the rest of the command. -/
theorem endsInFrame_readEnThen (code : BitVec 5) {s : State} {k : Word → State → Result}
    (hk : ∀ x u, u.freq = s.freq → EndsInFrame { u with entmp := x } (k x u)) :
    EndsInFrame s (accessThen code (readReq s.par .en) s k) := by
  rcases accessThen_read_cases code .en s k with ⟨x, -, h⟩ | ⟨-, h⟩ | ⟨-, h⟩
  · rw [h]
    have hread : CommandFrame s { afterRead (regAddr s.par .en) x s with entmp := x } :=
      ⟨rfl, rfl, rfl, rfl, fun _ => ⟨rfl, rfl, rfl, rfl, rfl⟩, fun _ _ => rfl⟩
    exact hread.endsInFrame rfl (hk x _ rfl)
  · rw [h]
    exact endsInFrame_afterRefusal code s
  · rw [h]
    exact endsInFrame_held code s

/-- A write to a register that the command may write, then the rest of the command. -/
theorem endsInFrame_putThen (code : BitVec 5) {r : Reg} (v : Word) {s : State} {k : State → Result}
    (hr : MayWrite s r) (hk : ∀ u, u.freq = s.freq → EndsInFrame u (k u)) :
    EndsInFrame s (putThen code r v s k) := by
  rw [putThen_eq]
  rcases accessThen_write_cases code r v s fun _ t => k t with ⟨x, -, h⟩ | ⟨-, h⟩ | ⟨-, h⟩
  · rw [h]
    exact (commandFrame_afterWrite hr v x).endsInFrame rfl (hk _ rfl)
  · rw [h]
    exact endsInFrame_afterRefusal code s
  · rw [h]
    exact endsInFrame_held code s

/-- Step 1 of a command (R111, R112). -/
theorem endsInFrame_disableThen {s : State} {k : State → Result}
    (hk : ∀ u, u.freq = s.freq → EndsInFrame u (k u)) : EndsInFrame s (disableThen s k) :=
  endsInFrame_readEnThen _ fun _ _ hu => endsInFrame_putThen _ _ (.inl rfl) fun v hv => hk v (hv.trans hu)

/-- Step 8 of a command (R112). -/
theorem endsInFrame_enableThen {s : State} {k : State → Result}
    (hk : ∀ u, u.freq = s.freq → EndsInFrame u (k u)) : EndsInFrame s (enableThen s k) :=
  endsInFrame_readEnThen _ fun _ _ hu => endsInFrame_putThen _ _ (.inl rfl) fun v hv => hk v (hv.trans hu)

/-- A write to a register of the command's own channel, in a command that configures. -/
theorem endsInFrame_putChanThen (code : BitVec 5) (kind : ChanReg) (v : Word) {s : State} {k : State → Result}
    (hf : s.freq ≠ 0#32) (hk : ∀ u, u.freq ≠ 0#32 → EndsInFrame u (k u)) :
    EndsInFrame s (putThen code (.chan kind s.ch) v s k) :=
  endsInFrame_putThen code v (.inr ⟨hf, kind, rfl⟩) fun u hu => hk u (hu ▸ hf)

/-- Step 6 of a command (R112): seven writes of the own channel. -/
theorem endsInFrame_configureThen {s : State} {k : State → Result} (hf : s.freq ≠ 0#32)
    (hk : ∀ u, u.freq ≠ 0#32 → EndsInFrame u (k u)) : EndsInFrame s (configureThen s k) := by
  unfold configureThen
  iterate 6 refine endsInFrame_putChanThen _ _ _ (by assumption) fun _ _ => ?_
  exact endsInFrame_putChanThen _ _ _ (by assumption) hk

/-- Step 7 of a command (R112): two writes of the own channel, or none. -/
theorem endsInFrame_overrideThen {s : State} {k : State → Result} (hf : s.freq ≠ 0#32)
    (hk : ∀ u, u.freq ≠ 0#32 → EndsInFrame u (k u)) : EndsInFrame s (overrideThen s k) := by
  unfold overrideThen
  split
  · exact endsInFrame_putChanThen _ _ _ hf fun _ hu => endsInFrame_putChanThen _ _ _ hu hk
  · exact hk s hf

/-! ### The whole command -/

/-- All that a whole command can do: wait at the port, or run within the frame of the state that has latched it. -/
theorem program_frame {c : BitVec 2} {f : Word} {d : BitVec 7} {s t : State} (h : program c f d s = .next t) :
    t = waits (cmdWord c f d) s ∨ CommandFrame (latch c f d s) t ∧ (t.fstep = s.fstep ∨ t.pc = 31#5) := by
  unfold program at h
  split at h
  · cases h
  · split at h
    · cases h
      exact .inl rfl
    · refine .inr (endsInFrame_disableThen (fun u hu => ?_) t h)
      have huf : u.freq = f := hu
      split
      · exact endsInFrame_finished u
      · next hf =>
        have hne : u.freq ≠ 0#32 := huf ▸ hf
        refine (commandFrame_compute hne).endsInFrame rfl ?_
        exact endsInFrame_configureThen hne fun v hv => endsInFrame_overrideThen hv fun w _ =>
          endsInFrame_enableThen fun x _ => endsInFrame_finished x

/-- A command of the Host runs, or waits, within these bounds: `turns` and the parameters stay, a changed `FSTEP` means
a fault, and of memory only the registers that the command may write change. -/
theorem program_bounds {c : BitVec 2} {f : Word} {d : BitVec 7} {s t : State} (h : program c f d s = .next t) :
    t.turns = s.turns ∧ t.par = s.par ∧ (t.fstep = s.fstep ∨ t.pc = 31#5) ∧
      ∀ a, (∀ r, MayWrite (latch c f d s) r → Outside s.par r a) → t.mem.byte a = s.mem.byte a := by
  rcases program_frame h with rfl | ⟨hframe, hfault⟩
  · exact ⟨rfl, rfl, .inl rfl, fun _ _ => rfl⟩
  · exact ⟨hframe.turns, hframe.par, hfault, hframe.memory⟩

/-- `PWM.OFF` writes no computed register. -/
theorem program_off_computed {c : BitVec 2} {d : BitVec 7} {s t : State} (h : program c 0#32 d s = .next t) :
    t.clksel = s.clksel ∧ t.div = s.div ∧ t.dur = s.dur ∧ t.durh = s.durh ∧ t.durl = s.durl := by
  rcases program_frame h with rfl | ⟨hframe, -⟩
  · exact ⟨rfl, rfl, rfl, rfl, rfl⟩
  · exact hframe.computed rfl

/-- The only register of the Target that `PWM.OFF` may write is Global Enable. -/
theorem mayWrite_off {c : BitVec 2} {d : BitVec 7} {s : State} {r : Reg} (h : MayWrite (latch c 0#32 d s) r) :
    r = .en :=
  h.resolve_right fun hset => hset.1 rfl

/-- Settles O52: both commands are `program`, which keeps the frame of the command it has latched. -/
theorem commandsFrame : Obligations.CommandsFrame := by
  intro c f d s t
  constructor
  · intro h
    rw [exec_pwmOff] at h
    obtain ⟨hturns, hpar, hfault, hmem⟩ := program_bounds h
    obtain ⟨hclksel, hdiv, hdur, hdurh, hdurl⟩ := program_off_computed h
    refine ⟨?_, hfault, fun a ha => hmem a fun r hr => ?_⟩
    · rw [← hturns, ← hpar, ← hclksel, ← hdiv, ← hdur, ← hdurh, ← hdurl]
    · rw [mayWrite_off hr]
      exact ha
  · intro h
    rw [exec_pwmSet] at h
    obtain ⟨hturns, hpar, hfault, hmem⟩ := program_bounds h
    exact ⟨hturns, hpar, hfault, fun a ha => hmem a fun r hr => ha r (hr.imp_right And.right)⟩

end Sys2Proof.Machine
end

section
/-! PROOFS. One access, whatever its direction: the micro-operations that perform one and the parts of the whole
commands all go through `accessThen` with a request to a register, so what it can do is said for both directions at
once, and a rule for the parts of a whole command is drawn from it. -/

namespace Sys2Proof.Machine

open Sys2Proof.Safety

/-! ### One access -/

/-- A read or a write of one of the 29 registers, as the block drives them. -/
def IsRegisterRequest (p : Config.Params) (q : Request) : Prop :=
  ∃ r, q = readReq p r ∨ ∃ v, q = writeReq p r v

/-- The state after a served access that returned `x`. -/
def afterAccess (q : Request) (x : Word) (s : State) : State :=
  if q.write then afterWrite q.address q.value x s else afterRead q.address x s

/-- What the storage Target returns for an access. -/
def storedFor (q : Request) (s : State) : Word := if q.write then q.value else s.mem.word q.address

section Access

variable {q : Request} {s : State} {code : BitVec 5} {k : Word → State → Result} (hq : IsRegisterRequest s.par q)
include hq

theorem accessThen_served {x : Word} (h : wordGiven (storedFor q s) (nextAnswer s) = some x) :
    accessThen code q s k = k x (afterAccess q x s) := by
  obtain ⟨r, rfl | ⟨v, rfl⟩⟩ := hq
  · exact accessThen_read_served h
  · exact accessThen_write_served h

theorem accessThen_refused {c : Cause} (h : nextAnswer s = .refuse c) :
    accessThen code q s k = .next (afterRefusal code s) := by
  obtain ⟨r, rfl | ⟨v, rfl⟩⟩ := hq
  · exact accessThen_read_refused h
  · exact accessThen_write_refused h

theorem accessThen_silent (h : nextAnswer s = .silent) : accessThen code q s k = .next { s with pc := code } := by
  obtain ⟨r, rfl | ⟨v, rfl⟩⟩ := hq
  · exact accessThen_read_silent h
  · exact accessThen_write_silent h

end Access

/-- All that an access followed by `k` can do. -/
theorem accessThen_cases {q : Request} {s : State} (hq : IsRegisterRequest s.par q) (code : BitVec 5)
    (k : Word → State → Result) :
    (∃ x, wordGiven (storedFor q s) (nextAnswer s) = some x ∧ accessThen code q s k = k x (afterAccess q x s)) ∨
    ((∃ c, nextAnswer s = .refuse c) ∧ accessThen code q s k = .next (afterRefusal code s)) ∨
    (nextAnswer s = .silent ∧ accessThen code q s k = .next { s with pc := code }) := by
  cases ha : nextAnswer s with
  | stored => exact .inl ⟨_, rfl, accessThen_served hq (by rw [ha]; rfl)⟩
  | word x => exact .inl ⟨x, rfl, accessThen_served hq (by rw [ha]; rfl)⟩
  | refuse c => exact .inr (.inl ⟨⟨c, rfl⟩, accessThen_refused hq ha⟩)
  | silent => exact .inr (.inr ⟨rfl, accessThen_silent hq ha⟩)

/-- Whether an answer serves an access does not depend on the word that storage holds. -/
theorem wordGiven_isSome (v w : Word) (a : Answer) : (wordGiven v a).isSome = (wordGiven w a).isSome := by
  cases a <;> rfl

theorem requestOf_isRegisterRequest {s : State} {i : Instr} {q : Request} (h : requestOf s i = some q) :
    IsRegisterRequest s.par q := by
  cases i <;> cases h
  case enRd1 | enRd2 => exact ⟨_, .inl rfl⟩
  all_goals exact ⟨_, .inr ⟨_, rfl⟩⟩

/-- Each of the thirteen is one access on the request it drives, and its successor is the next code. -/
theorem exec_accessing {i : Instr} {code : BitVec 5} (hi : (i, code) ∈ accessing) {s : State} {q : Request}
    (hq : requestOf s i = some q) :
    exec i s = accessThen code q s fun x t =>
      .next { t with entmp := if q.write then t.entmp else x, pc := code + 1#5 } := by
  revert q
  refine @accessing_forall (fun i code => ∀ q, requestOf s i = some q → exec i s = accessThen code q s fun x t =>
      .next { t with entmp := if q.write then t.entmp else x, pc := code + 1#5 })
    ⟨?_, ?_⟩ ⟨?_, ?_⟩ ⟨?_, ?_, ?_, ?_⟩ ⟨?_, ?_, ?_⟩ ⟨?_, ?_⟩ i code hi
  all_goals
    rintro _ ⟨⟩
    rfl

/-- Everything one of the thirteen can do, with its successor. -/
theorem exec_accessing_ends {i : Instr} {code : BitVec 5} (hi : (i, code) ∈ accessing) {s t : State}
    (h : exec i s = .next t) :
    (∃ q x, requestOf s i = some q ∧ (wordGiven 0#32 (nextAnswer s)).isSome = true ∧
      t = { afterAccess q x s with entmp := if q.write then s.entmp else x, pc := code + 1#5 }) ∨
    ((∃ c, nextAnswer s = .refuse c) ∧ t = afterRefusal code s) ∨
    (nextAnswer s = .silent ∧ t = { s with pc := code }) := by
  obtain ⟨q, hq, -⟩ := exec_accessing_cases hi s
  rw [exec_accessing hi hq] at h
  rcases accessThen_cases (requestOf_isRegisterRequest hq) code _ with ⟨x, hx, h'⟩ | ⟨hc, h'⟩ | ⟨hs, h'⟩
  · refine .inl ⟨q, x, hq, by rw [wordGiven_isSome _ (storedFor q s), hx]; rfl, ?_⟩
    rw [h'] at h
    cases h
    unfold afterAccess
    split <;> rfl
  · exact .inr (.inl ⟨hc, by simpa using h.symm.trans h'⟩)
  · exact .inr (.inr ⟨hs, by simpa using h.symm.trans h'⟩)

/-! ### The micro-operations without an access -/

/-- The micro-operations that perform no access, with their STEP codes. -/
def registerOnly : List (Instr × BitVec 5) :=
  [(.accept, 0#5), (.freqTest, 3#5), (.divInit, 4#5), (.divStep, 5#5), (.fallback, 6#5), (.split, 7#5),
    (.dutyTest, 15#5), (.finish, 20#5), (.sFault, 31#5)]

/-- A property of the nine micro-operations without an access holds of all when it holds of each. -/
theorem registerOnly_forall {P : Instr → BitVec 5 → Prop} (accept : P .accept sIdle) (freqTest : P .freqTest sFreqTest)
    (divInit : P .divInit sDivInit) (divStep : P .divStep sDivStep) (fallback : P .fallback sFallback)
    (split : P .split sSplit) (dutyTest : P .dutyTest sDutyTest) (finish : P .finish sFinish)
    (sFault : P .sFault sFaultCode) {i : Instr} {code : BitVec 5} (hi : (i, code) ∈ registerOnly) : P i code := by
  have all : ∀ e ∈ registerOnly, P e.1 e.2 := by
    simp only [registerOnly, List.forall_mem_cons]
    tauto
  exact all _ hi

/-- A STEP code that names a micro-operation names one with an access or one without. -/
theorem decodeStep_cases {c : BitVec 5} {i : Instr} (h : decodeStep c = some i) :
    (i, c) ∈ accessing ∨ (i, c) ∈ registerOnly := by
  revert c i
  decide +revert

/-! ### The parts of a whole command -/

/-- A command that is not reserved (R90). -/
theorem reservedOperands_eq_false_iff (f : Word) (d : BitVec 7) :
    reservedOperands f d = false ↔ (f ≠ 0#32 → d.toNat ≤ 100) := by
  have h : reservedOperands f d = false ↔ (f ≠ 0#32 → d.toNat ≤ Config.maxDuty) := by simp [reservedOperands]
  exact h

/-- Every next state that `x` can be meets `P`. -/
def Ends (P : State → Prop) (x : Result) : Prop := ∀ t, x = .next t → P t

theorem ends_next {P : State → Prop} {s : State} (h : P s) : Ends P (.next s) := by
  rintro _ ⟨⟩
  exact h

/-- What makes `I` an invariant of the accesses at `codes` for the end `P`: a served access keeps it, and where an
access is refused or never answered the state meets `P`. -/
structure Phase (I P : State → Prop) (codes : List (BitVec 5)) : Prop where
  served : ∀ s q x, I s → IsRegisterRequest s.par q → I (afterAccess q x s)
  noted : ∀ s x, I s → I { s with entmp := x }
  refused : ∀ s, I s → ∀ code ∈ codes, P (afterRefusal code s)
  held : ∀ s, I s → ∀ code ∈ codes, nextAnswer s = .silent → P { s with pc := code }

section Phase

variable {I P : State → Prop} {codes : List (BitVec 5)} (hphase : Phase I P codes)
include hphase

theorem Phase.ends_accessThen {code : BitVec 5} (hcode : code ∈ codes) {q : Request} {s : State}
    {k : Word → State → Result} (hs : I s) (hq : IsRegisterRequest s.par q) (hk : ∀ x u, I u → Ends P (k x u)) :
    Ends P (accessThen code q s k) := by
  rcases accessThen_cases hq code k with ⟨x, -, h⟩ | ⟨-, h⟩ | ⟨hsilent, h⟩
  · rw [h]
    exact hk x _ (hphase.served s q x hs hq)
  · rw [h]
    exact ends_next (hphase.refused s hs code hcode)
  · rw [h]
    exact ends_next (hphase.held s hs code hcode hsilent)

theorem Phase.ends_putThen {code : BitVec 5} (hcode : code ∈ codes) {r : Reg} {v : Word} {s : State}
    {k : State → Result} (hs : I s) (hk : ∀ u, I u → Ends P (k u)) : Ends P (putThen code r v s k) :=
  hphase.ends_accessThen hcode hs ⟨r, .inr ⟨v, rfl⟩⟩ fun _ => hk

/-- A read of Global Enable into `ENTMP` and a write of it: steps 1 and 8 of a command (R111, R112). -/
theorem Phase.ends_updateEnThen {rd wr : BitVec 5} (hrd : rd ∈ codes) (hwr : wr ∈ codes) {v : Word → State → Word}
    {s : State} {k : State → Result} (hs : I s) (hk : ∀ u, I u → Ends P (k u)) :
    Ends P (accessThen rd (readReq s.par .en) s fun x t => putThen wr .en (v x t) { t with entmp := x } k) :=
  hphase.ends_accessThen hrd hs ⟨.en, .inl rfl⟩ fun x u hu => hphase.ends_putThen hwr (hphase.noted u x hu) hk

end Phase

/-- The STEP codes of a command's accesses before it configures. -/
def disableCodes : List (BitVec 5) := [1#5, 2#5]

/-- The STEP codes of the accesses that configure and enable. -/
def configureCodes : List (BitVec 5) := [8#5, 9#5, 10#5, 11#5, 12#5, 13#5, 14#5, 16#5, 17#5, 18#5, 19#5]

theorem Phase.ends_configureThen {J P : State → Prop} (h : Phase J P configureCodes) {s : State} {k : State → Result}
    (hs : J s) (hk : ∀ u, J u → Ends P (k u)) : Ends P (configureThen s k) := by
  unfold configureThen
  iterate 6 refine h.ends_putThen (by decide) (by assumption) fun _ _ => ?_
  exact h.ends_putThen (by decide) (by assumption) hk

theorem Phase.ends_overrideThen {J P : State → Prop} (h : Phase J P configureCodes) {s : State} {k : State → Result}
    (hs : J s) (hk : ∀ u, J u → Ends P (k u)) : Ends P (overrideThen s k) := by
  unfold overrideThen
  split
  · exact h.ends_putThen (by decide) hs fun _ hu => h.ends_putThen (by decide) hu hk
  · exact hk s hs

/-- A whole command in two phases, before and after the calculator: what holds of every next state it can answer. -/
theorem program_ends {I J P : State → Prop} {c : BitVec 2} {f : Word} {d : BitVec 7} {s : State}
    (disable : Phase I P disableCodes) (configure : Phase J P configureCodes)
    (waiting : s.pc ≠ sIdle → P (waits (cmdWord c f d) s))
    (latched : s.pc = sIdle → reservedOperands f d = false → I (latch c f d s))
    (computed : f ≠ 0#32 → ∀ u, I u → J (compute u))
    (off : ∀ u, I u → P (finished u)) (on : ∀ u, J u → P (finished u)) : Ends P (program c f d s) := by
  unfold program
  split
  · rintro _ ⟨⟩
  · next hr =>
    split
    · next hpc => exact ends_next (waiting hpc)
    · next hpc =>
      refine disable.ends_updateEnThen (by decide) (by decide)
        (latched (not_not.mp hpc) (Bool.eq_false_iff.mpr hr)) fun u hu => ?_
      split
      · exact ends_next (off u hu)
      · next hf =>
        refine configure.ends_configureThen (computed hf u hu) fun v hv => ?_
        refine configure.ends_overrideThen hv fun w hw => ?_
        exact configure.ends_updateEnThen (by decide) (by decide) hw fun z hz => ends_next (on z hz)

end Sys2Proof.Machine
end

section
/-! PROOFS. The invariant (spec/10_state.md R21, R25, R26; spec/42_calc.md R141 to R149). It is carried in the form "the
state may stand at STEP code `k`", which says of a register update and of the move to the next code what each needs. -/

namespace Sys2Proof.Safety

open Sys2Proof.Machine

/-! ### A state that may stand at a STEP code -/

/-- With STEP at `k` the state meets the invariant. `Inv s` is `Fit s.pc s`. -/
def Fit (k : BitVec 5) (s : State) : Prop := Inv { s with pc := k }

theorem Fit.inv {k : BitVec 5} {s : State} (h : Fit k s) (hk : s.pc = k) : Inv s := by
  subst hk
  exact h

/-- The registers the invariant speaks of, STEP apart. -/
def invariantFields (s : State) :=
  (s.par, s.done, s.freq, s.duty, s.clksel, s.div, s.dur, s.durh, s.durl)

theorem Fit.blockInv_of_same {k : BitVec 5} {s t : State} (h : Fit k s) (e : invariantFields t = invariantFields s) :
    BlockInv { t with pc := k } := by
  obtain ⟨hb, -⟩ := h
  cases s
  cases t
  simp only [invariantFields, Prod.mk.injEq] at e
  obtain ⟨rfl, rfl, rfl, rfl, rfl, rfl, rfl, rfl, rfl⟩ := e
  exact ⟨hb.printed, hb.stepNamed, hb.doneOnlyIdle, hb.notReserved, hb.freqNonzero, hb.slowDivZero, hb.searchFast,
    hb.searchDuration, hb.searchLeaves, hb.durRange, hb.durSettled, hb.highRange, hb.lowRange⟩

theorem Fit.par_of_same {s t : State} (e : invariantFields t = invariantFields s) : t.par = s.par :=
  congrArg Prod.fst e

/-- The inputs, the trace, `CH`, `ENTMP` and `FSTEP` do not matter. -/
theorem Fit.of_same {k : BitVec 5} {s t : State} (h : Fit k s) (e : invariantFields t = invariantFields s)
    (hm : t.mem = s.mem) : Fit k t :=
  ⟨h.blockInv_of_same e,
    ⟨(congrArg Memory.wf hm).trans h.target.canonical,
      (congrArg₂ memOnMap (Fit.par_of_same e) hm).trans h.target.onMap⟩⟩

/-- A write to a register of the map keeps the invariant. -/
theorem Fit.of_write {k : BitVec 5} {s t : State} (h : Fit k s) (e : invariantFields t = invariantFields s) (r : Reg)
    (v : Word) (hm : t.mem = s.mem.putWord (regAddr s.par r) v) : Fit k t :=
  ⟨h.blockInv_of_same e,
    ⟨(congrArg Memory.wf hm).trans (Memory.wf_putWord h.target.canonical _ _),
      (congrArg₂ memOnMap (Fit.par_of_same e) hm).trans (memOnMap_putWord h.block.printed h.target.onMap r v)⟩⟩

/-- A served access of the block keeps the invariant. -/
theorem Fit.afterAccess {k : BitVec 5} {s : State} (h : Fit k s) {q : Request} (hq : IsRegisterRequest s.par q)
    (x : Word) : Fit k (afterAccess q x s) := by
  obtain ⟨r, rfl | ⟨v, rfl⟩⟩ := hq
  · exact h.of_same rfl rfl
  · exact h.of_write rfl r v rfl

/-- So does a transaction at the Target that anyone performs, where it has a meaning. -/
theorem Fit.perform {k : BitVec 5} {s : State} (h : Fit k s) {q : Request} (hq : (regOfAddr s.par q.address).isSome)
    (given : Option Word) : Fit k (perform q given s).2 := by
  obtain ⟨r, hr⟩ := Option.isSome_iff_exists.mp hq
  unfold Machine.perform
  cases q.write with
  | false => exact h.of_same rfl rfl
  | true =>
    refine h.of_write rfl r q.value ?_
    rw [regAddr_of_regOfAddr hr]
    rfl

/-- The invariant itself, where STEP stays too. -/
theorem Inv.of_same {s t : State} (h : Inv s) (hpc : t.pc = s.pc) (e : invariantFields t = invariantFields s)
    (hm : t.mem = s.mem) : Inv t :=
  Fit.inv (k := s.pc) (Fit.of_same h e hm) hpc

/-! ### From one STEP code to another -/

/-- The codes at which the invariant asks of the registers nothing but `DONE` 0. -/
def quietCodes : List (BitVec 5) := [1#5, 2#5, 3#5, 20#5, 31#5]

/-- Past the calculator: the frequency is not 0 and the duration is settled (R147). -/
structure Settled (s : State) : Prop where
  freq : s.freq ≠ 0#32
  dur : s.dur.toNat ≤ 100000
  fast : s.clksel = .fast → s.dur.toNat ≤ 15000

/-- In the search: Fast mode, and `DUR` is the quotient at `DIV` (R140, R141). -/
structure Searching (s : State) : Prop where
  freq : s.freq ≠ 0#32
  fast : s.clksel = .fast
  dur : s.dur.toNat = 40000000 / (2 ^ s.div.toNat * s.freq.toNat)

/-- At `S_IDLE` the invariant asks for the ranges and the Target only. -/
theorem fit_idle {s : State} (printed : s.par.AsPrinted) (notReserved : s.freq ≠ 0#32 → s.duty.toNat ≤ 100)
    (slowDivZero : s.clksel = .slow → s.div = 0#3) (durRange : s.dur.toNat ≤ 40000000)
    (highRange : s.durh.toNat ≤ 100000) (lowRange : s.durl.toNat ≤ 100000) (target : TargetInv s) : Fit sIdle s where
  block :=
    { printed, notReserved, slowDivZero, durRange, highRange, lowRange
      stepNamed := rfl
      doneOnlyIdle := fun _ => rfl
      freqNonzero := nofun
      searchFast := nofun
      searchDuration := nofun
      searchLeaves := nofun
      durSettled := nofun }
  target := ⟨target.canonical, target.onMap⟩

/-- The invariant at the code `k` from the invariant at any other: what `k` itself asks for. -/
theorem Fit.move {j k : BitVec 5} {s : State} (h : Fit j s) (named : (decodeStep k).isSome = true)
    (busy : s.done = true → k = sIdle) (freq : pastFreqTest k = true → s.freq ≠ 0#32)
    (search : k = sDivStep ∨ k = sFallback → Searching s)
    (leaves : k = sFallback → 15000 < s.dur.toNat → s.div = 7#3)
    (settled : pastFreqTest k = true → 7 ≤ k.toNat → Settled s) : Fit k s where
  block :=
    { printed := h.block.printed
      stepNamed := named
      doneOnlyIdle := busy
      notReserved := h.block.notReserved
      freqNonzero := freq
      slowDivZero := h.block.slowDivZero
      searchFast := fun hk => (search hk).fast
      searchDuration := fun hk => (search hk).dur
      searchLeaves := leaves
      durRange := h.block.durRange
      durSettled := fun hk h7 => ⟨(settled hk h7).dur, (settled hk h7).fast⟩
      highRange := h.block.highRange
      lowRange := h.block.lowRange }
  target := ⟨h.target.canonical, h.target.onMap⟩

theorem Fit.busy {k : BitVec 5} {s : State} (h : Fit k s) (hk : k ≠ sIdle) : s.done = false :=
  Bool.eq_false_iff.mpr fun hd => hk (h.block.doneOnlyIdle hd)

theorem Fit.settled {k : BitVec 5} {s : State} (h : Fit k s) (h7 : 7 ≤ k.toNat) (h19 : k.toNat ≤ 19) : Settled s := by
  have hpast : pastFreqTest k = true := by simp [pastFreqTest, h19, show 4 ≤ k.toNat by omega]
  obtain ⟨hdur, hfast⟩ := h.block.durSettled hpast h7
  exact ⟨h.block.freqNonzero hpast, hdur, hfast⟩

theorem Fit.searching {k : BitVec 5} {s : State} (h : Fit k s) (hk : k = sDivStep ∨ k = sFallback) : Searching s :=
  ⟨h.block.freqNonzero (by rcases hk with rfl | rfl <;> rfl), h.block.searchFast hk, h.block.searchDuration hk⟩

theorem quiet_code {k : BitVec 5} (hk : k ∈ quietCodes) :
    (decodeStep k).isSome = true ∧ pastFreqTest k = false ∧ k ≠ sDivStep ∧ k ≠ sFallback := by
  decide +revert

theorem Fit.quiet {j k : BitVec 5} {s : State} (h : Fit j s) (hd : s.done = false) (hk : k ∈ quietCodes) : Fit k s := by
  obtain ⟨hnamed, hpast, hstep, hfall⟩ := quiet_code hk
  exact h.move hnamed (by simp [hd]) (by simp [hpast]) (by simp [hstep, hfall]) (by simp [hfall]) (by simp [hpast])

theorem settled_code {k : BitVec 5} (h7 : 7 ≤ k.toNat) (h19 : k.toNat ≤ 19) :
    (decodeStep k).isSome = true ∧ k ≠ sDivStep ∧ k ≠ sFallback := by
  decide +revert

/-- The exception is taken from any state that is not idle. -/
theorem Fit.fault {k : BitVec 5} {s : State} (h : Fit k s) (hk : k ≠ sIdle) (code : BitVec 5) :
    Inv (afterRefusal code s) :=
  Fit.inv (k := sFaultCode) (Fit.of_same (h.quiet (h.busy hk) (by decide)) rfl rfl) rfl

theorem Fit.toSettled {j k : BitVec 5} {s : State} (h : Fit j s) (hd : s.done = false) (hs : Settled s)
    (h7 : 7 ≤ k.toNat) (h19 : k.toNat ≤ 19) : Fit k s := by
  obtain ⟨hnamed, hstep, hfall⟩ := settled_code h7 h19
  exact h.move hnamed (by simp [hd]) (fun _ => hs.freq) (by simp [hstep, hfall]) (by simp [hfall]) fun _ _ => hs

/-! ### The micro-operations with an access -/

/-- Where one of the thirteen stands, and where it goes. -/
theorem accessing_code {i : Instr} {code : BitVec 5} (hi : (i, code) ∈ accessing) :
    code ≠ sIdle ∧ (code + 1#5 ∈ quietCodes ∨
      7 ≤ code.toNat ∧ code.toNat ≤ 19 ∧ 7 ≤ (code + 1#5).toNat ∧ (code + 1#5).toNat ≤ 19) := by
  have all : ∀ e ∈ accessing, e.2 ≠ sIdle ∧ (e.2 + 1#5 ∈ quietCodes ∨
      7 ≤ e.2.toNat ∧ e.2.toNat ≤ 19 ∧ 7 ≤ (e.2 + 1#5).toNat ∧ (e.2 + 1#5).toNat ≤ 19) := by decide
  exact all _ hi

/-- Between accesses only STEP moves: the registers may stand at the next code too. -/
theorem Fit.successor {i : Instr} {code : BitVec 5} (hi : (i, code) ∈ accessing) {s : State} (h : Fit code s) :
    Fit (code + 1#5) s := by
  obtain ⟨hbusy, hquiet | ⟨h7, h19, k7, k19⟩⟩ := accessing_code hi
  · exact h.quiet (h.busy hbusy) hquiet
  · exact h.toSettled (h.busy hbusy) (h.settled h7 h19) k7 k19

theorem Fit.ends_accessing {i : Instr} {code : BitVec 5} (hi : (i, code) ∈ accessing) {s : State} (h : Fit code s) :
    Ends Inv (exec i s) := by
  intro t ht
  rcases exec_accessing_ends hi ht with ⟨q, x, hq, -, rfl⟩ | ⟨-, rfl⟩ | ⟨-, rfl⟩
  · have hserved := (h.afterAccess (requestOf_isRegisterRequest hq) x).successor hi
    exact Fit.inv (Fit.of_same hserved rfl rfl) rfl
  · exact h.fault (accessing_code hi).1 code
  · exact h

/-! ### The calculator -/

/-- New timing registers, at rest. -/
theorem Fit.retimed {k : BitVec 5} {s : State} (h : Fit k s) {mode : ClockMode} {div : BitVec 3} {dur : Word}
    (hslow : mode = .slow → div = 0#3) (hdur : dur.toNat ≤ 40000000) :
    Fit sIdle { s with clksel := mode, div := div, dur := dur } :=
  fit_idle h.block.printed h.block.notReserved hslow hdur h.block.highRange h.block.lowRange
    ⟨h.target.canonical, h.target.onMap⟩

/-- New phases of a settled duration, at rest: neither exceeds it (R148). -/
theorem Fit.phased {k : BitVec 5} {s : State} (h : Fit k s) (hs : Settled s) :
    Fit sIdle { s with durh := splitHigh s.dur s.duty, durl := splitLow s.dur s.duty } := by
  have hduty : s.duty.toNat ≤ 100 := h.block.notReserved hs.freq
  have hdur := hs.dur
  have part_le (n : Nat) (hn : n ≤ 100) : s.dur.toNat * n / 100 ≤ 100000 := by
    have : s.dur.toNat * n ≤ s.dur.toNat * 100 := Nat.mul_le_mul_left _ hn
    omega
  refine fit_idle h.block.printed h.block.notReserved h.block.slowDivZero h.block.durRange ?_ ?_
    ⟨h.target.canonical, h.target.onMap⟩
  · exact (splitHigh_toNat hduty).trans_le (part_le _ hduty)
  · exact (splitLow_toNat hduty).trans_le (part_le _ (Nat.sub_le _ _))

theorem Fit.toSearching {j : BitVec 5} {s : State} (h : Fit j s) (hd : s.done = false) (hs : Searching s) :
    Fit sDivStep s :=
  h.move rfl (by simp [hd]) (fun _ => hs.freq) (fun _ => hs) nofun nofun

theorem Fit.divInit {s : State} (h : Fit sDivInit s) : Ends Inv (exec .divInit s) := by
  have hfreq : s.freq ≠ 0#32 := h.block.freqNonzero rfl
  have hdur := fastDuration_toNat h.block.printed hfreq 0
  rw [exec_divInit]
  refine ends_next (Fit.inv (Fit.toSearching (j := sIdle) ?_ (h.busy nofun) ⟨hfreq, rfl, hdur⟩) rfl)
  exact h.retimed nofun (hdur.trans_le (Nat.div_le_self _ _))

theorem Fit.divStep {s : State} (h : Fit sDivStep s) : Ends Inv (exec .divStep s) := by
  have hp : s.par.AsPrinted := h.block.printed
  have hs : Searching s := h.searching (.inl rfl)
  have hd : s.done = false := h.busy nofun
  rcases exec_divStep_cases s with ⟨-, hdiv, he⟩ | ⟨hstop, he⟩
  · rw [hp.maxDiv] at hdiv
    have hnext : (s.div + 1#3).toNat = s.div.toNat + 1 := by bv_omega
    have hdur := fastDuration_toNat hp hs.freq (s.div.toNat + 1)
    rw [he]
    refine ends_next (Fit.inv (Fit.toSearching (j := sIdle) ?_ hd ⟨hs.freq, hs.fast, ?_⟩) rfl)
    · exact h.retimed (by simp [hs.fast]) (hdur.trans_le (Nat.div_le_self _ _))
    · exact hnext ▸ hdur
  · rw [hp.maxDuration, hp.maxDiv] at hstop
    rw [he]
    refine ends_next ?_
    refine h.move rfl (by simp [hd]) (fun _ => hs.freq) (fun _ => hs) (fun _ hover => ?_) nofun
    have := s.div.isLt
    bv_omega

theorem slowDuration_le {p : Config.Params} (hp : p.AsPrinted) {f : Word} (hf : f ≠ 0#32) :
    (slowDuration p f).toNat ≤ 100000 :=
  (slowDuration_toNat hp hf).trans_le (Nat.div_le_self _ _)

theorem Fit.fallback {s : State} (h : Fit sFallback s) : Ends Inv (exec .fallback s) := by
  have hp : s.par.AsPrinted := h.block.printed
  have hs : Searching s := h.searching (.inr rfl)
  have hd : s.done = false := h.busy nofun
  rcases exec_fallback_cases s with ⟨-, he⟩ | ⟨hwithin, he⟩
  · have hslow := slowDuration_le hp hs.freq
    rw [he]
    have hrest := h.retimed (mode := .slow) (div := 0#3) (fun _ => rfl) (hslow.trans (by decide))
    exact ends_next (Fit.inv (hrest.toSettled (k := sSplit) hd ⟨hs.freq, hslow, nofun⟩ (by decide) (by decide)) rfl)
  · rw [hp.maxDuration, not_lt] at hwithin
    rw [he]
    exact ends_next (h.toSettled hd ⟨hs.freq, by omega, fun _ => hwithin⟩ (by decide) (by decide))

theorem Fit.split {s : State} (h : Fit sSplit s) : Ends Inv (exec .split s) := by
  have hs : Settled s := h.settled (by decide) (by decide)
  rw [exec_split]
  exact ends_next (Fit.inv ((h.phased hs).toSettled (k := sWrCon) (h.busy nofun) ⟨hs.freq, hs.dur, hs.fast⟩
    (by decide) (by decide)) rfl)

/-- The calculator as one function answers a settled timing (R141, R142, R147). -/
theorem timing_settled {p : Config.Params} (hp : p.AsPrinted) {f : Word} (hf : f ≠ 0#32) :
    (timing p f).dur.toNat ≤ 100000 ∧ ((timing p f).mode = .fast → (timing p f).dur.toNat ≤ 15000) ∧
      ((timing p f).mode = .slow → (timing p f).div = 0#3) := by
  simp only [timing]
  split
  · exact ⟨slowDuration_le hp hf, nofun, fun _ => rfl⟩
  · next hover =>
    rw [overLimit_iff hp, not_lt] at hover
    exact ⟨by dsimp only; omega, fun _ => hover, nofun⟩

/-! ### The other micro-operations without an access -/

theorem Fit.latch {s : State} (h : Fit sIdle s) (c : BitVec 2) {f : Word} {d : BitVec 7}
    (hr : reservedOperands f d = false) : Fit sEnRd1 (latch c f d s) := by
  have hduty : f ≠ 0#32 → d.toNat ≤ 100 := (reservedOperands_eq_false_iff f d).mp hr
  have hrest : Fit sIdle (Machine.latch c f d s) :=
    fit_idle h.block.printed hduty h.block.slowDivZero h.block.durRange h.block.highRange h.block.lowRange
      ⟨h.target.canonical, h.target.onMap⟩
  exact hrest.quiet rfl (by decide)

theorem Fit.accept {s : State} (h : Fit sIdle s) (hpc : s.pc = sIdle) : Ends Inv (exec .accept s) := by
  rcases exec_accept_cases s with ⟨-, he⟩ | ⟨w, rest, -, ⟨-, he⟩ | ⟨hr, he⟩⟩
  · rw [he]
    exact ends_next (h.inv hpc)
  · rw [he]
    exact nofun
  · rw [he]
    have htaken : Fit sIdle { s with cmds := rest } := h.of_same rfl rfl
    exact ends_next ((htaken.latch (cmdChannel w) hr).inv rfl)

theorem Fit.freqTest {s : State} (h : Fit sFreqTest s) : Ends Inv (exec .freqTest s) := by
  have hd : s.done = false := h.busy nofun
  rw [exec_freqTest]
  split
  · exact ends_next (h.quiet hd (k := sFinish) (by decide))
  · next hfreq => exact ends_next (h.move (k := sDivInit) rfl (by simp [hd]) (fun _ => hfreq) nofun nofun nofun)

theorem Fit.dutyTest {s : State} (h : Fit sDutyTest s) : Ends Inv (exec .dutyTest s) := by
  have hd : s.done = false := h.busy nofun
  have hs : Settled s := h.settled (by decide) (by decide)
  rw [exec_dutyTest]
  split
  · exact ends_next (h.toSettled hd hs (k := sWrSd0Ovr) (by decide) (by decide))
  · exact ends_next (h.toSettled hd hs (k := sEnRd2) (by decide) (by decide))

theorem Fit.finished {k : BitVec 5} {s : State} (h : Fit k s) : Inv (finished s) :=
  Fit.inv (k := sIdle) (fit_idle h.block.printed h.block.notReserved h.block.slowDivZero h.block.durRange
    h.block.highRange h.block.lowRange ⟨h.target.canonical, h.target.onMap⟩) rfl

/-- The block's micro-operation at STEP keeps the invariant. -/
theorem Inv.ends_microOperation {s : State} (h : Inv s) {i : Instr} (hi : decodeStep s.pc = some i) :
    Ends Inv (exec i s) := by
  rcases decodeStep_cases hi with hacc | hreg
  · exact Fit.ends_accessing hacc h
  · exact registerOnly_forall (P := fun i k => s.pc = k → Fit k s → Ends Inv (exec i s))
      (accept := fun hpc hs => hs.accept hpc)
      (freqTest := fun _ hs => hs.freqTest)
      (divInit := fun _ hs => hs.divInit)
      (divStep := fun _ hs => hs.divStep)
      (fallback := fun _ hs => hs.fallback)
      (split := fun _ hs => hs.split)
      (dutyTest := fun _ hs => hs.dutyTest)
      (finish := fun _ hs => ends_next hs.finished)
      (sFault := fun hpc hs => ends_next (hs.inv hpc)) hreg rfl h

/-! ### Whole commands -/

/-- Before the calculator a whole command keeps the invariant of `S_EN_RD1`. -/
theorem invariant_disable (f : Word) : Phase (fun s => Fit sEnRd1 s ∧ s.freq = f) Inv disableCodes where
  served s q x := fun ⟨h, hf⟩ hq => ⟨h.afterAccess hq x, by unfold afterAccess; split <;> exact hf⟩
  noted _ _ := fun ⟨h, hf⟩ => ⟨h.of_same rfl rfl, hf⟩
  refused _ := fun ⟨h, _⟩ code _ => h.fault nofun code
  held s := fun ⟨h, _⟩ code hcode _ => by
    have hquiet : ∀ code ∈ disableCodes, code ∈ quietCodes := by decide
    exact h.quiet (h.busy nofun) (hquiet code hcode)

/-- Past the calculator it keeps that of `S_WR_CON`. -/
theorem invariant_configure : Phase (Fit sWrCon) Inv configureCodes where
  served _ _ x h hq := h.afterAccess hq x
  noted _ _ h := h.of_same rfl rfl
  refused _ h code _ := h.fault nofun code
  held s h code hcode _ := by
    have hlate : ∀ code ∈ configureCodes, 7 ≤ code.toNat ∧ code.toNat ≤ 19 := by decide
    obtain ⟨h7, h19⟩ := hlate code hcode
    exact h.toSettled (h.busy nofun) (h.settled (by decide) (by decide)) h7 h19

theorem Fit.compute {s : State} (h : Fit sEnRd1 s) (hf : s.freq ≠ 0#32) : Fit sWrCon (compute s) := by
  obtain ⟨hdur, hfast, hslow⟩ := timing_settled h.block.printed hf
  have hsettled : Settled (Machine.compute s) := ⟨hf, hdur, hfast⟩
  have hrest := (h.retimed hslow (hdur.trans (by decide))).phased ⟨hf, hdur, hfast⟩
  exact hrest.toSettled (h.busy nofun) hsettled (by decide) (by decide)

theorem Inv.ends_program {s : State} (h : Inv s) (c : BitVec 2) (f : Word) (d : BitVec 7) :
    Ends Inv (program c f d s) :=
  program_ends (invariant_disable f) invariant_configure
    (waiting := fun _ => h.of_same rfl rfl rfl)
    (latched := fun hpc hr => ⟨Fit.latch (hpc ▸ h) c hr, rfl⟩)
    (computed := fun hf _ ⟨hu, huf⟩ => hu.compute (huf ▸ hf))
    (off := fun _ ⟨hu, _⟩ => hu.finished)
    (on := fun _ hu => hu.finished)

/-! ### Every agent's turn -/

theorem Inv.ends_call {s : State} (h : Inv s) (w : BitVec 41) : Ends Inv (callTurn w s) := by
  unfold callTurn decodeCmd
  split
  · exact h.ends_program (cmdChannel w) 0#32 (cmdDuty w)
  · split
    · exact h.ends_program (cmdChannel w) (cmdFrequency w) (cmdDuty w)
    · exact nofun

theorem Inv.ends_block {s : State} (h : Inv s) : Ends Inv (blockTurn s) := by
  unfold blockTurn
  split
  · next hi => exact h.ends_microOperation hi
  · exact nofun

theorem Inv.ends_line {s : State} (h : Inv s) (operands : List (List Char)) : Ends Inv (lineTurn operands s) := by
  unfold lineTurn
  split
  · exact ends_next (h.of_same rfl rfl rfl)
  · exact ends_next h

theorem Inv.ends_otherWrite {s : State} (h : Inv s) (a v : Word) : Ends Inv (otherWriteTurn a v s) := by
  unfold otherWriteTurn
  cases hr : regOfAddr s.par a with
  | none => exact nofun
  | some r =>
    rw [← regAddr_of_regOfAddr hr]
    exact ends_next (Fit.inv (k := s.pc) (Fit.of_write h rfl r v rfl) rfl)

theorem Inv.ends_otherRead {s : State} (h : Inv s) (a x : Word) : Ends Inv (otherReadTurn a x s) := by
  unfold otherReadTurn
  split
  · exact nofun
  · exact ends_next (h.of_same rfl rfl rfl)

/-- A request with a meaning goes to a register of the map. -/
theorem onMap_of_requestRefusal {p : Config.Params} {q : Request} (h : requestRefusal p q = none) :
    (regOfAddr p q.address).isSome = true := by
  unfold requestRefusal at h
  split at h
  · cases h
  · simpa [Option.ne_none_iff_isSome] using h

theorem perform_pc (q : Request) (given : Option Word) (s : State) : (perform q given s).2.pc = s.pc := by
  unfold perform
  cases q.write <;> rfl

theorem Inv.ends_otherAccess {s : State} (h : Inv s) (q : Request) (given : Option Word) :
    Ends Inv (otherAccessTurn q given s) := by
  unfold otherAccessTurn
  cases hq : requestRefusal s.par q with
  | some why => exact nofun
  | none =>
    exact ends_next (Fit.inv (k := s.pc) (Fit.perform h (onMap_of_requestRefusal hq) given) (perform_pc q given s))

theorem Inv.ends_targetReset {s : State} (h : Inv s) (words : List (Reg × Word)) :
    Ends Inv (targetResetTurn words s) :=
  ends_next ⟨Fit.blockInv_of_same (t := { s with mem := Memory.putRegs s.par [] words }) h rfl,
    ⟨Memory.wf_putRegs _ _ rfl, memOnMap_putRegs h.block.printed _ rfl⟩⟩

theorem onMap_of_isRegisterRequest {p : Config.Params} {q : Request} (hq : IsRegisterRequest p q) :
    (regOfAddr p q.address).isSome = true := by
  obtain ⟨r, rfl | ⟨v, rfl⟩⟩ := hq <;>
    exact (Option.isNone_eq_false_iff ..).mp (regOfAddr_regAddr_isNone p r)

/-- The request in flight is one of the block's own. -/
theorem requestAt_isRegisterRequest {s : State} {q : Request} (h : requestAt s = some q) :
    IsRegisterRequest s.par q := by
  obtain ⟨i, -, hq⟩ := Option.bind_eq_some_iff.mp h
  exact requestOf_isRegisterRequest hq

/-- The Target may still perform the access that reset abandons. -/
theorem Inv.abandonInFlight {s : State} (h : Inv s) (landed : Bool) : Fit s.pc (abandonInFlight landed s) := by
  unfold Machine.abandonInFlight
  split
  · next q rest hq _ =>
    have htaken : Fit s.pc { s with answers := rest } := Fit.of_same h rfl rfl
    cases landed with
    | false => exact htaken
    | true => exact htaken.perform (onMap_of_isRegisterRequest (requestAt_isRegisterRequest hq)) none
  · exact h

theorem Inv.ends_reset {s : State} (h : Inv s) (landed : Bool) : Ends Inv (resetTurn landed s) := by
  have hleft := h.abandonInFlight landed
  exact ends_next (Fit.inv (k := sIdle) (fit_idle hleft.block.printed nofun (fun _ => rfl) (Nat.zero_le _)
    (Nat.zero_le _) (Nat.zero_le _) ⟨hleft.target.canonical, hleft.target.onMap⟩) rfl)

theorem Inv.ends_step {s : State} (h : Inv s) : Ends Inv (step s) := by
  unfold step checkedTurn
  split
  · have hrest (rest : List Turn) : Inv { s with turns := rest } := h.of_same rfl rfl rfl
    unfold takeTurn
    split
    · exact h.ends_block
    · exact (hrest _).ends_block
    · exact (hrest _).ends_call _
    · exact ends_next (h.of_same rfl rfl rfl)
    · exact (hrest _).ends_line _
    · exact (hrest _).ends_otherWrite _ _
    · exact (hrest _).ends_otherRead _ _
    · exact (hrest _).ends_otherAccess _ _
    · exact (hrest _).ends_targetReset _
    · exact (hrest _).ends_reset _
  · exact nofun

/-- Settles O58: each agent's turn keeps the invariant, the block's by its micro-operation at STEP. -/
theorem invariantIsKeptByEveryStep : Obligations.InvariantIsKeptByEveryStep :=
  fun _ t h => h.ends_step t

end Sys2Proof.Safety
end

section
/-! PROOFS. What one step runs (spec/10_state.md R24, R25; spec/30_encoding.md R81, R89, R92): the decoder on the bytes
of a STEP code and of a CMD word, and the turn that is taken. -/

namespace Sys2Proof

/-! ### The decoder on the bytes of one word -/

theorem stepByte_fields (c : BitVec 5) :
    (0#3 ++ c).extractLsb' 5 3 = 0#3 ∧ (0#3 ++ c).extractLsb' 0 5 = c := by
  decide +revert

/-- The byte of a STEP code decodes to the micro-operation of the code. -/
theorem decode_stepByte {c : BitVec 5} {i : Instr} (h : decode [0#3 ++ c] = .instr i) : decodeStep c = some i := by
  obtain ⟨hpad, hcode⟩ := stepByte_fields c
  simp only [decode, hpad, hcode, if_true] at h
  split at h
  · next hi => rw [hi, Decoded.instr.inj h]
  · cases h

/-- The six bytes of a CMD word, joined again. -/
theorem joinCommandBytes (w : BitVec 41) :
    (0#7 ++ w.extractLsb' 40 1).extractLsb' 0 1 ++ w.extractLsb' 32 8 ++ w.extractLsb' 24 8 ++ w.extractLsb' 16 8 ++
      w.extractLsb' 8 8 ++ w.extractLsb' 0 8 = w := by
  have join (n k : Nat) : w.extractLsb' (n + 8) k ++ w.extractLsb' n 8 = w.extractLsb' n (k + 8) :=
    BitVec.extractLsb'_append_extractLsb'_eq_extractLsb' rfl
  rw [BitVec.extractLsb'_append_eq_right, join 32 1, join 24 9, join 16 17, join 8 25, join 0 33]
  exact BitVec.extractLsb'_eq_self

/-- The bytes of a CMD word decode to the command of the word (log 12). -/
theorem decode_commandBytes (w : BitVec 41) : decode (codeBytes (.cmd w)) = .instr (decodeCmd w) := by
  have hpad : (0#7 ++ w.extractLsb' 40 1).extractLsb' 1 7 = 0#7 := BitVec.extractLsb'_append_eq_left
  simp only [codeBytes, decode, hpad, if_true, joinCommandBytes]

end Sys2Proof

namespace Sys2Proof.Machine

open Sys2Proof.Safety

/-! ### The turn that is taken -/

/-- With legal parameters a step takes the next turn. -/
theorem step_legal {s : State} (h : s.par.legal = true) : step s = takeTurn s := if_pos h

/-- At the block's turn the step is the block's, whether the turn is listed or nobody else's is (log 5). -/
theorem step_blockActs {s : State} (hlegal : s.par.legal = true) (h : BlockActs s) :
    step s = blockTurn { s with turns := s.turns.tail } := by
  rw [step_legal hlegal]
  cases s with
  | mk =>
  simp only [BlockActs] at h
  rcases h with rfl | h
  · rfl
  · obtain ⟨rest, rfl⟩ := List.head?_eq_some_iff.mp h
    rfl

theorem blockTurn_decoded {s : State} {i : Instr} (h : decodeStep s.pc = some i) : blockTurn s = exec i s := by
  rw [blockTurn, h]

theorem decodeStep_unused {c : BitVec 5} (h21 : 21 ≤ c.toNat) (h30 : c.toNat ≤ 30) : decodeStep c = none := by
  decide +revert

/-- Settles O9: the two turns that run an instruction, by what the decoder reads from the bytes of its word. -/
theorem stepRunsTheDecodedInstruction : Obligations.StepRunsTheDecodedInstruction := by
  intro s i hlegal
  constructor
  · intro hacts hi
    rw [step_blockActs hlegal hacts]
    exact blockTurn_decoded (decode_stepByte hi)
  · intro w rest hturns hi
    have hcmd : decodeCmd w = i := Decoded.instr.inj ((decode_commandBytes w).symm.trans hi)
    rw [step_legal hlegal, takeTurn, hturns, ← hcmd]
    rfl

/-- Settles O12: no micro-operation has a code of 21 to 30. -/
theorem unusedStepCodeIsStuck : Obligations.UnusedStepCodeIsStuck := by
  intro s hlegal hacts h21 h30
  rw [step_blockActs hlegal hacts, blockTurn, decodeStep_unused h21 h30]

end Sys2Proof.Machine
end

section
/-! PROOFS. STEP and `DONE` under one instruction (spec/10_state.md R24, R26): the thirteen micro-operations with an
access by what they can do, the nine others one by one. -/

namespace Sys2Proof.Machine

open Sys2Proof.Safety

/-! ### STEP -/

/-- How STEP moves from `code` at the micro-operation `i`: to `S_FAULT` where an access is refused, nowhere where it is
not answered, else to `next`. -/
def GoesTo (i : Instr) (code next : BitVec 5) (s t : State) : Prop :=
  (i, code) ∈ accessing ∧ (∃ cause, nextAnswer s = .refuse cause) ∧ t.pc = 31#5 ∨
    (i, code) ∈ accessing ∧ nextAnswer s = .silent ∧ t.pc = code ∨
    ((i, code) ∈ accessing → (wordGiven 0#32 (nextAnswer s)).isSome = true) ∧ t.pc = next

/-- The thirteen with an access go on to the next code. -/
theorem goesTo_accessing {i : Instr} {code : BitVec 5} (hi : (i, code) ∈ accessing) {s t : State}
    (h : exec i s = .next t) : GoesTo i code (code + 1#5) s t := by
  rcases exec_accessing_ends hi h with ⟨q, x, -, hserved, rfl⟩ | ⟨hc, rfl⟩ | ⟨hs, rfl⟩
  · exact .inr (.inr ⟨fun _ => hserved, rfl⟩)
  · exact .inl ⟨hi, hc, rfl⟩
  · exact .inr (.inl ⟨hi, hs, rfl⟩)

/-- A micro-operation without an access has its successor for every answer. -/
theorem goesTo_registerOnly {i : Instr} {code next : BitVec 5} (hi : (i, code) ∉ accessing) {s t : State}
    (h : t.pc = next) : GoesTo i code next s t :=
  .inr (.inr ⟨fun hmem => absurd hmem hi, h⟩)

theorem pc_accept {s t : State} (hpc : s.pc = 0#5) (h : exec .accept s = .next t) :
    t.pc = if s.cmds = [] then 0#5 else 1#5 := by
  rcases exec_accept_cases s with ⟨hc, he⟩ | ⟨w, rest, hc, ⟨-, he⟩ | ⟨-, he⟩⟩ <;> cases he.symm.trans h
  · simp [hc, hpc]
  · simp [hc]

theorem pc_divStep {s t : State} (hp : s.par.AsPrinted) (h : exec .divStep s = .next t) :
    t.pc = if 15000 < s.dur.toNat ∧ s.div.toNat < 7 then 5#5 else 6#5 := by
  rcases exec_divStep_cases s with ⟨hdur, hdiv, he⟩ | ⟨hstop, he⟩ <;> cases he.symm.trans h
  · rw [hp.maxDuration] at hdur
    rw [hp.maxDiv] at hdiv
    exact (if_pos ⟨hdur, hdiv⟩).symm
  · rw [hp.maxDuration, hp.maxDiv] at hstop
    exact (if_neg hstop).symm

theorem pc_fallback {s t : State} (h : exec .fallback s = .next t) : t.pc = 7#5 := by
  rcases exec_fallback_cases s with ⟨-, he⟩ | ⟨-, he⟩ <;> cases he.symm.trans h <;> rfl

theorem pc_dutyTest {s t : State} (h : exec .dutyTest s = .next t) :
    t.pc = if s.duty = 0#7 ∨ s.duty = 100#7 then 16#5 else 18#5 := by
  cases h
  simp [overrides]

/-- Settles O11: an access that is served goes to the next code; the micro-operations without one go where their
conditions say. -/
theorem stepOrderFollowsTheTable : Obligations.StepOrderFollowsTheTable := by
  intro s t i code next hp hpc h hmem
  simp only [List.mem_cons, Prod.mk.injEq, List.not_mem_nil, or_false] at hmem
  rcases hmem with e | e | e | e | e | e | e | e | e | e | e | e | e | e | e | e | e | e | e | e | e | e <;>
    obtain ⟨rfl, rfl, rfl⟩ := e <;> refine ⟨rfl, ?_⟩
  · exact goesTo_registerOnly (by decide) (pc_accept hpc h)
  iterate 2 exact goesTo_accessing (by decide) h
  · cases h
    exact goesTo_registerOnly (by decide) rfl
  · cases h
    exact goesTo_registerOnly (by decide) rfl
  · exact goesTo_registerOnly (by decide) (pc_divStep hp h)
  · exact goesTo_registerOnly (by decide) (pc_fallback h)
  · cases h
    exact goesTo_registerOnly (by decide) rfl
  iterate 7 exact goesTo_accessing (by decide) h
  · exact goesTo_registerOnly (by decide) (pc_dutyTest h)
  iterate 4 exact goesTo_accessing (by decide) h
  · cases h
    exact goesTo_registerOnly (by decide) rfl
  · cases h
    exact goesTo_registerOnly (by decide) hpc

/-! ### `DONE` -/

/-- An access leaves `DONE` alone, however it ends. -/
theorem done_accessing {i : Instr} (hi : i ∈ accessing.map Prod.fst) {s t : State} (h : exec i s = .next t) :
    t.done = s.done := by
  obtain ⟨⟨i, code⟩, hmem, rfl⟩ := List.mem_map.mp hi
  rcases exec_accessing_ends hmem h with ⟨q, x, -, -, rfl⟩ | ⟨-, rfl⟩ | ⟨-, rfl⟩
  · unfold afterAccess
    split <;> rfl
  · rfl
  · rfl

/-- The search loop leaves `DONE` alone on both its ways. -/
theorem done_divStep {s t : State} (h : exec .divStep s = .next t) : t.done = s.done := by
  rcases exec_divStep_cases s with ⟨-, -, he⟩ | ⟨-, he⟩ <;> cases he.symm.trans h <;> rfl

theorem done_fallback {s t : State} (h : exec .fallback s = .next t) : t.done = s.done := by
  rcases exec_fallback_cases s with ⟨-, he⟩ | ⟨-, he⟩ <;> cases he.symm.trans h <;> rfl

/-- `ACCEPT` clears `DONE` or does nothing. -/
theorem done_accept {s t : State} (h : exec .accept s = .next t) : t.done = s.done ∨ t.done = false := by
  rcases exec_accept_cases s with ⟨-, he⟩ | ⟨w, rest, -, ⟨-, he⟩ | ⟨-, he⟩⟩ <;> cases he.symm.trans h
  · exact .inl rfl
  · exact .inr rfl

/-- Settles O53: apart from the whole commands only `FINISH` and `ACCEPT` do not leave `DONE` alone. -/
theorem doneChangesOnlyAtFinishAndAccept : Obligations.DoneChangesOnlyAtFinishAndAccept := by
  intro i s t h hne
  cases i
  case pwmOff c d => exact .inr (.inr (.inl ⟨c, d, rfl⟩))
  case pwmSet c f d => exact .inr (.inr (.inr ⟨c, f, d, rfl⟩))
  case reserved => cases h
  case accept => exact .inr (.inl ⟨rfl, (done_accept h).resolve_left hne⟩)
  case finish =>
    cases h
    exact .inl ⟨rfl, rfl⟩
  case freqTest | divInit | split | dutyTest | sFault =>
    cases h
    exact absurd rfl hne
  case divStep => exact absurd (done_divStep h) hne
  case fallback => exact absurd (done_fallback h) hne
  all_goals exact absurd (done_accessing (by decide) h) hne

end Sys2Proof.Machine
end

section
/-! PROOFS. A channel's condition (spec/10_state.md R37, spec/40_command.md R115): what the two functions answer, how a
whole command ends, and the enable bit that a served one leaves. -/

namespace Sys2Proof.Machine

open Sys2Proof.Safety

/-! ### The two conditions -/

theorem configuringStep_iff (k : BitVec 5) : configuringStep k = true ↔ 3 ≤ k.toNat ∧ k.toNat ≤ 19 := by
  simp [configuringStep]

section Condition

variable {s : State} {c : BitVec 2}

theorem conditions_enabled (h : (s.reg .en).getLsbD c.toNat = true) :
    channelCondition s c = .enabled ∧ commandCondition s c = .enabled :=
  ⟨if_pos h, if_pos h⟩

theorem channelCondition_of_bit (h : (s.reg .en).getLsbD c.toNat = false) :
    channelCondition s c =
      if s.ch = c ∧ 3 ≤ s.pc.toNat ∧ s.pc.toNat ≤ 19 then .configuring else .disabled := by
  simp only [channelCondition, h, Bool.false_eq_true, if_false, configuringStep_iff]

theorem commandCondition_of_bit (h : (s.reg .en).getLsbD c.toNat = false) :
    commandCondition s c =
      if s.ch = c ∧ (3 ≤ (commandStep s).toNat ∧ (commandStep s).toNat ≤ 19) ∧ s.freq ≠ 0#32 then .configuring
      else .disabled := by
  simp only [commandCondition, h, Bool.false_eq_true, if_false, configuringStep_iff]

theorem commandStep_of_fault (h : s.pc = sFaultCode) : commandStep s = s.fstep := if_pos h

theorem commandStep_of_not_fault (h : s.pc ≠ sFaultCode) : commandStep s = s.pc := if_neg h

/-- Outside `S_FREQ_TEST` to `S_EN_SET` and off the fault state a channel whose bit is 0 is Disabled, by both. -/
theorem conditions_disabled (h : (s.reg .en).getLsbD c.toNat = false) (hstep : s.pc.toNat < 3 ∨ 19 < s.pc.toNat)
    (hfault : s.pc ≠ sFaultCode) : channelCondition s c = .disabled ∧ commandCondition s c = .disabled := by
  rw [channelCondition_of_bit h, commandCondition_of_bit h, commandStep_of_not_fault hfault]
  exact ⟨if_neg (by omega), if_neg (by omega)⟩

/-- While the block is idle a channel whose bit is 0 is Disabled. -/
theorem conditions_idle (h : (s.reg .en).getLsbD c.toNat = false) (hpc : s.pc = sIdle) :
    channelCondition s c = .disabled ∧ commandCondition s c = .disabled :=
  conditions_disabled h (by rw [hpc]; decide) (by rw [hpc]; decide)

/-- An idle block configures no channel. -/
theorem commandCondition_idle (hpc : s.pc = sIdle) : commandCondition s c ≠ .configuring := by
  cases hbit : (s.reg .en).getLsbD c.toNat with
  | true =>
    rw [(conditions_enabled hbit).2]
    decide
  | false =>
    rw [(conditions_idle hbit hpc).2]
    decide

/-- Where they differ (log 20): a configuring step has another frequency than 0 but for `S_FREQ_TEST`. -/
theorem conditions_differ (hinv : BlockInv s) (h : commandCondition s c ≠ channelCondition s c) :
    s.pc = 3#5 ∧ s.freq = 0#32 ∨ s.pc = 31#5 := by
  by_cases hfault : s.pc = sFaultCode
  · exact .inr hfault
  · refine .inl ?_
    cases hbit : (s.reg .en).getLsbD c.toNat with
    | true =>
      obtain ⟨hchannel, hcommand⟩ := conditions_enabled hbit
      exact absurd (hcommand.trans hchannel.symm) h
    | false =>
      rw [channelCondition_of_bit hbit, commandCondition_of_bit hbit, commandStep_of_not_fault hfault] at h
      have hfreq : s.freq = 0#32 := by
        by_contra hne
        simp [hne] at h
      have hstep : 3 ≤ s.pc.toNat ∧ s.pc.toNat ≤ 19 := by
        by_contra hout
        simp [hout] at h
      have hfirst : ¬ 4 ≤ s.pc.toNat := fun h4 =>
        hinv.freqNonzero (by simp [pastFreqTest, h4, hstep.2]) hfreq
      exact ⟨BitVec.eq_of_toNat_eq (by simp; omega), hfreq⟩

end Condition

/-! ### How a whole command ends -/

theorem decodeStep_accessing {i : Instr} {code : BitVec 5} (hi : (i, code) ∈ accessing) :
    decodeStep code = some i := by
  have all : ∀ e ∈ accessing, decodeStep e.2 = some e.1 := by decide
  exact all _ hi

/-- A block held by a silent Target at one of the thirteen codes is hung (R205). -/
theorem hung_held {code : BitVec 5} (hcode : code ∈ accessing.map Prod.snd) {s : State}
    (h : nextAnswer s = .silent) : Hung { s with pc := code } := by
  obtain ⟨⟨i, code⟩, hi, rfl⟩ := List.mem_map.mp hcode
  obtain ⟨q, hq, -⟩ := exec_accessing_cases hi { s with pc := code }
  refine ⟨by simp [requestAt, decodeStep_accessing hi, hq], ?_⟩
  cases ha : s.answers with
  | nil => simp [nextAnswer, ha] at h
  | cons a rest => simpa [nextAnswer, ha] using h

/-- The three ways a run ends (spec/00_scope.md R13). -/
def EndsARun (t : State) : Prop := Completed t ∨ Faulted t ∨ Hung t

theorem endsARun_phase {codes : List (BitVec 5)} (h : ∀ code ∈ codes, code ∈ accessing.map Prod.snd) :
    Phase (fun _ => True) EndsARun codes where
  served _ _ _ _ _ := trivial
  noted _ _ _ := trivial
  refused _ _ _ _ := .inr (.inl rfl)
  held _ _ code hcode hs := .inr (.inr (hung_held (h code hcode) hs))

theorem finished_endsARun (s : State) : EndsARun (finished s) := .inl ⟨rfl, rfl⟩

/-- A command taken from idle completes, faults or hangs. -/
theorem program_endsARun {c : BitVec 2} {f : Word} {d : BitVec 7} {s : State} (hpc : s.pc = sIdle) :
    Ends EndsARun (program c f d s) :=
  program_ends (endsARun_phase (by decide)) (endsARun_phase (by decide))
    (waiting := fun h => absurd hpc h) (latched := fun _ _ => trivial) (computed := fun _ _ => id)
    (off := fun u _ => finished_endsARun u) (on := fun u _ => finished_endsARun u)

/-- A command that leaves a channel Configuring has not completed. -/
theorem configuring_of_endsARun {t : State} (h : EndsARun t) {e : BitVec 2}
    (hconf : commandCondition t e = .configuring) : Faulted t ∨ Hung t :=
  h.resolve_left fun hdone => commandCondition_idle hdone.1 hconf

/-! ### Served commands -/

/-- `x` is a next state, and it meets `P`. -/
def Serves (P : State → Prop) (x : Result) : Prop := ∃ t, x = .next t ∧ P t

/-- A command for channel `c` is under way and no answer refuses or stays silent. -/
structure ServedFor (c : BitVec 2) (s : State) : Prop where
  ch : s.ch = c
  answers : AllServe s.answers

theorem nextAnswer_serves {s : State} (h : AllServe s.answers) :
    (wordGiven 0#32 (nextAnswer s)).isSome = true := by
  unfold nextAnswer
  cases ha : s.answers with
  | nil => rfl
  | cons a rest => exact h a (by simp [ha])

theorem afterAccess_answers (q : Request) (x : Word) (s : State) : (afterAccess q x s).answers = s.answers.tail := by
  unfold afterAccess
  split <;> rfl

theorem afterAccess_ch (q : Request) (x : Word) (s : State) : (afterAccess q x s).ch = s.ch := by
  unfold afterAccess
  split <;> rfl

/-- An access that no answer can stop goes on. -/
theorem ServedFor.accessThen {c : BitVec 2} {s : State} (h : ServedFor c s) {q : Request}
    (hq : IsRegisterRequest s.par q) (code : BitVec 5) (k : Word → State → Result) :
    ∃ x, Machine.accessThen code q s k = k x (afterAccess q x s) ∧ ServedFor c (afterAccess q x s) := by
  have hserves := nextAnswer_serves h.answers
  rcases accessThen_cases hq code k with ⟨x, -, he⟩ | ⟨⟨cause, hc⟩, -⟩ | ⟨hs, -⟩
  · refine ⟨x, he, (afterAccess_ch q x s).trans h.ch, ?_⟩
    rw [afterAccess_answers]
    exact fun a ha => h.answers a (List.mem_of_mem_tail ha)
  · simp [hc, wordGiven] at hserves
  · simp [hs, wordGiven] at hserves

section Served

variable {P : State → Prop} {c : BitVec 2} {s : State} {k : State → Result}

theorem ServedFor.putThen (h : ServedFor c s) {code : BitVec 5} {r : Reg} {v : Word}
    (hk : ∀ u, ServedFor c u → Serves P (k u)) : Serves P (putThen code r v s k) := by
  obtain ⟨x, he, hu⟩ := h.accessThen ⟨r, .inr ⟨v, rfl⟩⟩ code fun _ t => k t
  rw [putThen_eq, he]
  exact hk _ hu

/-- After the read and the write of Global Enable it holds the word written. -/
theorem ServedFor.updateEnThen (h : ServedFor c s) {rd wr : BitVec 5} {update : Word → BitVec 2 → Word}
    (hk : ∀ u e, ServedFor c u → u.reg .en = update e c → Serves P (k u)) :
    Serves P (Machine.accessThen rd (readReq s.par .en) s fun x t =>
      Machine.putThen wr .en (update x t.ch) { t with entmp := x } k) := by
  obtain ⟨e, he, hu⟩ := h.accessThen ⟨.en, .inl rfl⟩ rd fun x t =>
    Machine.putThen wr .en (update x t.ch) { t with entmp := x } k
  have hnoted : ServedFor c { afterAccess (readReq s.par .en) e s with entmp := e } := ⟨hu.ch, hu.answers⟩
  obtain ⟨x, hx, hv⟩ := hnoted.accessThen ⟨.en, .inr ⟨update e _, rfl⟩⟩ wr fun _ t => k t
  rw [he, putThen_eq, hx]
  exact hk _ e hv ((Memory.word_putWord_same _ _ _).trans (congrArg (update e) hu.ch))

theorem ServedFor.configureThen (h : ServedFor c s) (hk : ∀ u, ServedFor c u → Serves P (k u)) :
    Serves P (configureThen s k) := by
  unfold Machine.configureThen
  iterate 6 refine ServedFor.putThen (by assumption) fun _ _ => ?_
  exact ServedFor.putThen (by assumption) hk

theorem ServedFor.overrideThen (h : ServedFor c s) (hk : ∀ u, ServedFor c u → Serves P (k u)) :
    Serves P (overrideThen s k) := by
  unfold Machine.overrideThen
  split
  · exact h.putThen fun _ hu => hu.putThen hk
  · exact hk s h

end Served

theorem clearEnable_bit (e : Word) (c : BitVec 2) : (clearEnable e c).getLsbD c.toNat = false := by
  simp [clearEnable, enMask]

theorem setEnable_bit (e : Word) (c : BitVec 2) : (setEnable e c).getLsbD c.toNat = true := by
  have := c.isLt
  simp [setEnable, enMask]
  omega

/-- At `S_IDLE` a command that is not reserved is latched and runs. -/
theorem program_latched {c : BitVec 2} {f : Word} {d : BitVec 7} {s : State} (hpc : s.pc = sIdle)
    (hr : reservedOperands f d = false) :
    program c f d s = disableThen (latch c f d s) fun u =>
      if f = 0#32 then .next (finished u)
      else configureThen (compute u) fun v => overrideThen v fun w => enableThen w fun z => .next (finished z) := by
  simp [program, hr, hpc]

/-- A served `PWM.OFF` ends idle with the channel's bit clear. -/
theorem pwmOff_served {c : BitVec 2} {d : BitVec 7} {s : State} (hpc : s.pc = sIdle) (h : AllServe s.answers) :
    Serves (fun t => t.pc = sIdle ∧ (t.reg .en).getLsbD c.toNat = false) (exec (.pwmOff c d) s) := by
  have hlatched : ServedFor c (latch c 0#32 d s) := ⟨rfl, h⟩
  have hrun : exec (.pwmOff c d) s = disableThen (latch c 0#32 d s) fun u => .next (finished u) := by
    rw [exec_pwmOff, program_latched hpc ((reservedOperands_eq_false_iff _ _).mpr fun h0 => absurd rfl h0)]
    rfl
  rw [hrun]
  refine hlatched.updateEnThen fun u e _ hen => ⟨_, rfl, rfl, ?_⟩
  exact (congrArg (·.getLsbD c.toNat) hen).trans (clearEnable_bit e c)

/-- A served `PWM.SET` ends idle with the channel's bit set. -/
theorem pwmSet_served {c : BitVec 2} {f : Word} {d : BitVec 7} {s : State} (hpc : s.pc = sIdle)
    (h : AllServe s.answers) (hf : f ≠ 0#32) (hd : d.toNat ≤ 100) :
    Serves (fun t => (t.reg .en).getLsbD c.toNat = true) (exec (.pwmSet c f d) s) := by
  have hlatched : ServedFor c (latch c f d s) := ⟨rfl, h⟩
  have hrun : exec (.pwmSet c f d) s = disableThen (latch c f d s) fun u =>
      configureThen (compute u) fun v => overrideThen v fun w => enableThen w fun z => .next (finished z) := by
    rw [exec_pwmSet, program_latched hpc ((reservedOperands_eq_false_iff _ _).mpr fun _ => hd)]
    simp only [hf, if_false]
  rw [hrun]
  refine hlatched.updateEnThen fun u _ hu _ => ?_
  have hcomputed : ServedFor c (compute u) := ⟨hu.ch, hu.answers⟩
  refine hcomputed.configureThen fun v hv => hv.overrideThen fun w hw => ?_
  refine hw.updateEnThen fun z e _ hen => ⟨_, rfl, ?_⟩
  exact (congrArg (·.getLsbD c.toNat) hen).trans (setEnable_bit e c)

/-- Settles O41: the two conditions by the enable bit and the step, and the bit and the step a command ends with. -/
theorem channelStateMachine : Obligations.ChannelStateMachine := by
  intro c f d s
  refine ⟨fun _ hpc hserve => ⟨?_, fun hf hd => ?_⟩, ?_, conditions_enabled, fun hbit hch => ⟨?_, ?_, ?_⟩, ?_,
    conditions_differ⟩
  · obtain ⟨t, ht, hidle, hbit⟩ := pwmOff_served (c := c) (d := d) hpc hserve
    exact ⟨t, ht, conditions_idle hbit hidle⟩
  · obtain ⟨t, ht, hbit⟩ := pwmSet_served (c := c) hpc hserve hf hd
    exact ⟨t, ht, conditions_enabled hbit⟩
  · rintro i t hpc (rfl | rfl) h e hconf
    · rw [exec_pwmOff] at h
      exact configuring_of_endsARun (program_endsARun hpc t h) hconf
    · rw [exec_pwmSet] at h
      exact configuring_of_endsARun (program_endsARun hpc t h) hconf
  · intro h3 h19
    have hfault : s.pc ≠ sFaultCode := by
      rintro hpc
      simp [hpc] at h19
    rw [channelCondition_of_bit hbit, commandCondition_of_bit hbit, commandStep_of_not_fault hfault]
    simp [hch, h3, h19]
  · intro hfault
    rw [channelCondition_of_bit hbit, commandCondition_of_bit hbit, commandStep_of_fault hfault]
    simp [hch, hfault, and_assoc]
  · exact conditions_disabled hbit
  · intro hbit hch
    rw [channelCondition_of_bit hbit, commandCondition_of_bit hbit]
    simp [hch]

end Sys2Proof.Machine
end

section
/-! PROOFS. Values of an earlier command (spec/10_state.md R27). Two states are alike at a STEP code when they agree in
everything but the registers that the code and those after it write before they read; every turn of every agent keeps
this. -/

namespace Sys2Proof.Machine

open Sys2Proof.Safety

/-! ### Which registers are live -/

/-- Everything but the block's registers. -/
def world (s : State) := (s.mem, s.trace, s.cmds, s.answers, s.turns, s.par)

/-- The registers `ACCEPT` writes. -/
def operands (s : State) := (s.ch, s.freq, s.duty)

/-- The registers the search writes. -/
def timings (s : State) := (s.clksel, s.div, s.dur)

/-- The registers `SPLIT` writes. -/
def phases (s : State) := (s.durh, s.durl)

/-- Alike at the STEP code `k`: a register is live from the code after the one that first writes it up to `S_EN_SET`. -/
structure AlikeAt (k : BitVec 5) (s t : State) : Prop where
  world : world s = world t
  operands : 1 ≤ k.toNat → k.toNat ≤ 19 → operands s = operands t
  temporary : 2 ≤ k.toNat → k.toNat ≤ 19 → s.entmp = t.entmp
  timings : 5 ≤ k.toNat → k.toNat ≤ 19 → timings s = timings t
  phases : 8 ≤ k.toNat → k.toNat ≤ 19 → phases s = phases t

/-- Alike at the code both stand at. -/
structure Alike (s t : State) : Prop where
  pc : s.pc = t.pc
  live : AlikeAt s.pc s t

/-- Of the registers that become live at the codes `ns`, those live at `k` are live at `j`. -/
abbrev Covers (ns : List Nat) (j k : BitVec 5) : Prop :=
  ∀ n ∈ ns, n ≤ k.toNat → k.toNat ≤ 19 → n ≤ j.toNat ∧ j.toNat ≤ 19

section AlikeAt

variable {j k : BitVec 5} {s t : State} (h : AlikeAt k s t)
include h

theorem AlikeAt.world_fields :
    s.mem = t.mem ∧ s.trace = t.trace ∧ s.cmds = t.cmds ∧ s.answers = t.answers ∧ s.turns = t.turns ∧
      s.par = t.par := by
  simpa [Machine.world] using h.world

theorem AlikeAt.par : s.par = t.par := by
  obtain ⟨-, -, -, -, -, hpar⟩ := h.world_fields
  exact hpar

theorem AlikeAt.operand_fields (h1 : 1 ≤ k.toNat) (h19 : k.toNat ≤ 19) :
    s.ch = t.ch ∧ s.freq = t.freq ∧ s.duty = t.duty := by
  simpa [Machine.operands] using h.operands h1 h19

theorem AlikeAt.timing_fields (h5 : 5 ≤ k.toNat) (h19 : k.toNat ≤ 19) :
    s.clksel = t.clksel ∧ s.div = t.div ∧ s.dur = t.dur := by
  simpa [Machine.timings] using h.timings h5 h19

theorem AlikeAt.operands_of {ns : List Nat} (hc : Covers ns k j) (hn : 1 ∈ ns) (h1 : 1 ≤ j.toNat)
    (h19 : j.toNat ≤ 19) : Machine.operands s = Machine.operands t :=
  h.operands (hc 1 hn h1 h19).1 (hc 1 hn h1 h19).2

theorem AlikeAt.temporary_of {ns : List Nat} (hc : Covers ns k j) (hn : 2 ∈ ns) (h2 : 2 ≤ j.toNat)
    (h19 : j.toNat ≤ 19) : s.entmp = t.entmp :=
  h.temporary (hc 2 hn h2 h19).1 (hc 2 hn h2 h19).2

theorem AlikeAt.timings_of {ns : List Nat} (hc : Covers ns k j) (hn : 5 ∈ ns) (h5 : 5 ≤ j.toNat)
    (h19 : j.toNat ≤ 19) : Machine.timings s = Machine.timings t :=
  h.timings (hc 5 hn h5 h19).1 (hc 5 hn h5 h19).2

theorem AlikeAt.phases_of {ns : List Nat} (hc : Covers ns k j) (hn : 8 ∈ ns) (h8 : 8 ≤ j.toNat)
    (h19 : j.toNat ≤ 19) : Machine.phases s = Machine.phases t :=
  h.phases (hc 8 hn h8 h19).1 (hc 8 hn h8 h19).2

/-- Past `SPLIT` every data register is live: only `FSTEP`, `DONE` and STEP may differ. -/
theorem AlikeAt.eq_of_configuring (h8 : 8 ≤ k.toNat) (h19 : k.toNat ≤ 19) :
    ∃ fstep done pc, t = { s with fstep := fstep, done := done, pc := pc } := by
  obtain ⟨hmem, htrace, hcmds, hanswers, hturns, hpar⟩ := h.world_fields
  obtain ⟨hch, hfreq, hduty⟩ := h.operand_fields (by omega) h19
  obtain ⟨hclksel, hdiv, hdur⟩ := h.timing_fields (by omega) h19
  have hentmp := h.temporary (by omega) h19
  obtain ⟨hdurh, hdurl⟩ : s.durh = t.durh ∧ s.durl = t.durl := by simpa [Machine.phases] using h.phases h8 h19
  refine ⟨t.fstep, t.done, t.pc, ?_⟩
  rw [hmem, htrace, hcmds, hanswers, hturns, hpar, hch, hfreq, hduty, hclksel, hdiv, hdur, hentmp, hdurh, hdurl]

/-- At a code where no more is live. -/
theorem AlikeAt.reach (hc : Covers [1, 2, 5, 8] k j) : AlikeAt j s t where
  world := h.world
  operands := h.operands_of hc (by decide)
  temporary := h.temporary_of hc (by decide)
  timings := h.timings_of hc (by decide)
  phases := h.phases_of hc (by decide)

/-- The same word in `ENTMP` of both makes it live. -/
theorem AlikeAt.noted (x : Word) (hc : Covers [1, 5, 8] k j) :
    AlikeAt j { s with entmp := x } { t with entmp := x } where
  world := h.world
  operands := h.operands_of hc (by decide)
  temporary _ _ := rfl
  timings := h.timings_of hc (by decide)
  phases := h.phases_of hc (by decide)

/-- The same timing in both makes it live. -/
theorem AlikeAt.retimed {mode mode' : ClockMode} {div div' : BitVec 3} {dur dur' : Word} (hmode : mode = mode')
    (hdiv : div = div') (hdur : dur = dur') (hc : Covers [1, 2, 8] k j) :
    AlikeAt j { s with clksel := mode, div := div, dur := dur }
      { t with clksel := mode', div := div', dur := dur' } where
  world := h.world
  operands := h.operands_of hc (by decide)
  temporary := h.temporary_of hc (by decide)
  timings _ _ := by simp [Machine.timings, *]
  phases := h.phases_of hc (by decide)

/-- The same phases in both make them live. -/
theorem AlikeAt.phased {high high' low low' : Word} (hhigh : high = high') (hlow : low = low')
    (hc : Covers [1, 2, 5] k j) :
    AlikeAt j { s with durh := high, durl := low } { t with durh := high', durl := low' } where
  world := h.world
  operands := h.operands_of hc (by decide)
  temporary := h.temporary_of hc (by decide)
  timings := h.timings_of hc (by decide)
  phases _ _ := by simp [Machine.phases, *]

/-- STEP, `FSTEP` and `DONE` are never read but for where STEP stands. -/
theorem AlikeAt.moved (hc : Covers [1, 2, 5, 8] k j) : Alike { s with pc := j } { t with pc := j } := by
  obtain ⟨hworld, hoperands, htemporary, htimings, hphases⟩ := h.reach hc
  exact ⟨rfl, hworld, hoperands, htemporary, htimings, hphases⟩

end AlikeAt

/-- Where no register is live the rest is all there is. -/
theorem alikeAt_dead {k : BitVec 5} (hk : k.toNat = 0 ∨ 19 < k.toNat) {s t : State} (hw : world s = world t) :
    AlikeAt k s t where
  world := hw
  operands h h19 := by omega
  temporary h h19 := by omega
  timings h h19 := by omega
  phases h h19 := by omega

/-- STEP and the registers that can be live. -/
def liveRegisters (s : State) := (s.pc, operands s, s.entmp, timings s, phases s)

/-- What changes none of these, and the world of both in the same way, keeps two states alike. -/
theorem Alike.of_world {s t s' t' : State} (h : Alike s t) (hw : world s' = world t')
    (hs : liveRegisters s' = liveRegisters s) (ht : liveRegisters t' = liveRegisters t) : Alike s' t' := by
  simp only [liveRegisters, Prod.mk.injEq] at hs ht
  obtain ⟨spc, soperands, stemporary, stimings, sphases⟩ := hs
  obtain ⟨tpc, toperands, ttemporary, ttimings, tphases⟩ := ht
  refine ⟨spc.trans (h.pc.trans tpc.symm), ?_⟩
  rw [spc]
  exact
    { world := hw
      operands := fun h1 h19 => (soperands.trans (h.live.operands h1 h19)).trans toperands.symm
      temporary := fun h2 h19 => (stemporary.trans (h.live.temporary h2 h19)).trans ttemporary.symm
      timings := fun h5 h19 => (stimings.trans (h.live.timings h5 h19)).trans ttimings.symm
      phases := fun h8 h19 => (sphases.trans (h.live.phases h8 h19)).trans tphases.symm }

theorem Alike.waits {s t : State} (h : Alike s t) (w : BitVec 41) : Alike (waits w s) (waits w t) := by
  obtain ⟨hmem, htrace, hcmds, hanswers, hturns, hpar⟩ := h.live.world_fields
  exact h.of_world (by simp [world, *]) rfl rfl

/-! ### Results -/

/-- Two steps that end alike. -/
inductive ResultsAlike : Result → Result → Prop
  | next {s t : State} (h : Alike s t) : ResultsAlike (.next s) (.next t)
  | fault (r : Fault) : ResultsAlike (.fault r) (.fault r)
  | refused (r : Refusal) : ResultsAlike (.refused r) (.refused r)

/-! ### One access -/

theorem AlikeAt.afterAccess {k : BitVec 5} {s t : State} (h : AlikeAt k s t) (q : Request) (x : Word) :
    AlikeAt k (afterAccess q x s) (afterAccess q x t) := by
  obtain ⟨hmem, htrace, hcmds, hanswers, hturns, hpar⟩ := h.world_fields
  unfold Machine.afterAccess
  split
  · exact ⟨by simp [Machine.world, *], h.operands, h.temporary, h.timings, h.phases⟩
  · exact ⟨by simp [Machine.world, *], h.operands, h.temporary, h.timings, h.phases⟩

theorem AlikeAt.afterRefusal {k : BitVec 5} {s t : State} (h : AlikeAt k s t) (code : BitVec 5) :
    Alike (afterRefusal code s) (afterRefusal code t) := by
  obtain ⟨hmem, htrace, hcmds, hanswers, hturns, hpar⟩ := h.world_fields
  exact ⟨rfl, alikeAt_dead (.inr (by simp)) (by simp [Machine.world, *])⟩

/-- The same access in two alike states, then continuations that keep them alike. -/
theorem AlikeAt.accessThen {code : BitVec 5} {s t : State} (h : AlikeAt code s t) {q : Request}
    (hq : IsRegisterRequest s.par q) {k k' : Word → State → Result}
    (hk : ∀ x u v, AlikeAt code u v → ResultsAlike (k x u) (k' x v)) :
    ResultsAlike (accessThen code q s k) (accessThen code q t k') := by
  have hqt : IsRegisterRequest t.par q := h.par ▸ hq
  obtain ⟨hmem, -, -, hanswers, -, -⟩ := h.world_fields
  have hnext : nextAnswer s = nextAnswer t := congrArg (·.headD .stored) hanswers
  have hstored : storedFor q s = storedFor q t := by rw [storedFor, storedFor, hmem]
  rcases accessThen_cases hq code k with ⟨x, hx, he⟩ | ⟨⟨c, hc⟩, he⟩ | ⟨hs, he⟩
  · rw [he, accessThen_served hqt (hstored ▸ hnext ▸ hx)]
    exact hk x _ _ (h.afterAccess q x)
  · rw [he, accessThen_refused hqt (hnext ▸ hc)]
    exact .next (h.afterRefusal code)
  · rw [he, accessThen_silent hqt (hnext ▸ hs)]
    exact .next (h.moved fun _ _ => And.intro)

/-! ### The micro-operations with an access -/

/-- Where the thirteen stand: the first read, the first write, or past `SPLIT`. -/
theorem accessing_stands {i : Instr} {code : BitVec 5} (hi : (i, code) ∈ accessing) :
    (i = .enRd1 ∧ code = 1#5) ∨ (i = .enClr ∧ code = 2#5) ∨
      (8 ≤ code.toNat ∧ code.toNat ≤ 19 ∧ Covers [1, 2, 5, 8] code (code + 1#5)) := by
  have all : ∀ e ∈ accessing, (e.1 = .enRd1 ∧ e.2 = 1#5) ∨ (e.1 = .enClr ∧ e.2 = 2#5) ∨
      (8 ≤ e.2.toNat ∧ e.2.toNat ≤ 19 ∧ Covers [1, 2, 5, 8] e.2 (e.2 + 1#5)) := by decide
  exact all _ hi

/-- No request depends on `FSTEP`, `DONE` or STEP. -/
theorem requestOf_withStatus (s : State) (fstep : BitVec 5) (done : Bool) (pc : BitVec 5) (i : Instr) :
    requestOf { s with fstep := fstep, done := done, pc := pc } i = requestOf s i := by
  cases i <;> rfl

/-- Alike states drive the same request. -/
theorem AlikeAt.requestOf_eq {i : Instr} {code : BitVec 5} (hi : (i, code) ∈ accessing) {s t : State}
    (h : AlikeAt code s t) : requestOf s i = requestOf t i := by
  have hpar := h.par
  rcases accessing_stands hi with ⟨rfl, rfl⟩ | ⟨rfl, rfl⟩ | ⟨h8, h19, -⟩
  · rw [requestOf, requestOf, hpar]
  · obtain ⟨hch, -, -⟩ := h.operand_fields (by decide) (by decide)
    rw [requestOf, requestOf, hpar, hch, h.temporary (by decide) (by decide)]
  · obtain ⟨fstep, done, pc, rfl⟩ := h.eq_of_configuring h8 h19
    exact (requestOf_withStatus s fstep done pc i).symm

theorem AlikeAt.exec_accessing {i : Instr} {code : BitVec 5} (hi : (i, code) ∈ accessing) {s t : State}
    (h : AlikeAt code s t) : ResultsAlike (exec i s) (exec i t) := by
  obtain ⟨q, hq, -⟩ := exec_accessing_cases hi s
  rw [Machine.exec_accessing hi hq, Machine.exec_accessing hi (h.requestOf_eq hi ▸ hq)]
  refine h.accessThen (requestOf_isRegisterRequest hq) fun x u v huv => .next ?_
  rcases accessing_stands hi with ⟨rfl, rfl⟩ | ⟨rfl, rfl⟩ | ⟨h8, h19, hc⟩
  · cases hq
    exact (huv.noted x (j := 2#5) (by decide)).moved (by decide)
  · cases hq
    exact huv.moved (by decide)
  · cases q.write with
    | true => exact huv.moved hc
    | false => exact (huv.noted x (j := code) fun _ _ => And.intro).moved hc

/-! ### The micro-operations without an access -/

/-- `ACCEPT` makes its operands live, from the word that both have waiting. -/
theorem Alike.accept {s t : State} (h : Alike s t) : ResultsAlike (exec .accept s) (exec .accept t) := by
  obtain ⟨hmem, htrace, hcmds, hanswers, hturns, hpar⟩ := h.live.world_fields
  change ResultsAlike (execAccept s) (execAccept t)
  unfold execAccept
  rw [← hcmds]
  split
  · exact .next h
  · split
    · exact .refused _
    · exact .next ⟨rfl, by simp [Machine.world, *], fun _ _ => rfl, nofun, nofun, nofun⟩

section RegisterOnly

variable {s t : State}

theorem AlikeAt.freqTest (h : AlikeAt sFreqTest s t) : ResultsAlike (exec .freqTest s) (exec .freqTest t) := by
  obtain ⟨-, hfreq, -⟩ := h.operand_fields (by decide) (by decide)
  rw [exec_freqTest, exec_freqTest]
  by_cases hf : s.freq = 0#32
  · rw [if_pos hf, if_pos (hfreq ▸ hf)]
    exact .next (h.moved (by decide))
  · rw [if_neg hf, if_neg (hfreq ▸ hf)]
    exact .next (h.moved (by decide))

theorem AlikeAt.divInit (h : AlikeAt sDivInit s t) : ResultsAlike (exec .divInit s) (exec .divInit t) := by
  obtain ⟨-, hfreq, -⟩ := h.operand_fields (by decide) (by decide)
  have hdur : fastDuration s.par s.freq 0 = fastDuration t.par t.freq 0 := by rw [h.par, hfreq]
  exact .next ((h.retimed (j := sDivStep) rfl rfl hdur (by decide)).moved (by decide))

theorem AlikeAt.divStep (h : AlikeAt sDivStep s t) : ResultsAlike (exec .divStep s) (exec .divStep t) := by
  obtain ⟨-, hfreq, -⟩ := h.operand_fields (by decide) (by decide)
  obtain ⟨hclksel, hdiv, hdur⟩ := h.timing_fields (by decide) (by decide)
  have hagain : (overLimit s.par s.dur && decide (s.div.toNat < s.par.maxDiv.toNat)) =
      (overLimit t.par t.dur && decide (t.div.toNat < t.par.maxDiv.toNat)) := by rw [h.par, hdur, hdiv]
  have hnext : fastDuration s.par s.freq (s.div.toNat + 1) = fastDuration t.par t.freq (t.div.toNat + 1) := by
    rw [h.par, hfreq, hdiv]
  change ResultsAlike (execDivStep s) (execDivStep t)
  rw [execDivStep, execDivStep, hagain]
  split
  · have hraised := h.retimed (j := sDivStep) hclksel (congrArg (· + 1#3) hdiv) hnext (by decide)
    exact .next (hraised.moved (by decide))
  · exact .next (h.moved (by decide))

theorem AlikeAt.fallback (h : AlikeAt sFallback s t) : ResultsAlike (exec .fallback s) (exec .fallback t) := by
  obtain ⟨-, hfreq, -⟩ := h.operand_fields (by decide) (by decide)
  obtain ⟨-, -, hdur⟩ := h.timing_fields (by decide) (by decide)
  have hover : overLimit s.par s.dur = overLimit t.par t.dur := by rw [h.par, hdur]
  have hslow : slowDuration s.par s.freq = slowDuration t.par t.freq := by rw [h.par, hfreq]
  change ResultsAlike (execFallback s) (execFallback t)
  rw [execFallback, execFallback, hover]
  split
  · exact .next ((h.retimed (j := sSplit) rfl rfl hslow (by decide)).moved (by decide))
  · exact .next (h.moved (by decide))

theorem AlikeAt.split (h : AlikeAt sSplit s t) : ResultsAlike (exec .split s) (exec .split t) := by
  obtain ⟨-, -, hduty⟩ := h.operand_fields (by decide) (by decide)
  obtain ⟨-, -, hdur⟩ := h.timing_fields (by decide) (by decide)
  have hhigh : splitHigh s.dur s.duty = splitHigh t.dur t.duty := by rw [hdur, hduty]
  have hlow : splitLow s.dur s.duty = splitLow t.dur t.duty := by rw [hdur, hduty]
  exact .next ((h.phased (j := sWrCon) hhigh hlow (by decide)).moved (by decide))

theorem AlikeAt.dutyTest (h : AlikeAt sDutyTest s t) : ResultsAlike (exec .dutyTest s) (exec .dutyTest t) := by
  obtain ⟨-, -, hduty⟩ := h.operand_fields (by decide) (by decide)
  rw [exec_dutyTest, exec_dutyTest]
  by_cases ho : overrides s.duty = true
  · rw [if_pos ho, if_pos (hduty ▸ ho)]
    exact .next (h.moved (by decide))
  · rw [if_neg ho, if_neg (hduty ▸ ho)]
    exact .next (h.moved (by decide))

theorem alike_finished (hw : world s = world t) : Alike (finished s) (finished t) :=
  ⟨rfl, alikeAt_dead (.inl (by simp)) hw⟩

/-- The micro-operation at a code without an access. -/
theorem Alike.exec_registerOnly {i : Instr} (hi : (i, s.pc) ∈ registerOnly) (h : Alike s t) :
    ResultsAlike (exec i s) (exec i t) :=
  registerOnly_forall (P := fun i k => AlikeAt k s t → ResultsAlike (exec i s) (exec i t))
    (accept := fun _ => h.accept)
    (freqTest := AlikeAt.freqTest)
    (divInit := AlikeAt.divInit)
    (divStep := AlikeAt.divStep)
    (fallback := AlikeAt.fallback)
    (split := AlikeAt.split)
    (dutyTest := AlikeAt.dutyTest)
    (finish := fun hlive => .next (alike_finished hlive.world))
    (sFault := fun _ => .next h) hi h.live

end RegisterOnly

/-! ### Whole commands -/

theorem AlikeAt.putThen {code : BitVec 5} {s t : State} (h : AlikeAt code s t) {r r' : Reg} (hr : r = r') {v v' : Word}
    (hv : v = v') {k k' : State → Result} (hk : ∀ u w, AlikeAt code u w → ResultsAlike (k u) (k' w)) :
    ResultsAlike (putThen code r v s k) (putThen code r' v' t k') := by
  subst hr hv
  rw [putThen_eq, putThen_eq, ← h.par]
  exact h.accessThen ⟨r, .inr ⟨v, rfl⟩⟩ fun _ => hk

/-- A read and a write of Global Enable for the same channel. -/
theorem AlikeAt.updateEnThen {rd wr : BitVec 5} {update : Word → BitVec 2 → Word} {s t : State} (h : AlikeAt rd s t)
    (h1 : 1 ≤ rd.toNat) (h19 : rd.toNat ≤ 19) (hwr : Covers [1, 5, 8] rd wr) {k k' : State → Result}
    (hk : ∀ u v, AlikeAt wr u v → ResultsAlike (k u) (k' v)) :
    ResultsAlike
      (Machine.accessThen rd (readReq s.par .en) s fun x u =>
        Machine.putThen wr .en (update x u.ch) { u with entmp := x } k)
      (Machine.accessThen rd (readReq t.par .en) t fun x u =>
        Machine.putThen wr .en (update x u.ch) { u with entmp := x } k') := by
  rw [← h.par]
  refine h.accessThen ⟨.en, .inl rfl⟩ fun x u v huv => ?_
  obtain ⟨hch, -, -⟩ := huv.operand_fields h1 h19
  exact (huv.noted x hwr).putThen rfl (congrArg (update x) hch) hk

/-- One write of step 6 or 7: past the calculator alike states write the same word to the same register. -/
theorem AlikeAt.putChanThen {code : BitVec 5} {s t : State} (h : AlikeAt sWrCon s t) {kind : ChanReg}
    {k k' : State → Result} (v : State → Word) (hc : Covers [1, 2, 5, 8] sWrCon code := by decide)
    (hv : ∀ u fstep done pc, v { u with fstep := fstep, done := done, pc := pc } = v u := by intros; rfl)
    (hback : Covers [1, 2, 5, 8] code sWrCon := by decide)
    (hk : ∀ u w, AlikeAt sWrCon u w → ResultsAlike (k u) (k' w)) :
    ResultsAlike (Machine.putThen code (.chan kind s.ch) (v s) s k)
      (Machine.putThen code (.chan kind t.ch) (v t) t k') := by
  have hcode := h.reach hc
  obtain ⟨fstep, done, pc, rfl⟩ := h.eq_of_configuring (by decide) (by decide)
  exact hcode.putThen rfl (hv s fstep done pc).symm fun u w huw => hk u w (huw.reach hback)

section Configuring

variable {s t : State} (h : AlikeAt sWrCon s t) {k k' : State → Result}
  (hk : ∀ u v, AlikeAt sWrCon u v → ResultsAlike (k u) (k' v))
include h hk

theorem AlikeAt.configureThen : ResultsAlike (configureThen s k) (configureThen t k') := by
  unfold Machine.configureThen
  refine h.putChanThen (fun u => controlWord u.par u.clksel u.div) (hk := fun _ _ h => ?_)
  refine h.putChanThen State.durh (hk := fun _ _ h => ?_)
  refine h.putChanThen State.durl (hk := fun _ _ h => ?_)
  refine h.putChanThen (fun u => u.par.guardValue) (hk := fun _ _ h => ?_)
  refine h.putChanThen (fun u => u.par.sendPattern) (hk := fun _ _ h => ?_)
  refine h.putChanThen (fun u => u.par.sendPattern) (hk := fun _ _ h => ?_)
  exact h.putChanThen (fun u => u.par.wavenumValue) (hk := hk)

theorem AlikeAt.overrideThen : ResultsAlike (overrideThen s k) (overrideThen t k') := by
  obtain ⟨-, -, hduty⟩ := h.operand_fields (by decide) (by decide)
  unfold Machine.overrideThen
  by_cases ho : overrides s.duty = true
  · rw [if_pos ho, if_pos (hduty ▸ ho)]
    refine h.putChanThen (fun u => overrideWord u.par u.duty) (hk := fun _ _ h => ?_)
    exact h.putChanThen (fun u => overrideWord u.par u.duty) (hk := hk)
  · rw [if_neg ho, if_neg (hduty ▸ ho)]
    exact hk s t h

end Configuring

theorem AlikeAt.compute {s t : State} (h : AlikeAt sEnClr s t) : AlikeAt sWrCon (compute s) (compute t) := by
  obtain ⟨-, hfreq, hduty⟩ := h.operand_fields (by decide) (by decide)
  exact ⟨h.world, fun _ _ => h.operands (by decide) (by decide), fun _ _ => h.temporary (by decide) (by decide),
    fun _ _ => by simp [Machine.timings, h.par, hfreq], fun _ _ => by simp [Machine.phases, h.par, hfreq, hduty]⟩

/-- A whole command runs alike whatever an earlier one has left. -/
theorem Alike.program {s t : State} (h : Alike s t) (c : BitVec 2) (f : Word) (d : BitVec 7) :
    ResultsAlike (program c f d s) (program c f d t) := by
  unfold Machine.program
  rw [← h.pc]
  split
  · exact .refused _
  · split
    · exact .next (h.waits _)
    · have hlatched : AlikeAt sEnRd1 (latch c f d s) (latch c f d t) :=
        ⟨h.live.world, fun _ _ => rfl, nofun, nofun, nofun⟩
      refine hlatched.updateEnThen (wr := sEnClr) (by decide) (by decide) (by decide) fun u v huv => ?_
      split
      · exact .next (alike_finished huv.world)
      · refine huv.compute.configureThen fun _ _ h => h.overrideThen fun _ _ h => ?_
        have hread := h.reach (j := sEnRd2) (by decide)
        refine hread.updateEnThen (wr := sEnSet) (by decide) (by decide) (by decide) fun _ _ h => ?_
        exact .next (alike_finished h.world)

/-! ### Every agent's turn -/

theorem Alike.callTurn {s t : State} (h : Alike s t) (w : BitVec 41) :
    ResultsAlike (callTurn w s) (callTurn w t) := by
  unfold Machine.callTurn decodeCmd
  split
  · exact h.program (cmdChannel w) 0#32 (cmdDuty w)
  · split
    · exact h.program (cmdChannel w) (cmdFrequency w) (cmdDuty w)
    · exact .refused _

theorem Alike.blockTurn {s t : State} (h : Alike s t) : ResultsAlike (blockTurn s) (blockTurn t) := by
  unfold Machine.blockTurn
  rw [← h.pc]
  split
  · next i hi =>
    rcases decodeStep_cases hi with hacc | hreg
    · exact h.live.exec_accessing hacc
    · exact h.exec_registerOnly hreg
  · exact .fault _

theorem world_perform {s t : State} (h : world s = world t) (q : Request) (given : Option Word) :
    world (perform q given s).2 = world (perform q given t).2 := by
  obtain ⟨hmem, htrace, hcmds, hanswers, hturns, hpar⟩ := by simpa [world] using h
  unfold perform
  cases q.write <;> simp [world, *]

theorem liveRegisters_perform (q : Request) (given : Option Word) (s : State) :
    liveRegisters (perform q given s).2 = liveRegisters s := by
  unfold perform
  cases q.write <;> rfl

theorem Alike.lineTurn {s t : State} (h : Alike s t) (operands : List (List Char)) :
    ResultsAlike (lineTurn operands s) (lineTurn operands t) := by
  unfold Machine.lineTurn
  rw [← h.live.par]
  split
  · exact .next (h.waits _)
  · exact .next h

theorem Alike.otherWriteTurn {s t : State} (h : Alike s t) (a v : Word) :
    ResultsAlike (otherWriteTurn a v s) (otherWriteTurn a v t) := by
  obtain ⟨hmem, htrace, hcmds, hanswers, hturns, hpar⟩ := h.live.world_fields
  unfold Machine.otherWriteTurn
  rw [← hpar]
  split
  · exact .refused _
  · exact .next (h.of_world (by simp [world, *]) rfl rfl)

theorem Alike.otherReadTurn {s t : State} (h : Alike s t) (a x : Word) :
    ResultsAlike (otherReadTurn a x s) (otherReadTurn a x t) := by
  obtain ⟨hmem, htrace, hcmds, hanswers, hturns, hpar⟩ := h.live.world_fields
  unfold Machine.otherReadTurn
  rw [← hpar]
  split
  · exact .refused _
  · exact .next (h.of_world (by simp [world, *]) rfl rfl)

theorem Alike.otherAccessTurn {s t : State} (h : Alike s t) (q : Request) (given : Option Word) :
    ResultsAlike (otherAccessTurn q given s) (otherAccessTurn q given t) := by
  unfold Machine.otherAccessTurn
  rw [← h.live.par]
  split
  · exact .refused _
  · exact .next (h.of_world (world_perform h.live.world q given) (liveRegisters_perform q given s)
      (liveRegisters_perform q given t))

theorem Alike.targetResetTurn {s t : State} (h : Alike s t) (words : List (Reg × Word)) :
    ResultsAlike (targetResetTurn words s) (targetResetTurn words t) := by
  obtain ⟨hmem, htrace, hcmds, hanswers, hturns, hpar⟩ := h.live.world_fields
  exact .next (h.of_world (by simp [world, *]) rfl rfl)

theorem requestOf_registerOnly {i : Instr} {code : BitVec 5} (hi : (i, code) ∈ registerOnly) (s : State) :
    requestOf s i = none :=
  registerOnly_forall (P := fun i _ => requestOf s i = none) rfl rfl rfl rfl rfl rfl rfl rfl rfl hi

/-- The access in flight is the same. -/
theorem Alike.requestAt_eq {s t : State} (h : Alike s t) : requestAt s = requestAt t := by
  unfold requestAt
  rw [← h.pc]
  cases hi : decodeStep s.pc with
  | none => rfl
  | some i =>
    rcases decodeStep_cases hi with hacc | hreg
    · exact h.live.requestOf_eq hacc
    · exact (requestOf_registerOnly hreg s).trans (requestOf_registerOnly hreg t).symm

theorem Alike.world_abandonInFlight {s t : State} (h : Alike s t) (landed : Bool) :
    world (abandonInFlight landed s) = world (abandonInFlight landed t) := by
  obtain ⟨hmem, htrace, hcmds, hanswers, hturns, hpar⟩ := h.live.world_fields
  unfold abandonInFlight
  rw [← h.requestAt_eq, ← hanswers]
  split
  · next q rest _ _ =>
    have htaken : world { s with answers := rest } = world { t with answers := rest } := by simp [world, *]
    cases landed with
    | false => exact htaken
    | true => exact world_perform htaken q none
  · exact h.live.world

/-- After reset no register is live. -/
theorem Alike.resetTurn {s t : State} (h : Alike s t) (landed : Bool) :
    ResultsAlike (resetTurn landed s) (resetTurn landed t) :=
  .next ⟨rfl, alikeAt_dead (.inl (by simp)) (h.world_abandonInFlight landed)⟩

/-! ### Runs -/

/-- Alike states step alike, whoever acts. -/
theorem Alike.step {s t : State} (h : Alike s t) : ResultsAlike (step s) (step t) := by
  obtain ⟨hmem, htrace, hcmds, hanswers, hturns, hpar⟩ := h.live.world_fields
  have hrest (rest : List Turn) : Alike { s with turns := rest } { t with turns := rest } :=
    h.of_world (by simp [world, *]) rfl rfl
  unfold Machine.step checkedTurn
  rw [← hpar]
  split
  · unfold takeTurn
    rw [← hturns]
    split
    · exact h.blockTurn
    · exact (hrest _).blockTurn
    · exact (hrest _).callTurn _
    · exact .next ((hrest _).waits _)
    · exact (hrest _).lineTurn _
    · exact (hrest _).otherWriteTurn _ _
    · exact (hrest _).otherReadTurn _ _
    · exact (hrest _).otherAccessTurn _ _
    · exact (hrest _).targetResetTurn _
    · exact (hrest _).resetTurn _
  · exact .refused _

/-- Alike states run alike. -/
theorem Alike.run {s t : State} (h : Alike s t) (k : Nat) : ResultsAlike (run k s) (run k t) := by
  induction k generalizing s t with
  | zero => exact .next h
  | succ k ih =>
    have hstep := h.step
    unfold Safety.run
    generalize Machine.step s = x at hstep ⊢
    generalize Machine.step t = y at hstep ⊢
    cases hstep with
    | next hst => exact ih hst
    | fault r => exact .fault r
    | refused r => exact .refused r

/-- Settles O59: at `S_IDLE` no register is live, so the two states are alike, and so are their runs. -/
theorem earlierValuesNeverMatter : Obligations.EarlierValuesNeverMatter := by
  intro k s t hpc ⟨hst, hmem, htrace, hcmds, hanswers, hturns, hpar⟩
  have hidle : Alike s t := ⟨hst, alikeAt_dead (.inl (by simp [hpc])) (by simp [world, *])⟩
  have hrun := hidle.run k
  generalize run k s = x at hrun ⊢
  generalize run k t = y at hrun ⊢
  cases hrun with
  | @next u v huv =>
    refine ⟨?_, nofun, nofun⟩
    rintro _ ⟨⟩
    exact ⟨v, rfl, huv.pc, huv.live.world_fields⟩
  | fault r => exact ⟨nofun, nofun, fun _ => id⟩
  | refused r => exact ⟨nofun, fun _ => id, nofun⟩

end Sys2Proof.Machine
end

section
/-! PROOFS. The Target as storage (spec/20_memory.md R54, R59, R64): the four bytes of a word, and that the canonical
form has one list for each content. -/

namespace Sys2Proof.Machine

/-! ### The bytes of a word -/

/-- The bytes a word write stores, first byte least significant. -/
theorem Memory.byte_putWord_within (m : Memory) (a v : Word) {i : Nat} (hi : i < 4) :
    (m.putWord a v).byte (a.toNat + i) = v.extractLsb' (8 * i) 8 := by
  interval_cases i
  · exact Memory.byte_putWord_0 m a v
  · exact Memory.byte_putWord_1 m a v
  · exact Memory.byte_putWord_2 m a v
  · exact Memory.byte_putWord_3 m a v

/-- Writing the same word a second time changes no byte. -/
theorem Memory.byte_putWord_twice (m : Memory) (a v : Word) (c : Nat) :
    ((m.putWord a v).putWord a v).byte c = (m.putWord a v).byte c := by
  by_cases hc : c < a.toNat ∨ a.toNat + 4 ≤ c
  · exact Memory.byte_putWord_outside _ a v hc
  · obtain ⟨i, rfl⟩ := Nat.exists_eq_add_of_le (show a.toNat ≤ c by omega)
    have hi : i < 4 := by omega
    rw [Memory.byte_putWord_within _ a v hi, Memory.byte_putWord_within _ a v hi]

/-! ### The canonical form -/

theorem Memory.find_cons_self (a : Nat) (x : Byte) (m : Memory) : Memory.find ((a, x) :: m) a = some x := if_pos rfl

theorem Memory.find_cons_ne {a c : Nat} (h : c ≠ a) (x : Byte) (m : Memory) :
    Memory.find ((a, x) :: m) c = m.find c := if_neg h

/-- In canonical form the tail lists no address up to that of the head. -/
theorem Memory.find_tail_eq_none {a : Nat} {x : Byte} {m : Memory} (h : Memory.wf ((a, x) :: m) = true) {c : Nat}
    (hc : c ≤ a) : m.find c = none := by
  induction m generalizing a x with
  | nil => rfl
  | cons cell rest ih =>
    obtain ⟨b, y⟩ := cell
    simp only [Memory.wf, Bool.and_eq_true, decide_eq_true_eq] at h
    obtain ⟨hab, hrest⟩ := h
    rw [Memory.find_cons_ne (by omega)]
    exact ih hrest (by omega)

/-- A canonical memory lists no address below that of its head. -/
theorem Memory.find_eq_none_of_lt_head {a : Nat} {x : Byte} {m : Memory} (h : Memory.wf ((a, x) :: m) = true) {c : Nat}
    (hc : c < a) : Memory.find ((a, x) :: m) c = none := by
  rw [Memory.find_cons_ne hc.ne]
  exact Memory.find_tail_eq_none h hc.le

/-- A canonical memory begins no later than any memory that has the same written bytes. -/
theorem Memory.head_le_head {a b : Nat} {x y : Byte} {m n : Memory} (hn : Memory.wf ((b, y) :: n) = true)
    (h : ∀ c, Memory.find ((a, x) :: m) c = Memory.find ((b, y) :: n) c) : b ≤ a := by
  by_contra hlt
  have ha := h a
  rw [Memory.find_cons_self, Memory.find_eq_none_of_lt_head hn (by omega)] at ha
  cases ha

/-- Canonical memories with the same written bytes are the same list (log 2). -/
theorem Memory.eq_of_find_eq {m n : Memory} (hm : m.wf = true) (hn : n.wf = true) (h : ∀ c, m.find c = n.find c) :
    m = n := by
  induction m generalizing n with
  | nil =>
    cases n with
    | nil => rfl
    | cons cell n =>
      have hb := h cell.1
      rw [Memory.find_cons_self] at hb
      cases hb
  | cons cell m ih =>
    obtain ⟨a, x⟩ := cell
    cases n with
    | nil =>
      have ha := h a
      rw [Memory.find_cons_self] at ha
      cases ha
    | cons cell n =>
      obtain ⟨b, y⟩ := cell
      obtain rfl : a = b := (Memory.head_le_head hm fun c => (h c).symm).antisymm (Memory.head_le_head hn h)
      have hxy := h a
      rw [Memory.find_cons_self, Memory.find_cons_self] at hxy
      have htail (c : Nat) : Memory.find m c = Memory.find n c := by
        by_cases hc : c ≤ a
        · rw [Memory.find_tail_eq_none hm hc, Memory.find_tail_eq_none hn hc]
        · have hne : c ≠ a := by omega
          rw [← Memory.find_cons_ne hne x m, h c, Memory.find_cons_ne hne]
      rw [Option.some.inj hxy, ih (Memory.wf_tail hm) (Memory.wf_tail hn) htail]

/-- Settles O54: read after write and the frame byte by byte, and the one list of a canonical content. -/
theorem targetIsStorage : Obligations.TargetIsStorage := fun m a v =>
  ⟨Memory.word_putWord_same m a v, Memory.byte_putWord_0 m a v, Memory.byte_putWord_3 m a v,
    fun _ => Memory.byte_putWord_outside m a v, Memory.byte_putWord_twice m a v, fun h => Memory.wf_putWord h a v,
    fun _ => Memory.eq_of_find_eq⟩

end Sys2Proof.Machine
end

section
/-! PROOFS. The turns of the other agents (spec/20_memory.md R61, R63; spec/70_reset_and_hazards.md R222): the exact
state each leaves, which has the block's registers as they were. -/

namespace Sys2Proof.Machine

/-! ### One transaction at the Target -/

/-- A 4-byte transaction at a register has a meaning, whichever its direction and its value. -/
theorem requestRefusal_register (p : Config.Params) (write : Bool) (r : Reg) (v : Word) :
    requestRefusal p ⟨write, .four, regAddr p r, v⟩ = none := by
  simp [requestRefusal]

/-- A write and its read-back, which storage answers with the word written (R50, R54). -/
theorem perform_write (a v : Word) (given : Option Word) (s : State) :
    (perform ⟨true, .four, a, v⟩ given s).2 = { s with
      mem := s.mem.putWord a v, trace := s.trace ++ [.wr a .four v, .rd a .four (given.getD v)] } := by
  simp [perform, targetRead, targetWrite]

/-- A read, which storage answers with the word it holds (R50, R54). -/
theorem perform_read (a v : Word) (given : Option Word) (s : State) :
    (perform ⟨false, .four, a, v⟩ given s).2 =
      { s with trace := s.trace ++ [.rd a .four (given.getD (s.mem.word a))] } := rfl

/-! ### The turns -/

theorem otherWriteTurn_register (r : Reg) (v : Word) (s : State) :
    otherWriteTurn (regAddr s.par r) v s = .next (targetWrite (regAddr s.par r) v s) := by
  simp [otherWriteTurn]

theorem otherReadTurn_register (r : Reg) (x : Word) (s : State) :
    otherReadTurn (regAddr s.par r) x s = .next (targetRead (regAddr s.par r) x s) := by
  simp [otherReadTurn]

theorem otherAccessTurn_register (write : Bool) (r : Reg) (v : Word) (given : Option Word) (s : State) :
    otherAccessTurn ⟨write, .four, regAddr s.par r, v⟩ given s =
      .next (perform ⟨write, .four, regAddr s.par r, v⟩ given s).2 := by
  simp [otherAccessTurn, requestRefusal_register]

section Turns

variable {s : State} (hlegal : s.par.legal = true) {rest : List Turn}
include hlegal

theorem step_otherWrite {r : Reg} {v : Word} (h : s.turns = .otherWrite (regAddr s.par r) v :: rest) :
    step s = .next (targetWrite (regAddr s.par r) v { s with turns := rest }) := by
  rw [step_legal hlegal, takeTurn, h]
  exact otherWriteTurn_register r v { s with turns := rest }

theorem step_otherRead {r : Reg} {x : Word} (h : s.turns = .otherRead (regAddr s.par r) x :: rest) :
    step s = .next (targetRead (regAddr s.par r) x { s with turns := rest }) := by
  rw [step_legal hlegal, takeTurn, h]
  exact otherReadTurn_register r x { s with turns := rest }

theorem step_otherAccess {write : Bool} {r : Reg} {v : Word} {given : Option Word}
    (h : s.turns = .otherAccess ⟨write, .four, regAddr s.par r, v⟩ given :: rest) :
    step s = .next (perform ⟨write, .four, regAddr s.par r, v⟩ given { s with turns := rest }).2 := by
  rw [step_legal hlegal, takeTurn, h]
  exact otherAccessTurn_register write r v given { s with turns := rest }

theorem step_targetReset {words : List (Reg × Word)} (h : s.turns = .targetReset words :: rest) :
    step s = .next { s with turns := rest, mem := Memory.putRegs s.par [] words } := by
  rw [step_legal hlegal, takeTurn, h]
  rfl

end Turns

/-- Settles O13: each turn by the transaction that it performs at the Target. -/
theorem otherMastersLeaveTheBlockAlone : Obligations.OtherMastersLeaveTheBlockAlone := by
  intro s r v rest hlegal
  refine ⟨step_otherWrite hlegal, step_otherRead hlegal, fun given h => ?_, fun given h => ?_,
    fun words => step_targetReset hlegal⟩
  · rw [step_otherAccess hlegal h, perform_write]
  · rw [step_otherAccess hlegal h, perform_read]
    rfl

end Sys2Proof.Machine
end

section
/-! PROOFS. Bus traffic (spec/20_memory.md R55 to R58): every instruction but the reserved command goes on to a next
state, and on its way there each access adds events at its register only. -/

namespace Sys2Proof.Machine

open Sys2Proof.Safety

/-! ### Traffic at the registers -/

/-- A 4-byte event at one of the 29 registers. -/
def IsRegisterEvent (p : Config.Params) (e : Event) : Prop :=
  ∃ (r : Reg) (v : Word), e = .wr (regAddr p r) .four v ∨ e = .rd (regAddr p r) .four v

/-- From `s` to `u` the trace has only grown, by events at registers, and the parameters that place them stay. -/
structure RegisterTraffic (s u : State) : Prop where
  par : u.par = s.par
  trace : ∃ evs, u.trace = s.trace ++ evs ∧ ∀ e ∈ evs, IsRegisterEvent s.par e

theorem registerTraffic_refl (s : State) : RegisterTraffic s s := ⟨rfl, [], by simp, nofun⟩

section Traffic

variable {s u : State} (h : RegisterTraffic s u)
include h

/-- What changes neither the trace nor the parameters adds no traffic. -/
theorem RegisterTraffic.of_same {v : State} (hpar : v.par = u.par) (htrace : v.trace = u.trace) :
    RegisterTraffic s v :=
  ⟨hpar.trans h.par, htrace ▸ h.trace⟩

/-- What adds register events adds register traffic. -/
theorem RegisterTraffic.append {v : State} {evs : List Event} (hpar : v.par = u.par)
    (htrace : v.trace = u.trace ++ evs) (hevs : ∀ e ∈ evs, IsRegisterEvent u.par e) : RegisterTraffic s v := by
  obtain ⟨before, hbefore, hall⟩ := h.trace
  refine ⟨hpar.trans h.par, before ++ evs, by rw [htrace, hbefore, List.append_assoc], fun e he => ?_⟩
  exact (List.mem_append.mp he).elim (hall e) fun he => h.par ▸ hevs e he

/-- A served access adds its `R` event, or its `W` and its `R` event (R55). -/
theorem RegisterTraffic.afterAccess {q : Request} (hq : IsRegisterRequest u.par q) (x : Word) :
    RegisterTraffic s (afterAccess q x u) := by
  obtain ⟨r, rfl | ⟨v, rfl⟩⟩ := hq
  · refine h.append rfl (afterRead_trace _ _ u) ?_
    simp only [List.forall_mem_singleton]
    exact ⟨r, x, .inr rfl⟩
  · refine h.append rfl (afterWrite_trace _ _ _ u) ?_
    simp only [List.forall_mem_cons]
    exact ⟨⟨r, v, .inl rfl⟩, ⟨r, x, .inr rfl⟩, nofun⟩

/-! ### The parts of an instruction -/

/-- However an access ends, the instruction goes on to a next state, as long as its rest does. -/
theorem RegisterTraffic.accessThen {q : Request} (hq : IsRegisterRequest u.par q) {code : BitVec 5}
    {k : Word → State → Result} (hk : ∀ x v, RegisterTraffic s v → Serves (RegisterTraffic s) (k x v)) :
    Serves (RegisterTraffic s) (accessThen code q u k) := by
  rcases accessThen_cases hq code k with ⟨x, -, he⟩ | ⟨-, he⟩ | ⟨-, he⟩
  · rw [he]
    exact hk x _ (h.afterAccess hq x)
  · exact ⟨_, he, h.of_same rfl rfl⟩
  · exact ⟨_, he, h.of_same rfl rfl⟩

variable {k : State → Result} (hk : ∀ v, RegisterTraffic s v → Serves (RegisterTraffic s) (k v))
include hk

theorem RegisterTraffic.putThen {code : BitVec 5} {r : Reg} {w : Word} :
    Serves (RegisterTraffic s) (putThen code r w u k) :=
  h.accessThen ⟨r, .inr ⟨w, rfl⟩⟩ fun _ => hk

/-- A read of Global Enable into `ENTMP` and a write of it: steps 1 and 8 of a command (R111, R112). -/
theorem RegisterTraffic.updateEnThen {rd wr : BitVec 5} {update : Word → State → Word} :
    Serves (RegisterTraffic s) (Machine.accessThen rd (readReq u.par .en) u fun x t =>
      Machine.putThen wr .en (update x t) { t with entmp := x } k) := by
  refine h.accessThen ⟨.en, .inl rfl⟩ fun x v hv => ?_
  have hnoted : RegisterTraffic s { v with entmp := x } := hv.of_same rfl rfl
  exact hnoted.putThen hk

theorem RegisterTraffic.configureThen : Serves (RegisterTraffic s) (configureThen u k) := by
  unfold Machine.configureThen
  iterate 6 refine RegisterTraffic.putThen (by assumption) fun _ _ => ?_
  exact RegisterTraffic.putThen (by assumption) hk

theorem RegisterTraffic.overrideThen : Serves (RegisterTraffic s) (overrideThen u k) := by
  unfold Machine.overrideThen
  split
  · exact h.putThen fun _ hv => hv.putThen hk
  · exact hk u h

end Traffic

/-! ### Every instruction -/

/-- An instruction is refused as the reserved command, or goes on with traffic at the registers only. -/
def RefusedOrServed (s : State) (x : Result) : Prop :=
  x = .refused .reservedCommand ∨ Serves (RegisterTraffic s) x

theorem refusedOrServed_next {s u : State} (hpar : u.par = s.par) (htrace : u.trace = s.trace) :
    RefusedOrServed s (.next u) :=
  .inr ⟨u, rfl, (registerTraffic_refl s).of_same hpar htrace⟩

theorem refusedOrServed_program (c : BitVec 2) (f : Word) (d : BitVec 7) (s : State) :
    RefusedOrServed s (program c f d s) := by
  unfold program
  split
  · exact .inl rfl
  · split
    · exact refusedOrServed_next rfl rfl
    · have hlatched : RegisterTraffic s (latch c f d s) := (registerTraffic_refl s).of_same rfl rfl
      refine .inr (hlatched.updateEnThen fun u hu => ?_)
      split
      · exact ⟨_, rfl, hu.of_same rfl rfl⟩
      · have hcomputed : RegisterTraffic s (compute u) := hu.of_same rfl rfl
        refine hcomputed.configureThen fun _ hv => hv.overrideThen fun _ hw => hw.updateEnThen fun z hz => ?_
        exact ⟨_, rfl, hz.of_same rfl rfl⟩

theorem refusedOrServed_accessing {i : Instr} (hi : i ∈ accessing.map Prod.fst) (s : State) :
    RefusedOrServed s (exec i s) := by
  obtain ⟨⟨i, code⟩, hmem, rfl⟩ := List.mem_map.mp hi
  obtain ⟨q, hq, -⟩ := exec_accessing_cases hmem s
  rw [exec_accessing hmem hq]
  refine .inr ((registerTraffic_refl s).accessThen (requestOf_isRegisterRequest hq) fun x v hv => ?_)
  exact ⟨_, rfl, hv.of_same rfl rfl⟩

theorem refusedOrServed_accept (s : State) : RefusedOrServed s (exec .accept s) := by
  rcases exec_accept_cases s with ⟨-, he⟩ | ⟨w, rest, -, ⟨-, he⟩ | ⟨-, he⟩⟩ <;> rw [he]
  · exact refusedOrServed_next rfl rfl
  · exact .inl rfl
  · exact refusedOrServed_next rfl rfl

theorem refusedOrServed_divStep (s : State) : RefusedOrServed s (exec .divStep s) := by
  rcases exec_divStep_cases s with ⟨-, -, he⟩ | ⟨-, he⟩
  · exact he ▸ refusedOrServed_next rfl rfl
  · exact he ▸ refusedOrServed_next rfl rfl

theorem refusedOrServed_fallback (s : State) : RefusedOrServed s (exec .fallback s) := by
  rcases exec_fallback_cases s with ⟨-, he⟩ | ⟨-, he⟩
  · exact he ▸ refusedOrServed_next rfl rfl
  · exact he ▸ refusedOrServed_next rfl rfl

theorem refusedOrServed_exec (i : Instr) (s : State) : RefusedOrServed s (exec i s) := by
  cases i
  case pwmOff c d => exact refusedOrServed_program c 0#32 d s
  case pwmSet c f d => exact refusedOrServed_program c f d s
  case reserved => exact .inl rfl
  case accept => exact refusedOrServed_accept s
  case divStep => exact refusedOrServed_divStep s
  case fallback => exact refusedOrServed_fallback s
  case freqTest | divInit | split | dutyTest | finish | sFault => exact refusedOrServed_next rfl rfl
  all_goals exact refusedOrServed_accessing (by decide) s

/-- Settles O55: what each instruction ends in, and where the printed map places the registers. -/
theorem busTrafficStaysOnTheMap : Obligations.BusTrafficStaysOnTheMap := by
  refine ⟨fun i s t h => ?_, fun p r hp => ?_, fun i s why h => ?_⟩
  · rcases refusedOrServed_exec i s with he | ⟨u, he, hu⟩ <;> cases he.symm.trans h
    exact hu.trace
  · obtain ⟨haligned, hlow, hhigh⟩ := regAddr_range hp r
    exact ⟨haligned, hlow, by omega⟩
  · rcases refusedOrServed_exec i s with he | ⟨u, he, -⟩ <;> cases he.symm.trans h
    rfl

end Sys2Proof.Machine
end

section
/-! PROOFS. The lost update of Global Enable (spec/20_memory.md R62): one run of three turns, the block's read, another
master's write and the block's write, for both of its read-modify-writes. -/

namespace Sys2Proof.Machine

open Sys2Proof.Safety

theorem run_succ_of_step {s t : State} (h : step s = .next t) (k : Nat) : run (k + 1) s = run k t := by
  rw [run, h]

theorem requestOf_withTurns (s : State) (turns : List Turn) (i : Instr) :
    requestOf { s with turns := turns } i = requestOf s i := by
  cases i <;> rfl

/-- The block's turn at one of the thirteen is one access on the request it drives. -/
theorem step_accessing {i : Instr} {s : State} (hi : (i, s.pc) ∈ accessing) (hlegal : s.par.legal = true)
    (hacts : BlockActs s) {q : Request} (hq : requestOf s i = some q) :
    step s = accessThen s.pc q { s with turns := s.turns.tail } fun x t =>
      .next { t with entmp := if q.write then t.entmp else x, pc := s.pc + 1#5 } := by
  have hdecoded : blockTurn { s with turns := s.turns.tail } = exec i { s with turns := s.turns.tail } :=
    blockTurn_decoded (decodeStep_accessing hi)
  rw [step_blockActs hlegal hacts, hdecoded]
  exact exec_accessing hi ((requestOf_withTurns s _ i).trans hq)

/-- A served read of a register into `ENTMP` at the block's turn. -/
theorem step_read_served {i : Instr} {s : State} (hi : (i, s.pc) ∈ accessing) (hlegal : s.par.legal = true)
    (hacts : BlockActs s) {r : Reg} (hq : requestOf s i = some (readReq s.par r)) {x : Word}
    (hx : wordGiven (s.reg r) (nextAnswer s) = some x) :
    step s = .next { afterRead (regAddr s.par r) x s with turns := s.turns.tail, entmp := x, pc := s.pc + 1#5 } :=
  (step_accessing hi hlegal hacts hq).trans (accessThen_read_served (s := { s with turns := s.turns.tail }) hx)

/-- A served write of a register at the block's turn. -/
theorem step_write_served {i : Instr} {s : State} (hi : (i, s.pc) ∈ accessing) (hlegal : s.par.legal = true)
    (hacts : BlockActs s) {r : Reg} {w : Word} (hq : requestOf s i = some (writeReq s.par r w)) {x : Word}
    (hx : wordGiven w (nextAnswer s) = some x) :
    step s = .next { afterWrite (regAddr s.par r) w x s with turns := s.turns.tail, pc := s.pc + 1#5 } :=
  (step_accessing hi hlegal hacts hq).trans (accessThen_write_served (s := { s with turns := s.turns.tail }) hx)

/-! ### The interrupted read-modify-write -/

section Update

variable {wr : Instr} {update : Word → BitVec 2 → Word}
  (hwrite : ∀ u, requestOf u wr = some (writeReq u.par .en (update u.entmp u.ch)))
include hwrite

/-- The block writes over the word `v` that another master has just written. -/
theorem run_overwrite {s : State} (hwr : (wr, s.pc) ∈ accessing) (hlegal : s.par.legal = true) {v : Word}
    (hturns : s.turns = [.otherWrite (regAddr s.par .en) v, .block])
    (hserved : (wordGiven (update s.entmp s.ch) (nextAnswer s)).isSome = true) :
    ∃ t, run 2 s = .next t ∧ t.pc = s.pc + 1#5 ∧ t.reg .en = update s.entmp s.ch := by
  obtain ⟨y, hy⟩ := Option.isSome_iff_exists.mp hserved
  have hblock := step_write_served (s := targetWrite (regAddr s.par .en) v { s with turns := [.block] }) hwr hlegal
    (.inr rfl) (hwrite _) hy
  rw [run_succ_of_step (step_otherWrite hlegal hturns), run_succ_of_step hblock]
  exact ⟨_, rfl, rfl, Memory.word_putWord_same _ _ _⟩

/-- Another master's write between the read and the write is lost: the word `x` that the read returned decides what
Global Enable holds. -/
theorem run_interruptedUpdate {rd : Instr} (hread : ∀ u, requestOf u rd = some (readReq u.par .en)) {s : State}
    (hrd : (rd, s.pc) ∈ accessing) (hwr : (wr, s.pc + 1#5) ∈ accessing) (hlegal : s.par.legal = true) {v x : Word}
    (hturns : s.turns = [.block, .otherWrite (regAddr s.par .en) v, .block])
    (hx : wordGiven (s.reg .en) (nextAnswer s) = some x)
    (hserved : (wordGiven (update x s.ch) (s.answers.tail.headD .stored)).isSome = true) :
    ∃ t, run 3 s = .next t ∧ t.pc = s.pc + 1#5 + 1#5 ∧ t.reg .en = update x s.ch := by
  have hacts : BlockActs s := .inr (by rw [hturns]; rfl)
  rw [run_succ_of_step (step_read_served hrd hlegal hacts (hread s) hx)]
  exact run_overwrite hwrite hwr hlegal (congrArg List.tail hturns) hserved

end Update

/-- Settles O56: `EN_CLR`'s update clears and `EN_SET`'s sets the channel's bit in the word that was read. -/
theorem updateBetweenReadAndWriteIsLost : Obligations.UpdateBetweenReadAndWriteIsLost := by
  intro s v x off on hp hlegal hturns hx hoff hon
  subst hoff hon
  rw [← regAddr_en hp] at hturns
  constructor
  · intro hpc hserved
    have hlost := run_interruptedUpdate (wr := .enClr) (update := clearEnable) (fun _ => rfl) (rd := .enRd1)
      (fun _ => rfl) (by rw [hpc]; decide) (by rw [hpc]; decide) hlegal hturns hx hserved
    rwa [hpc] at hlost
  · intro hpc hserved
    have hlost := run_interruptedUpdate (wr := .enSet) (update := setEnable) (fun _ => rfl) (rd := .enRd2)
      (fun _ => rfl) (by rw [hpc]; decide) (by rw [hpc]; decide) hlegal hturns hx hserved
    rwa [hpc] at hlost

end Sys2Proof.Machine
end

section
/-! PROOFS. The decoder and the encoder invert each other (spec/30_encoding.md R80, R81, R83, R89, R90): what decodes is
the bytes of a STEP code that names a micro-operation or of a CMD word, and either way the instruction has that word. -/

namespace Sys2Proof

/-! ### The word of an instruction -/

/-- The STEP code is the whole opcode (R89). -/
theorem decodeStep_eq_some_iff {c : BitVec 5} {i : Instr} : decodeStep c = some i ↔ codeWord i = .step c :=
  ⟨decodeStep_codeWord, fun h => by cases i <;> cases h <;> rfl⟩

theorem setOperandsOk_iff (f : Word) (d : BitVec 7) : setOperandsOk f d = true ↔ f ≠ 0#32 ∧ d.toNat ≤ 100 := by
  have h : setOperandsOk f d = true ↔ f ≠ 0#32 ∧ d.toNat ≤ Config.maxDuty := by simp [setOperandsOk]
  exact h

theorem reservedOperands_iff (f : Word) (d : BitVec 7) : reservedOperands f d = true ↔ f ≠ 0#32 ∧ 100 < d.toNat := by
  rw [← Bool.not_eq_false, Machine.reservedOperands_eq_false_iff, Classical.not_imp, Nat.not_le]

/-- Of the rows with one CMD word the two tests pick the one whose condition the operands meet (R89, R90). -/
theorem decodeCmd_of_codeWord {i : Instr} {w : BitVec 41} (hwf : i.wf = true) (h : codeWord i = .cmd w) :
    decodeCmd w = i := by
  cases i <;> cases h
  case pwmOff c d => rw [decodeCmd_cmdWord, if_pos rfl]
  case pwmSet c f d =>
    obtain ⟨hf, hd⟩ := (setOperandsOk_iff f d).mp hwf
    rw [decodeCmd_cmdWord, if_neg hf, if_pos hd]
  case reserved c f d =>
    obtain ⟨hf, hd⟩ := (reservedOperands_iff f d).mp hwf
    rw [decodeCmd_cmdWord, if_neg hf, if_neg (by omega)]

/-- The command of a word meets its row's condition and has that word. -/
theorem decodeCmd_wf_codeWord (w : BitVec 41) :
    (decodeCmd w).wf = true ∧ codeWord (decodeCmd w) = .cmd w := by
  rw [← cmdWord_fields w, decodeCmd_cmdWord]
  generalize cmdChannel w = c, cmdFrequency w = f, cmdDuty w = d
  split
  next hf => exact ⟨rfl, by rw [hf]; rfl⟩
  next hf =>
    split
    next hd => exact ⟨(setOperandsOk_iff f d).mpr ⟨hf, hd⟩, rfl⟩
    next hd => exact ⟨(reservedOperands_iff f d).mpr ⟨hf, by omega⟩, rfl⟩

/-- Every micro-operation is well formed. -/
theorem wf_of_codeWord_step {i : Instr} {c : BitVec 5} (h : codeWord i = .step c) : i.wf = true := by
  cases i <;> cases h <;> rfl

/-! ### The bytes of a word -/

theorem decode_stepByte_of_codeWord {c : BitVec 5} {i : Instr} (h : codeWord i = .step c) :
    decode (codeBytes (.step c)) = .instr i := by
  obtain ⟨hpad, hcode⟩ := stepByte_fields c
  simp only [codeBytes, decode, hpad, hcode, if_true, decodeStep_eq_some_iff.mpr h]

/-- A byte without padding is the byte of its STEP code. -/
theorem eq_codeBytes_step {b : Byte} (hpad : b.extractLsb' 5 3 = 0#3) :
    [b] = codeBytes (.step (b.extractLsb' 0 5)) := by
  have hjoin : b.extractLsb' 5 3 ++ b.extractLsb' 0 5 = b :=
    BitVec.extractLsb'_append_extractLsb' (w := 3) (len := 5)
  rw [hpad] at hjoin
  exact congrArg ([·]) hjoin.symm

theorem extractLsb'_append_byte_low {k : Nat} (x : BitVec k) (b : Byte) : (x ++ b).extractLsb' 0 8 = b :=
  BitVec.extractLsb'_append_eq_right

theorem extractLsb'_append_byte_high {k : Nat} (x : BitVec k) (b : Byte) (n len : Nat) :
    (x ++ b).extractLsb' (n + 8) len = x.extractLsb' n len :=
  BitVec.extractLsb'_append_eq_of_le (Nat.le_add_left 8 n)

/-- Six bytes without padding are the bytes of the CMD word they join to. -/
theorem eq_codeBytes_cmd (b0 b1 b2 b3 b4 : Byte) {b5 : Byte} (hpad : b5.extractLsb' 1 7 = 0#7) :
    [b0, b1, b2, b3, b4, b5] = codeBytes (.cmd (b5.extractLsb' 0 1 ++ b4 ++ b3 ++ b2 ++ b1 ++ b0)) := by
  have hlast : b5.extractLsb' 1 7 ++ b5.extractLsb' 0 1 = b5 :=
    BitVec.extractLsb'_append_extractLsb' (w := 7) (len := 1)
  rw [hpad] at hlast
  simp only [codeBytes, extractLsb'_append_byte_low, extractLsb'_append_byte_high, BitVec.extractLsb'_eq_self, hlast]

/-- Bytes that decode are those of a STEP code that names a micro-operation or of a CMD word. -/
theorem decode_cases {bytes : List Byte} {i : Instr} (h : decode bytes = .instr i) :
    (∃ c, bytes = codeBytes (.step c) ∧ decodeStep c = some i) ∨
    ∃ w, bytes = codeBytes (.cmd w) ∧ decodeCmd w = i := by
  unfold decode at h
  split at h
  next b =>
    split at h
    next hpad =>
      split at h
      next hi => exact .inl ⟨_, eq_codeBytes_step hpad, Decoded.instr.inj h ▸ hi⟩
      next => cases h
    next => cases h
  next b0 b1 b2 b3 b4 b5 =>
    split at h
    next hpad => exact .inr ⟨_, eq_codeBytes_cmd b0 b1 b2 b3 b4 hpad, Decoded.instr.inj h⟩
    next => cases h
  next => cases h

/-! ### The table's match and mask -/

/-- The mask of `PWM.OFF`'s row keeps the frequency (R89). -/
theorem and_frequencyMask (w : BitVec 41) : w &&& 0x000FFFFFFFF#41 = 0#9 ++ cmdFrequency w :=
  calc w &&& 0x000FFFFFFFF#41
    _ = (w.extractLsb' 32 9 ++ cmdFrequency w) &&& (0#9 ++ BitVec.allOnes 32) :=
      congrArg (· &&& 0x000FFFFFFFF#41) (BitVec.extractLsb'_append_extractLsb' (w := 9) (len := 32)).symm
    _ = 0#9 ++ cmdFrequency w := by rw [BitVec.and_append, BitVec.and_zero, BitVec.and_allOnes]

theorem and_frequencyMask_eq_zero_iff (w : BitVec 41) :
    w &&& 0x000FFFFFFFF#41 = 0x00000000000#41 ↔ cmdFrequency w = 0#32 := by
  rw [and_frequencyMask]
  exact BitVec.append_right_inj (t₂ := 0#32) (0#9)

/-! ### The obligations -/

/-- Settles O2: by the format of the instruction's word. -/
theorem decodeInvertsEncode : Obligations.DecodeInvertsEncode := by
  intro i hwf
  unfold encode
  cases h : codeWord i with
  | step c => exact decode_stepByte_of_codeWord h
  | cmd w => rw [decode_commandBytes, decodeCmd_of_codeWord hwf h]

/-- Settles O3: by the two kinds of bytes that decode. -/
theorem encodeInvertsDecode : Obligations.EncodeInvertsDecode := by
  intro bytes i h
  unfold encode
  rcases decode_cases h with ⟨c, rfl, hi⟩ | ⟨w, rfl, rfl⟩
  · have hcode := decodeStep_codeWord hi
    exact ⟨wf_of_codeWord_step hcode, congrArg codeBytes hcode⟩
  · obtain ⟨hwf, hcode⟩ := decodeCmd_wf_codeWord w
    exact ⟨hwf, congrArg codeBytes hcode⟩

/-- Settles O4: the mask form of test 1, then test 2. -/
theorem commandWordSelectsByTwoTests : Obligations.CommandWordSelectsByTwoTests := by
  refine ⟨fun w => ?_, fun i code => decodeStep_eq_some_iff⟩
  rw [ne_eq, and_frequencyMask_eq_zero_iff]
  refine ⟨fun hf => if_pos hf, fun hf hd => ?_, fun hf hd => ?_⟩
  · exact (if_neg hf).trans (if_pos hd)
  · exact (if_neg hf).trans (if_neg (Nat.not_le.mpr hd))

/-- Settles O34: a reserved word is refused by its row and by `ACCEPT`, and frequency 0 is tested first. -/
theorem reservedWordsAreRefused : Obligations.ReservedWordsAreRefused := by
  refine ⟨fun c d => by rw [decodeCmd_cmdWord, if_pos rfl], fun c f d s hf hd => ⟨rfl, ?_, fun rest hcmds => ?_⟩⟩
  · rw [decodeCmd_cmdWord, if_neg hf, if_neg (Nat.not_le.mpr hd)]
  · have hres : reservedOperands f d = true := (reservedOperands_iff f d).mpr ⟨hf, hd⟩
    rcases Machine.exec_accept_cases s with ⟨hnone, -⟩ | ⟨w, tail, hw, ⟨-, h⟩ | ⟨hok, -⟩⟩
    · cases hnone.symm.trans hcmds
    · exact h
    · obtain ⟨rfl, -⟩ := List.cons.inj (hw.symm.trans hcmds)
      rw [cmdFrequency_cmdWord, cmdDuty_cmdWord, hres] at hok
      cases hok

end Sys2Proof
end

section
/-! PROOFS. The words of the opcode table as numbers (spec/30_encoding.md R80, R81, R83, R96; spec/10_state.md R24): a
numbered word that decodes is the number of a STEP code or of a CMD word, and where it is placed the next step runs
it. -/

namespace Sys2Proof

/-! ### Bytes of a number -/

theorem length_bytesOf (n w : Nat) : (bytesOf n w).length = n := by
  induction n generalizing w with
  | zero => rfl
  | succ n ih => rw [bytesOf, List.length_cons, ih]

/-- The bytes of a number that fits them determine it. -/
theorem bytesOf_injective {n v w : Nat} (hv : v < 2 ^ (8 * n)) (hw : w < 2 ^ (8 * n))
    (h : bytesOf n v = bytesOf n w) : v = w := by
  induction n generalizing v w with
  | zero => omega
  | succ n ih =>
    obtain ⟨hlow, hhigh⟩ := List.cons.inj h
    have hpow : 2 ^ (8 * (n + 1)) = 2 ^ (8 * n) * 256 := by rw [Nat.mul_succ, Nat.pow_add]
    have hmod : v % 256 = w % 256 := congrArg BitVec.toNat hlow
    have hdiv : v / 256 = w / 256 :=
      ih (Nat.div_lt_of_lt_mul (by omega)) (Nat.div_lt_of_lt_mul (by omega)) hhigh
    omega

/-- A STEP code has one byte, its number (log 12). -/
theorem bytesOf_stepCode (c : BitVec 5) : bytesOf 1 c.toNat = codeBytes (.step c) := by
  decide +revert

/-- A CMD word has six bytes, those of its number (log 12). -/
theorem bytesOf_cmdWord (w : BitVec 41) : bytesOf 6 w.toNat = codeBytes (.cmd w) := by
  have hbyte (n : Nat) : w.extractLsb' n 8 = BitVec.ofNat 8 (w.toNat / 2 ^ n) := by
    rw [BitVec.extractLsb', Nat.shiftRight_eq_div_pow]
  have htop : w.extractLsb' 41 7 = 0#7 := BitVec.eq_of_toNat_eq (by
    rw [BitVec.extractLsb'_toNat, Nat.shiftRight_eq_div_pow, Nat.div_eq_of_lt w.isLt]; rfl)
  have hlast : w.extractLsb' 40 8 = 0#7 ++ w.extractLsb' 40 1 := by
    rw [← htop]
    exact (BitVec.extractLsb'_append_extractLsb'_eq_extractLsb' (len₁ := 1) (len₂ := 7) rfl).symm
  simp only [bytesOf, codeBytes, ← hlast, hbyte, Nat.div_div_eq_div_mul, Nat.reduceMul, Nat.reducePow, Nat.div_one]

/-- A numbered word decodes to the micro-operation of a STEP code or to the command of a CMD word with that number. -/
theorem decodeTableWord_cases {nbits n : Nat} {i : Instr} (h : decodeTableWord nbits n = some i) :
    (tableBytes nbits = 1 ∧ ∃ c : BitVec 5, c.toNat = n ∧ decodeStep c = some i) ∨
    (tableBytes nbits = 6 ∧ ∃ w : BitVec 41, w.toNat = n ∧ decodeCmd w = i) := by
  unfold decodeTableWord at h
  split at h
  next hn =>
    split at h
    next j hj =>
      cases h
      rcases decode_cases hj with ⟨c, hbytes, hc⟩ | ⟨w, hbytes, hw⟩
      · have hlen : tableBytes nbits = 1 := (length_bytesOf _ n).symm.trans (congrArg List.length hbytes)
        rw [hlen, ← bytesOf_stepCode] at hbytes
        rw [hlen] at hn
        exact .inl ⟨hlen, c, bytesOf_injective (by omega) hn hbytes.symm, hc⟩
      · have hlen : tableBytes nbits = 6 := (length_bytesOf _ n).symm.trans (congrArg List.length hbytes)
        rw [hlen, ← bytesOf_cmdWord] at hbytes
        rw [hlen] at hn
        exact .inr ⟨hlen, w, bytesOf_injective (by omega) hn hbytes.symm, hw⟩
    next => cases h
  next => cases h

/-! ### The worked words -/

/-- Settles O1: the lines and the words evaluated; a byte that decodes is a used STEP code. -/
theorem writtenOutWordsDecode : Obligations.WrittenOutWordsDecode := by
  iterate 14 refine ⟨by decide, ?_⟩
  intro n h21 h31
  by_contra hne
  obtain ⟨i, hi⟩ := Option.ne_none_iff_exists'.mp hne
  rcases decodeTableWord_cases hi with ⟨-, c, hc, hstep⟩ | ⟨hlen, -⟩
  · have hc30 : c.toNat ≤ 30 := by have := c.isLt; omega
    cases hstep.symm.trans (Machine.decodeStep_unused (by omega) hc30)
  · cases hlen

namespace Machine

theorem step_placeStep {s : State} (hlegal : s.par.legal = true) {c : BitVec 5} {i : Instr}
    (h : decodeStep c = some i) : step (placeStep c s) = exec i { placeStep c s with turns := s.turns } :=
  (step_blockActs (s := placeStep c s) hlegal (.inr rfl)).trans
    (blockTurn_decoded (s := { placeStep c s with turns := s.turns }) h)

theorem step_placeCmd {s : State} (hlegal : s.par.legal = true) (w : BitVec 41) :
    step (placeCmd w s) = exec (decodeCmd w) { placeCmd w s with turns := s.turns } :=
  step_legal (s := placeCmd w s) hlegal

/-! ### The placed word -/

/-- Settles O10: a STEP code is placed for the block's turn, a CMD word as the next call. -/
theorem placedWordIsRunByTheNextStep : Obligations.PlacedWordIsRunByTheNextStep := by
  intro s nbits n i hlegal hi
  rcases decodeTableWord_cases hi with ⟨hlen, c, rfl, hc⟩ | ⟨hlen, w, rfl, rfl⟩
  · have hplaced : s.withFetchWord nbits c.toNat = placeStep c s := by
      rw [State.withFetchWord, placeTableWord, if_pos hlen, BitVec.ofNat_toNat, BitVec.setWidth_eq]
    rw [hplaced, step_placeStep hlegal hc]
  · have hplaced : s.withFetchWord nbits w.toNat = placeCmd w s := by
      rw [State.withFetchWord, placeTableWord, if_neg (by omega), BitVec.ofNat_toNat, BitVec.setWidth_eq]
    rw [hplaced, step_placeCmd hlegal]

end Machine

end Sys2Proof
end

section
/-! PROOFS. The Accessor's request and response words field by field (spec/30_encoding.md R82), and what every
micro-operation drives in them (spec/20_memory.md R51, R56). -/

namespace Sys2Proof

open Machine

/-! ### The request word -/

section Request

variable (q : Request)

theorem packRequest_value : (packRequest q).extractLsb' 0 32 = q.value := BitVec.extractLsb'_append_eq_right

theorem packRequest_above (n len : Nat) :
    (packRequest q).extractLsb' (32 + n) len =
      (BitVec.ofBool q.write ++ sizeField q.size ++ q.address).extractLsb' n len :=
  (BitVec.extractLsb'_append_eq_of_le (Nat.le_add_right 32 n)).trans (by rw [Nat.add_sub_cancel_left])

theorem packRequest_address : (packRequest q).extractLsb' 32 32 = q.address :=
  (packRequest_above q 0 32).trans BitVec.extractLsb'_append_eq_right

theorem packRequest_size : (packRequest q).extractLsb' 64 3 = sizeField q.size :=
  (packRequest_above q 32 3).trans
    ((BitVec.extractLsb'_append_eq_of_le (Nat.le_refl 32)).trans BitVec.extractLsb'_append_eq_right)

theorem packRequest_write : (packRequest q).getLsbD 67 = q.write := by
  have h : (packRequest q).getLsbD 67 =
      BitVec.getLsbD (w := 1 + 3 + 32 + 32) (BitVec.ofBool q.write ++ sizeField q.size ++ q.address ++ q.value)
        67 := rfl
  rw [h, BitVec.getLsbD_append, BitVec.getLsbD_append, BitVec.getLsbD_append]
  simp

end Request

theorem sizeOfField_sizeField (z : Size) : sizeOfField (sizeField z) = some z := by
  cases z <;> rfl

theorem unpackRequest_packRequest (q : Request) : unpackRequest (packRequest q) = some q := by
  simp only [unpackRequest, packRequest_size, sizeOfField_sizeField, packRequest_write, packRequest_address,
    packRequest_value]

/-! ### The response word -/

theorem packResponse_rdata (p : Response) : (packResponse p).extractLsb' 0 32 = p.rdata :=
  BitVec.extractLsb'_append_eq_right

theorem packResponse_err (p : Response) : (packResponse p).getLsbD 32 = p.err := by
  have h : (packResponse p).getLsbD 32 = BitVec.getLsbD (w := 1 + 32) (BitVec.ofBool p.err ++ p.rdata) 32 := rfl
  rw [h, BitVec.getLsbD_append]
  simp

theorem unpackResponse_packResponse (p : Response) : unpackResponse (packResponse p) = p := by
  simp only [unpackResponse, packResponse_err, packResponse_rdata]

/-! ### The obligation -/

/-- Settles O5: both words field by field, and the two shapes of a request to a register. -/
theorem accessorWordsReadBack : Obligations.AccessorWordsReadBack := by
  refine ⟨fun q => ⟨unpackRequest_packRequest q, packRequest_value q, packRequest_address q, packRequest_write q,
      fun hsize => by rw [packRequest_size, hsize]; rfl⟩,
    fun p => ⟨unpackResponse_packResponse p, packResponse_rdata p, packResponse_err p⟩, fun s i q hq => ?_⟩
  obtain ⟨r, rfl | ⟨v, rfl⟩⟩ := requestOf_isRegisterRequest hq
  · exact ⟨rfl, fun _ => rfl, r, rfl⟩
  · exact ⟨rfl, nofun, r, rfl⟩

end Sys2Proof
end

section
/-! PROOFS. The assembled addresses and the control word (spec/30_encoding.md R85, R86, R97; spec/20_memory.md R57,
R58), with the parameters as printed: fields that share no bit read back from their sum. -/

namespace Sys2Proof

open Machine Safety

/-! ### An address as base, channel and offset -/

/-- The offsets of the per-channel registers in a channel's window (spec/20_memory.md R57). -/
def chanOffsets : List (ChanReg × BitVec 6) :=
  [(.con, 0x10#6), (.hdur, 0x14#6), (.ldur, 0x18#6), (.gdur, 0x1C#6), (.sd0, 0x30#6), (.sd1, 0x34#6),
    (.wavenum, 0x38#6)]

/-- The stride of `0x40` places the channel in bits 7:6 (R85). -/
theorem concatenation_eq_sum (c : BitVec 2) (off : BitVec 6) :
    0x100050#24 ++ c ++ off = (0x10005000#32 + off.setWidth 32) + 0x40#32 * c.setWidth 32 := by
  decide +revert

/-- A word is the concatenation of three fields exactly when it has those fields (R85). -/
theorem eq_append_iff (a : Word) (hi : BitVec 24) (c : BitVec 2) (off : BitVec 6) :
    a = hi ++ c ++ off ↔ a.extractLsb' 8 24 = hi ∧ a.extractLsb' 6 2 = c ∧ a.extractLsb' 0 6 = off := by
  constructor
  · rintro rfl
    exact ⟨(BitVec.extractLsb'_append_eq_of_le (by decide)).trans BitVec.extractLsb'_append_eq_left,
      (BitVec.extractLsb'_append_eq_of_le (by decide)).trans BitVec.extractLsb'_append_eq_right,
      BitVec.extractLsb'_append_eq_right⟩
  · rintro ⟨rfl, rfl, rfl⟩
    have hjoin : a.extractLsb' 8 24 ++ a.extractLsb' 6 2 = a.extractLsb' 6 26 :=
      BitVec.extractLsb'_append_extractLsb'_eq_extractLsb' rfl
    rw [hjoin]
    exact (BitVec.extractLsb'_append_extractLsb' (w := 26) (len := 6)).symm

/-- The Target's mask clears the channel and keeps the base and the offset (R97). -/
theorem and_channelMask_iff (a : Word) (hi : BitVec 24) (off : BitVec 6) :
    a &&& 0xFFFFFF3F#32 = hi ++ 0#2 ++ off ↔ a.extractLsb' 8 24 = hi ∧ a.extractLsb' 0 6 = off := by
  have hhi : (0xFFFFFF3F#32).extractLsb' 8 24 = BitVec.allOnes 24 := by decide
  have hc : (0xFFFFFF3F#32).extractLsb' 6 2 = 0#2 := by decide
  have hoff : (0xFFFFFF3F#32).extractLsb' 0 6 = BitVec.allOnes 6 := by decide
  rw [eq_append_iff]
  simp only [BitVec.extractLsb'_and, hhi, hc, hoff, BitVec.and_allOnes, BitVec.and_zero, true_and]

/-- The Target's test of one register by mask and match, with its channel in bits 7:6 (R97). -/
theorem eq_concatenation_iff (a : Word) (c : BitVec 2) (off : BitVec 6) :
    a = 0x100050#24 ++ c ++ off ↔
      a &&& 0xFFFFFF3F#32 = 0x10005000#32 + off.setWidth 32 ∧ a.extractLsb' 6 2 = c := by
  have hmatch : 0x10005000#32 + off.setWidth 32 = 0x100050#24 ++ 0#2 ++ off :=
    (BitVec.add_zero _).symm.trans (concatenation_eq_sum 0#2 off).symm
  rw [hmatch, and_channelMask_iff, eq_append_iff]
  tauto

section Printed

variable {p : Config.Params} (hp : p.AsPrinted)
include hp

theorem chanBase_eq_offset {k : ChanReg} {off : BitVec 6} (h : (k, off) ∈ chanOffsets) :
    chanBase p k = 0x10005000#32 + off.setWidth 32 := by
  have hbase : chanBase p k = chanBase Config.Params.default k := by
    rw [hp]
    cases k <;> rfl
  have all : ∀ e ∈ chanOffsets, chanBase Config.Params.default e.1 = 0x10005000#32 + e.2.setWidth 32 := by decide
  exact hbase.trans (all _ h)

theorem regAddr_eq_concatenation {k : ChanReg} {off : BitVec 6} (h : (k, off) ∈ chanOffsets) (c : BitVec 2) :
    regAddr p (.chan k c) = 0x100050#24 ++ c ++ off := by
  rw [regAddr_chan hp, chanBase_eq_offset hp h, concatenation_eq_sum]

/-- An address names a register exactly when it is that register's address (spec/20_memory.md R58). -/
theorem regOfAddr_eq_some_iff {a : Word} {r : Reg} : regOfAddr p a = some r ↔ a = regAddr p r :=
  ⟨fun h => (regAddr_of_regOfAddr h).symm, fun h => h ▸ regOfAddr_regAddr hp r⟩

end Printed

/-! ### The control word -/

/-- The divider has no bit in common with `CON_MODE_BITS` (R86). -/
theorem modeBits_and_divider (div : BitVec 3) : 0x00000A00#32 &&& div.setWidth 32 = 0#32 := by
  decide +revert

/-- `FAST_BIT` has no bit in common with the mode bits and the divider (R9). -/
theorem fastBitOf_and_otherBits {p : Config.Params} (hp : p.AsPrinted) (h : p.legal = true) (mode : ClockMode) :
    fastBitOf p mode &&& (0x00000A00#32 ||| 0x7#32) = 0#32 := by
  rw [Config.Params.legal, Bool.and_eq_true, Config.Params.openLegal_iff, hp.conModeBits] at h
  obtain ⟨⟨⟨-, hmiss⟩, -⟩, -⟩ := h
  cases mode with
  | fast => exact hmiss
  | slow => exact BitVec.zero_and

section ControlWord

variable {f : Word} (hf : f &&& (0x00000A00#32 ||| 0x7#32) = 0#32)
include hf

theorem and_modeBits_eq_zero : 0x00000A00#32 &&& f = 0#32 := by
  have hsub : 0x00000A00#32 = (0x00000A00#32 ||| 0x7#32) &&& 0x00000A00#32 := by decide
  rw [BitVec.and_comm, hsub, ← BitVec.and_assoc, hf, BitVec.zero_and]

theorem and_divider_eq_zero (div : BitVec 3) : f &&& div.setWidth 32 = 0#32 := by
  have hsub : div.setWidth 32 = (0x00000A00#32 ||| 0x7#32) &&& div.setWidth 32 := by decide +revert
  rw [hsub, ← BitVec.and_assoc, hf, BitVec.zero_and]

theorem extractLsb'_divider_eq_zero : f.extractLsb' 0 3 = 0#3 := by
  have h := congrArg (BitVec.extractLsb' 0 3) hf
  rw [BitVec.extractLsb'_and] at h
  exact BitVec.and_allOnes.symm.trans h

theorem or_eq_add_of_fields (div : BitVec 3) :
    0x00000A00#32 ||| f ||| div.setWidth 32 = 0x00000A00#32 + f + div.setWidth 32 := by
  rw [BitVec.add_eq_or_of_and_eq_zero _ _ (and_modeBits_eq_zero hf), BitVec.add_eq_or_of_and_eq_zero]
  rw [BitVec.and_or_distrib_right, modeBits_and_divider, and_divider_eq_zero hf, BitVec.or_zero]

theorem divider_of_or (div : BitVec 3) : (0x00000A00#32 ||| f ||| div.setWidth 32).extractLsb' 0 3 = div := by
  have hmode : (0x00000A00#32).extractLsb' 0 3 = 0#3 := by decide
  have hdiv : (div.setWidth 32).extractLsb' 0 3 = div := by decide +revert
  rw [BitVec.extractLsb'_or, BitVec.extractLsb'_or, hmode, hdiv, extractLsb'_divider_eq_zero hf]
  simp

end ControlWord

section Legal

variable {p : Config.Params} (hp : p.AsPrinted)
include hp

theorem controlWord_eq (mode : ClockMode) (div : BitVec 3) :
    controlWord p mode div = 0x00000A00#32 ||| fastBitOf p mode ||| div.setWidth 32 := by
  rw [controlWord, hp.conModeBits]

theorem controlWord_and_fastBit (h : p.legal = true) (mode : ClockMode) (div : BitVec 3) :
    controlWord p mode div &&& p.fastBit = fastBitOf p mode := by
  have hfast : p.fastBit &&& (0x00000A00#32 ||| 0x7#32) = 0#32 := fastBitOf_and_otherBits hp h .fast
  have hself : fastBitOf p mode &&& p.fastBit = fastBitOf p mode := by cases mode <;> simp [fastBitOf]
  rw [controlWord_eq hp, BitVec.and_or_distrib_right, BitVec.and_or_distrib_right, and_modeBits_eq_zero hfast, hself,
    BitVec.and_comm (div.setWidth 32), and_divider_eq_zero hfast]
  simp

end Legal

theorem fastBitOf_eq_ite (p : Config.Params) (mode : ClockMode) :
    fastBitOf p mode = if mode = .fast then p.fastBit else 0#32 := by
  cases mode <;> rfl

/-- The eight words of Fast mode with the default `FAST_BIT` (R86). -/
theorem controlWord_default_fast (div : BitVec 3) :
    controlWord Config.Params.default .fast div = 0x00000A08#32 + div.setWidth 32 := by
  decide +revert

/-! ### The obligations -/

/-- Settles O6: the concatenation and its test by mask and match, register by register. -/
theorem addressIsBaseChannelOffset : Obligations.AddressIsBaseChannelOffset := by
  intro p hp
  refine ⟨regAddr_en hp, fun c k off hoff => ?_, fun a => ?_, fun a r => regOfAddr_eq_some_iff hp⟩
  · have haddr := regAddr_eq_concatenation hp hoff c
    refine ⟨haddr, haddr.trans (concatenation_eq_sum c off), fun a => ?_⟩
    rw [regOfAddr_eq_some_iff hp, haddr, eq_concatenation_iff]
  · rw [regOfAddr_eq_some_iff hp, regAddr_en hp]
    exact iff_of_eq (congrArg (· = 0x10005000#32) (BitVec.and_allOnes (x := a)).symm)

/-- Settles O7: the three fields are disjoint, and Slow mode has divider 0 in a state that keeps the invariant. -/
theorem controlWordFieldsReadBack : Obligations.ControlWordFieldsReadBack := by
  refine ⟨fun p mode div hp hlegal => ?_, controlWord_default_fast, rfl, fun s q hinv hpar hq => ?_⟩
  · have hfields := fastBitOf_and_otherBits hp hlegal mode
    rw [controlWord_and_fastBit hp hlegal, controlWord_eq hp, ← fastBitOf_eq_ite]
    exact ⟨rfl, or_eq_add_of_fields hfields div, divider_of_or hfields div, rfl⟩
  · obtain rfl : writeReq s.par (.chan .con s.ch) (controlWord s.par s.clksel s.div) = q := Option.some.inj hq
    rw [writeReq, hpar]
    cases hmode : s.clksel with
    | slow => exact .inl (by rw [hinv.slowDivZero hmode]; rfl)
    | fast => exact .inr ⟨s.div, controlWord_default_fast s.div⟩

end Sys2Proof
end

section
/-! PROOFS. The command surface (spec/30_encoding.md R93 to R95, spec/60_exceptions.md R193): when three operands
assemble and to which number, what a line's turn delivers, and how an ending is reported. -/

namespace Sys2Proof

/-- A CMD word as a number, by its fields (R81). -/
theorem cmdWord_toNat (c : BitVec 2) (f : Word) (d : BitVec 7) :
    (cmdWord c f d).toNat = d.toNat * 2 ^ 34 + c.toNat * 2 ^ 32 + f.toNat := by
  have happend {m n : Nat} (x : BitVec m) (y : BitVec n) : (x ++ y).toNat = x.toNat * 2 ^ n + y.toNat := by
    rw [BitVec.toNat_append, ← Nat.shiftLeft_add_eq_or_of_lt y.isLt, Nat.shiftLeft_eq]
  have hfields : (cmdWord c f d).toNat = (d.toNat * 2 ^ 2 + c.toNat) * 2 ^ 32 + f.toNat := by
    rw [← happend d c]
    exact happend (d ++ c) f
  rw [hfields, Nat.add_mul, Nat.mul_assoc, ← Nat.pow_add]

theorem cmdWord_ofNat {c f : Nat} (hc : c ≤ 3) (hf : f < 4294967296) (d : Nat) :
    cmdWord (BitVec.ofNat 2 c) (BitVec.ofNat 32 f) (BitVec.ofNat 7 d) =
      BitVec.ofNat 41 (d * 2 ^ 34 + c * 2 ^ 32 + f) := by
  apply BitVec.eq_of_toNat_eq
  simp only [cmdWord_toNat, BitVec.toNat_ofNat]
  omega

namespace Machine

/-! ### Assembling a line -/

/-- R95's ranges, with the four channels as printed. -/
theorem operandsInRange_iff {p : Config.Params} (hp : p.AsPrinted) (c f d : Nat) :
    operandsInRange p c f d = true ↔ c ≤ 3 ∧ f < 4294967296 ∧ d ≤ 100 := by
  have h : operandsInRange p c f d = true ↔ ((c < 4 ∧ c < 4) ∧ f < 2 ^ 32) ∧ d ≤ Config.maxDuty := by
    simp only [operandsInRange, hp.numChannels, Bool.and_eq_true, decide_eq_true_eq]
  rw [h, Config.maxDuty]
  omega

/-- An operand that does not parse rejects the line (R95). -/
theorem assembleParsed_none (p : Config.Params) {c f d : Option Nat} (h : c = none ∨ f = none ∨ d = none) :
    assembleParsed p c f d = .rejected .badArgument := by
  rcases h with rfl | rfl | rfl
  · rfl
  · cases c <;> rfl
  · cases c <;> cases f <;> rfl

theorem assemble_three_in_range {p : Config.Params} (hp : p.AsPrinted) {c f d : List Char} {nc nf nd : Nat}
    (hc : decimal c = some nc) (hf : decimal f = some nf) (hd : decimal d = some nd)
    (hnc : nc ≤ 3) (hnf : nf < 4294967296) (hnd : nd ≤ 100) :
    assemble p [c, f, d] = .command (BitVec.ofNat 41 (nd * 2 ^ 34 + nc * 2 ^ 32 + nf)) := by
  have hin : operandsInRange p nc nf nd = true := (operandsInRange_iff hp nc nf nd).mpr ⟨hnc, hnf, hnd⟩
  simp only [assemble, assembleParsed, hc, hf, hd, if_pos hin, cmdWord_ofNat hnc hnf nd]

theorem assemble_three_out_of_range {p : Config.Params} (hp : p.AsPrinted) {c f d : List Char} {nc nf nd : Nat}
    (hc : decimal c = some nc) (hf : decimal f = some nf) (hd : decimal d = some nd)
    (hrange : ¬ (nc ≤ 3 ∧ nf < 4294967296 ∧ nd ≤ 100)) :
    assemble p [c, f, d] = .rejected .badArgument := by
  have hout : operandsInRange p nc nf nd ≠ true := mt (operandsInRange_iff hp nc nf nd).mp hrange
  simp only [assemble, assembleParsed, hc, hf, hd, if_neg hout]

/-- A line of two operands is the line with the default duty as its third (R94). -/
theorem assemble_two {p : Config.Params} (hp : p.AsPrinted) (c f : List Char) :
    assemble p [c, f] = assemble p [c, f, ['5', '0']] := by
  have hfifty : decimal ['5', '0'] = some 50 := by decide
  simp only [assemble, hp.defaultDuty, hfifty]

/-! ### Delivering a word -/

section Turns

variable {s : State} (hlegal : s.par.legal = true) {rest : List Turn}
include hlegal

theorem step_present {w : BitVec 41} (h : s.turns = .present w :: rest) :
    step s = .next (waits w { s with turns := rest }) := by
  rw [step_legal hlegal, takeTurn, h]
  rfl

theorem step_line {ops : List (List Char)} (h : s.turns = .line ops :: rest) :
    step s = lineTurn ops { s with turns := rest } := by
  rw [step_legal hlegal, takeTurn, h]

end Turns

/-! ### Reporting the end -/

/-- R193: the fault state is the access fault, and elsewhere `DONE` is success. -/
theorem endingOf_cases (s : State) : (s.pc = 31#5 → endingOf s = some .accessFault) ∧
    (s.pc ≠ 31#5 → endingOf s = if s.done then some .success else none) := by
  simp +contextual [endingOf, State.faultFlag]

/-- Settles O60: the lines by their operands, the turns by what they deliver, and the statuses. -/
theorem commandSurfaceValidates : Obligations.CommandSurfaceValidates := by
  refine ⟨fun p hp => ⟨fun ops hlen => ?_, assemble_two hp, fun c f d nc nf nd hc hf hd =>
      ⟨assemble_three_in_range hp hc hf hd, fun hout => assemble_three_out_of_range hp hc hf hd (by omega)⟩,
      fun c f d h => assembleParsed_none p h⟩,
    fun s ops rest w why hlegal => ⟨fun h hw => ?_, step_present hlegal, fun h hwhy => ?_⟩,
    endingOf_cases, rfl, rfl, rfl, _, Nat.succ_ne_zero _, rfl⟩
  · match ops, hlen with
    | [], _ => rfl
    | [_], _ => rfl
  · rw [step_line hlegal h, lineTurn, hw]
    rfl
  · rw [step_line hlegal h, lineTurn, hwhy]

end Machine

end Sys2Proof
end

section
/-! PROOFS. The calculator as one function (spec/40_command.md R110, R114, R116, R119, R122): the search stops at the
first divider within the limit, and what that says in closed form and by bands. -/

namespace Sys2Proof.Machine

/-! ### The search -/

/-- The Fast duration at a divider as a natural, `40000000 / (2^d * f)` (R110). -/
def fastTicks (f : Word) (d : Nat) : Nat := 40000000 / (2 ^ d * f.toNat)

/-- The limit as a bound on the divisor: `40000000 / 15001` lies strictly between 2666 and 2667 (R114). -/
theorem fastTicks_le_iff {f : Word} (hf : f ≠ 0#32) (d : Nat) : fastTicks f d ≤ 15000 ↔ 2667 ≤ 2 ^ d * f.toNat := by
  have hpos : 0 < 2 ^ d * f.toNat := Nat.mul_pos (Nat.two_pow_pos d) (word_ne_zero hf)
  rw [fastTicks, ← Nat.lt_succ_iff, Nat.div_lt_iff_lt_mul hpos]
  omega

/-- A higher divider gives no larger duration. -/
theorem fastTicks_antitone {f : Word} (hf : f ≠ 0#32) {d e : Nat} (h : d ≤ e) : fastTicks f e ≤ fastTicks f d :=
  Nat.div_le_div_left (Nat.mul_le_mul_right _ (Nat.pow_le_pow_right (by decide) h))
    (Nat.mul_pos (Nat.two_pow_pos d) (word_ne_zero hf))

/-- The slow clock gives the least duration of the nine pairs (R116). -/
theorem slow_le_fastTicks {f : Word} (hf : f ≠ 0#32) {d : Nat} (hd : d ≤ 7) : 100000 / f.toNat ≤ fastTicks f d := by
  have hpow : 2 ^ d ≤ 400 := (Nat.pow_le_pow_right (by decide) hd).trans (by decide)
  calc 100000 / f.toNat = 400 * 100000 / (400 * f.toNat) := (Nat.mul_div_mul_left _ _ (by decide)).symm
    _ ≤ fastTicks f d := Nat.div_le_div_left (Nat.mul_le_mul_right _ hpow)
        (Nat.mul_pos (Nat.two_pow_pos d) (word_ne_zero hf))

section Printed

variable {p : Config.Params} (hp : p.AsPrinted) {f : Word} (hf : f ≠ 0#32)
include hp hf

/-- The search passes the dividers that are over the limit, and ends at one that is not or at the last. -/
theorem searchFrom_spec (left d : Nat) :
    ∃ e, searchFrom p f left d (fastDuration p f d) = (e, fastDuration p f e) ∧ d ≤ e ∧ e ≤ d + left ∧
      (∀ i, d ≤ i → i < e → 15000 < fastTicks f i) ∧ (fastTicks f e ≤ 15000 ∨ e = d + left) := by
  induction left generalizing d with
  | zero => exact ⟨d, rfl, le_rfl, le_rfl, fun i _ _ => by omega, .inr rfl⟩
  | succ left ih =>
    by_cases hover : 15000 < (fastDuration p f d).toNat
    · obtain ⟨e, he, hde, hel, hpassed, hstop⟩ := ih (d + 1)
      rw [searchFrom_over hp hover]
      refine ⟨e, he, by omega, by omega, fun i hi hie => ?_, by omega⟩
      rcases hi.eq_or_lt with rfl | hlt
      · rwa [fastDuration_toNat hp hf] at hover
      · exact hpassed i hlt hie
    · rw [searchFrom_within hp hover]
      rw [fastDuration_toNat hp hf, not_lt] at hover
      exact ⟨d, rfl, le_rfl, by omega, fun i _ _ => by omega, .inl hover⟩

/-- All that `calc` can answer: the first divider of the fast clock within the limit, or the slow clock where all eight
are over it (R110, R116). -/
theorem timing_cases :
    (∃ d, d ≤ 7 ∧ timing p f = ⟨.fast, BitVec.ofNat 3 d, fastDuration p f d⟩ ∧ fastTicks f d ≤ 15000 ∧
      ∀ e < d, 15000 < fastTicks f e) ∨
    (timing p f = ⟨.slow, 0#3, slowDuration p f⟩ ∧ ∀ d ≤ 7, 15000 < fastTicks f d) := by
  obtain ⟨d, hsearch, -, hd, hpassed, hstop⟩ := searchFrom_spec hp hf 7 0
  have htiming : timing p f = if overLimit p (fastDuration p f d) then ⟨.slow, 0#3, slowDuration p f⟩
      else ⟨.fast, BitVec.ofNat 3 d, fastDuration p f d⟩ := by
    rw [timing, hp.maxDiv]
    exact congrArg (fun r : Nat × Word => if overLimit p r.2 then (⟨.slow, 0#3, slowDuration p f⟩ : Timing)
      else ⟨.fast, BitVec.ofNat 3 r.1, r.2⟩) hsearch
  by_cases hover : 15000 < (fastDuration p f d).toNat
  · rw [if_pos ((overLimit_iff hp _).mpr hover)] at htiming
    rw [fastDuration_toNat hp hf] at hover
    refine .inr ⟨htiming, fun e he => hover.trans_le (fastTicks_antitone hf ?_)⟩
    exact he.trans (hstop.resolve_left (not_le.mpr hover)).ge
  · rw [overLimit_eq_false hp hover] at htiming
    rw [fastDuration_toNat hp hf, not_lt] at hover
    exact .inl ⟨d, by omega, htiming, hover, fun e he => hpassed e (Nat.zero_le e) he⟩

/-! ### The closed form -/

/-- The first divider whose divisor reaches 2667 is the one chosen (R114). -/
theorem timing_of_first {d : Nat} (hd : d ≤ 7) (hwithin : 2667 ≤ 2 ^ d * f.toNat)
    (hfirst : ∀ e < d, 2 ^ e * f.toNat < 2667) : timing p f = ⟨.fast, BitVec.ofNat 3 d, fastDuration p f d⟩ := by
  have hin : fastTicks f d ≤ 15000 := (fastTicks_le_iff hf d).mpr hwithin
  rcases timing_cases hp hf with ⟨e, -, htiming, he, hover⟩ | ⟨-, hover⟩
  · have hle : d ≤ e := by
      by_contra hlt
      have := hfirst e (not_le.mp hlt)
      have := (fastTicks_le_iff hf e).mp he
      omega
    have hge : e ≤ d := by
      by_contra hlt
      have := hover d (not_le.mp hlt)
      omega
    rw [htiming, le_antisymm hle hge]
  · have := hover d hd
    omega

/-- Up to 20 Hz all eight dividers of the fast clock are over the limit (R114). -/
theorem timing_low (hlow : f.toNat ≤ 20) : timing p f = ⟨.slow, 0#3, slowDuration p f⟩ := by
  rcases timing_cases hp hf with ⟨d, hd, -, hin, -⟩ | ⟨htiming, -⟩
  · have hdiv : 2 ^ d * f.toNat ≤ 2 ^ 7 * 20 := Nat.mul_le_mul (Nat.pow_le_pow_right (by decide) hd) hlow
    have := (fastTicks_le_iff hf d).mp hin
    omega
  · exact htiming

/-- From 21 Hz on some divider of the fast clock is within the limit (R114). -/
theorem timing_high (hhigh : 21 ≤ f.toNat) : ∃ d, d ≤ 7 ∧ 2667 ≤ 2 ^ d * f.toNat ∧
    (∀ e < d, 2 ^ e * f.toNat < 2667) ∧ timing p f = ⟨.fast, BitVec.ofNat 3 d, fastDuration p f d⟩ := by
  rcases timing_cases hp hf with ⟨d, hd, htiming, hin, hover⟩ | ⟨-, hover⟩
  · refine ⟨d, hd, (fastTicks_le_iff hf d).mp hin, fun e he => ?_, htiming⟩
    rw [← not_le, ← fastTicks_le_iff hf e]
    exact (hover e he).not_ge
  · have := hover 7 le_rfl
    have := (fastTicks_le_iff hf 7).mpr (by omega)
    omega

theorem fastDuration_eq_ofNat (d : Nat) :
    fastDuration p f d = BitVec.ofNat 32 (40000000 / (2 ^ d * f.toNat)) := by
  rw [← fastDuration_toNat hp hf, BitVec.ofNat_toNat, BitVec.setWidth_eq]

theorem slowDuration_eq_ofNat : slowDuration p f = BitVec.ofNat 32 (100000 / f.toNat) := by
  rw [← slowDuration_toNat hp hf, BitVec.ofNat_toNat, BitVec.setWidth_eq]

/-! ### The bands -/

/-- A row of R114's table keeps to the closed form: the lowest frequency gives the longest duration, and the highest
the shortest. -/
def BandFits (lo hi : Nat) (mode : ClockMode) (div : BitVec 3) (top bottom : Nat) : Prop :=
  match mode with
  | .slow => 0 < lo ∧ hi ≤ 20 ∧ div = 0#3 ∧ 100000 / lo ≤ top ∧ bottom ≤ 100000 / hi
  | .fast => 2667 ≤ 2 ^ div.toNat * lo ∧ (∀ e < div.toNat, 2 ^ e * hi < 2667) ∧
      40000000 / (2 ^ div.toNat * lo) ≤ top ∧ bottom ≤ 40000000 / (2 ^ div.toNat * hi)

/-- In a band that fits, `calc` answers what its row says. -/
theorem timing_of_band {lo hi : Nat} {mode : ClockMode} {div : BitVec 3} {top bottom : Nat}
    (h : BandFits lo hi mode div top bottom) (hlo : lo ≤ f.toNat) (hhi : f.toNat ≤ hi) :
    (timing p f).mode = mode ∧ (timing p f).div = div ∧ (timing p f).dur.toNat ≤ top ∧
      bottom ≤ (timing p f).dur.toNat := by
  cases mode with
  | slow =>
    obtain ⟨hpos, hlow, rfl, htop, hbottom⟩ := h
    rw [timing_low hp hf (hhi.trans hlow)]
    have hdur := slowDuration_toNat hp hf
    exact ⟨rfl, rfl, (hdur.trans_le (Nat.div_le_div_left hlo hpos)).trans htop,
      hbottom.trans ((Nat.div_le_div_left hhi (word_ne_zero hf)).trans hdur.ge)⟩
  | fast =>
    obtain ⟨hwithin, hfirst, htop, hbottom⟩ := h
    have hlow : 2 ^ div.toNat * lo ≤ 2 ^ div.toNat * f.toNat := Nat.mul_le_mul_left _ hlo
    have hhigh (e : Nat) : 2 ^ e * f.toNat ≤ 2 ^ e * hi := Nat.mul_le_mul_left _ hhi
    have hd : div.toNat ≤ 7 := Nat.lt_succ_iff.mp div.isLt
    rw [timing_of_first hp hf hd (hwithin.trans hlow) fun e he => (hhigh e).trans_lt (hfirst e he)]
    have hdur := fastDuration_toNat hp hf div.toNat
    exact ⟨rfl, by simp, (hdur.trans_le (Nat.div_le_div_left hlow (by omega))).trans htop,
      hbottom.trans ((Nat.div_le_div_left (hhigh _) (by omega)).trans hdur.ge)⟩

end Printed

/-- Settles O23: the first divider whose divisor reaches 2667, and the eleven rows of the table. -/
theorem calculatorClosedForm : Obligations.CalculatorClosedForm := by
  intro p f hp hf
  refine ⟨fun hhigh => ?_, fun hlow => ?_, fun lo hi mode div top bottom hrow hlo hhi => ?_⟩
  · obtain ⟨d, hd, hwithin, hfirst, htiming⟩ := timing_high hp hf hhigh
    exact ⟨d, hd, hwithin, hfirst, by rw [htiming, fastDuration_eq_ofNat hp hf]⟩
  · rw [timing_low hp hf hlow, slowDuration_eq_ofNat hp hf]
  · refine timing_of_band hp hf ?_ hlo hhi
    simp only [List.mem_cons, Prod.mk.injEq, List.not_mem_nil, or_false] at hrow
    rcases hrow with h | h | h | h | h | h | h | h | h | h | h <;>
      · obtain ⟨rfl, rfl, rfl, rfl, rfl, rfl⟩ := h
        simp only [BandFits]
        decide

/-! ### The chosen pair -/

/-- The effective clock of a chosen pair, before its divider: `CLK_FAST_HZ` or `CLK_SLOW_HZ`. -/
def clockOf (mode : ClockMode) : Nat := if mode = .fast then 40000000 else 100000

/-- The chosen duration is the floor of the effective clock over the frequency (R122). -/
theorem timing_dur_toNat {p : Config.Params} (hp : p.AsPrinted) {f : Word} (hf : f ≠ 0#32) :
    (timing p f).dur.toNat = clockOf (timing p f).mode / (2 ^ (timing p f).div.toNat * f.toNat) := by
  rcases timing_cases hp hf with ⟨d, hd, htiming, -⟩ | ⟨htiming, -⟩
  · have hdiv : (BitVec.ofNat 3 d).toNat = d := by
      rw [BitVec.toNat_ofNat]
      omega
    rw [htiming, hdiv]
    exact fastDuration_toNat hp hf d
  · rw [htiming]
    simpa [clockOf] using slowDuration_toNat hp hf

/-- Settles O24: in both cases of the search, by the order of the nine durations. -/
theorem selectionIsTheBestWithinTheLimit : Obligations.SelectionIsTheBestWithinTheLimit := by
  intro p f hp hf
  rcases timing_cases hp hf with ⟨d, hd, htiming, hin, hover⟩ | ⟨htiming, hover⟩
  · have hdur : (timing p f).dur.toNat = fastTicks f d := by
      rw [htiming]
      exact fastDuration_toNat hp hf d
    have hmode : (timing p f).mode = .fast := by rw [htiming]
    have hdiv : (timing p f).div.toNat = d := by
      rw [htiming]
      exact (BitVec.toNat_ofNat ..).trans (Nat.mod_eq_of_lt (by omega))
    rw [hdur, hmode, hdiv]
    refine ⟨fun _ => hin, fun e _ he => fastTicks_antitone hf ?_, fun _ => slow_le_fastTicks hf hd, nofun,
      fun _ => ⟨rfl, hin, hover⟩⟩
    by_contra hlt
    exact (hover e (not_le.mp hlt)).not_ge he
  · have hdur : (timing p f).dur.toNat = 100000 / f.toNat := by
      rw [htiming]
      exact slowDuration_toNat hp hf
    have hmode : (timing p f).mode = .slow := by rw [htiming]
    rw [hdur, hmode]
    refine ⟨?_, fun d hd he => absurd he (hover d hd).not_ge, fun _ => le_rfl,
      fun _ => ⟨by rw [htiming], rfl, hover⟩, nofun⟩
    rintro (⟨d, hd, he⟩ | hslow)
    · exact absurd he (hover d hd).not_ge
    · exact hslow

/-- Settles O26: both halves are the floor of the effective clock over the frequency. -/
theorem frequencyErrorIsUpward : Obligations.FrequencyErrorIsUpward := by
  rintro p f _ hp hf rfl
  have hfloor := timing_dur_toNat hp hf
  have hexact : f.toNat * (timing p f).dur.toNat * 2 ^ (timing p f).div.toNat ≤ clockOf (timing p f).mode := by
    rw [hfloor, Nat.mul_right_comm, Nat.mul_comm f.toNat]
    exact Nat.mul_div_le _ _
  refine ⟨hfloor.trans (Nat.div_div_eq_div_mul _ _ _).symm, fun hpos => ?_⟩
  rw [le_div_iff₀ (by exact_mod_cast hpos), le_div_iff₀ (by positivity)]
  exact_mod_cast hexact

/-! ### The split -/

/-- The two products of the split add up to 100 durations. -/
theorem products_add {dur duty : Nat} (h : duty ≤ 100) : dur * duty + dur * (100 - duty) = 100 * dur := by
  rw [← Nat.mul_add, Nat.add_sub_cancel' h, Nat.mul_comm]

/-- Settles O25: two products that add up to 100 durations, each divided by 100. -/
theorem splitDriftsAtMostOneTick : Obligations.SplitDriftsAtMostOneTick := by
  intro dur duty hduty
  have hhigh := splitHigh_toNat (dur := dur) hduty
  have hlow := splitLow_toNat (dur := dur) hduty
  have hsum : dur.toNat * duty.toNat + dur.toNat * (100 - duty.toNat) = 100 * dur.toNat := products_add hduty
  refine ⟨fun _ _ => ?_, fun h0 => ⟨?_, ?_⟩, fun h100 => ⟨?_, ?_⟩⟩
  · rw [hhigh, hlow]
    omega
  · exact BitVec.eq_of_toNat_eq (by rw [hhigh, h0]; simp)
  · exact BitVec.eq_of_toNat_eq (by rw [hlow, h0]; simp)
  · exact BitVec.eq_of_toNat_eq (by rw [hhigh, h100]; simp)
  · exact BitVec.eq_of_toNat_eq (by rw [hlow, h100]; simp)

end Sys2Proof.Machine
end

section
/-! PROOFS. The two commands as runs (spec/40_command.md R111, R112): the read-modify-write of Global Enable, the list
of configuration writes, the exact state after a served run, and the first refused access. -/

namespace Sys2Proof.Machine

open Sys2Proof.Safety

/-! ### The update of Global Enable -/

/-- The state after a served read of Global Enable that gave `e` and a served write of `v` whose read-back gave `x`:
steps 1 and 8 of a command. -/
def afterUpdateEn (e v x : Word) (s : State) : State :=
  { s with
    entmp := e, answers := s.answers.tail.tail, mem := s.mem.putWord (regAddr s.par .en) v,
    trace := s.trace ++ [.rd (regAddr s.par .en) .four e, .wr (regAddr s.par .en) .four v,
      .rd (regAddr s.par .en) .four x] }

@[simp] theorem afterUpdateEn_ch (e v x : Word) (s : State) : (afterUpdateEn e v x s).ch = s.ch := rfl
@[simp] theorem afterUpdateEn_freq (e v x : Word) (s : State) : (afterUpdateEn e v x s).freq = s.freq := rfl
@[simp] theorem afterUpdateEn_duty (e v x : Word) (s : State) : (afterUpdateEn e v x s).duty = s.duty := rfl
@[simp] theorem afterUpdateEn_clksel (e v x : Word) (s : State) : (afterUpdateEn e v x s).clksel = s.clksel := rfl
@[simp] theorem afterUpdateEn_div (e v x : Word) (s : State) : (afterUpdateEn e v x s).div = s.div := rfl
@[simp] theorem afterUpdateEn_dur (e v x : Word) (s : State) : (afterUpdateEn e v x s).dur = s.dur := rfl
@[simp] theorem afterUpdateEn_durh (e v x : Word) (s : State) : (afterUpdateEn e v x s).durh = s.durh := rfl
@[simp] theorem afterUpdateEn_durl (e v x : Word) (s : State) : (afterUpdateEn e v x s).durl = s.durl := rfl
@[simp] theorem afterUpdateEn_entmp (e v x : Word) (s : State) : (afterUpdateEn e v x s).entmp = e := rfl
@[simp] theorem afterUpdateEn_fstep (e v x : Word) (s : State) : (afterUpdateEn e v x s).fstep = s.fstep := rfl
@[simp] theorem afterUpdateEn_pc (e v x : Word) (s : State) : (afterUpdateEn e v x s).pc = s.pc := rfl
@[simp] theorem afterUpdateEn_done (e v x : Word) (s : State) : (afterUpdateEn e v x s).done = s.done := rfl
@[simp] theorem afterUpdateEn_mem (e v x : Word) (s : State) :
    (afterUpdateEn e v x s).mem = s.mem.putWord (regAddr s.par .en) v := rfl
@[simp] theorem afterUpdateEn_trace (e v x : Word) (s : State) : (afterUpdateEn e v x s).trace =
    s.trace ++ [.rd (regAddr s.par .en) .four e, .wr (regAddr s.par .en) .four v,
      .rd (regAddr s.par .en) .four x] := rfl
@[simp] theorem afterUpdateEn_cmds (e v x : Word) (s : State) : (afterUpdateEn e v x s).cmds = s.cmds := rfl
@[simp] theorem afterUpdateEn_answers (e v x : Word) (s : State) :
    (afterUpdateEn e v x s).answers = s.answers.tail.tail := rfl
@[simp] theorem afterUpdateEn_turns (e v x : Word) (s : State) : (afterUpdateEn e v x s).turns = s.turns := rfl
@[simp] theorem afterUpdateEn_par (e v x : Word) (s : State) : (afterUpdateEn e v x s).par = s.par := rfl

/-- The state after a served read of Global Enable into `ENTMP`. -/
def afterReadEn (e : Word) (s : State) : State := { afterRead (regAddr s.par .en) e s with entmp := e }

theorem afterWrite_afterReadEn (e v x : Word) (s : State) :
    afterWrite (regAddr s.par .en) v x (afterReadEn e s) = afterUpdateEn e v x s := by
  simp [afterWrite, afterReadEn, afterRead, afterUpdateEn]

section Update

variable {rd wr : BitVec 5} {update : Word → BitVec 2 → Word} {s : State} {k : State → Result} {e : Word}
  (he : wordGiven (s.reg .en) (nextAnswer s) = some e)
include he

/-- After the served read the write is refused. -/
theorem updateEnThen_write_refused {cause : Cause} (h : s.answers.tail.headD .stored = .refuse cause) :
    accessThen rd (readReq s.par .en) s (fun y t => putThen wr .en (update y t.ch) { t with entmp := y } k) =
      .next (afterRefusal wr (afterReadEn e s)) :=
  (accessThen_read_served he).trans (accessThen_write_refused (s := afterReadEn e s) h)

theorem updateEnThen_served {x : Word}
    (hx : wordGiven (update e s.ch) (s.answers.tail.headD .stored) = some x) :
    accessThen rd (readReq s.par .en) s (fun y t => putThen wr .en (update y t.ch) { t with entmp := y } k) =
      k (afterUpdateEn e (update e s.ch) x s) := by
  have hwrite : putThen wr .en (update e s.ch) (afterReadEn e s) k =
      k (afterWrite (regAddr s.par .en) (update e s.ch) x (afterReadEn e s)) :=
    accessThen_write_served (s := afterReadEn e s) hx
  rw [afterWrite_afterReadEn] at hwrite
  exact (accessThen_read_served he).trans hwrite

end Update

/-! ### A list of writes -/

/-- Register writes one after the other, each issued by its own step, then the rest `k` of the command. -/
def writeAll : List (BitVec 5 × Reg × Word) → (State → Result) → State → Result
  | [], k, s => k s
  | (code, r, v) :: steps, k, s => putThen code r v s (writeAll steps k)

/-- The state after a list of served writes whose read-backs gave `xs`. -/
def afterWrites (ws : List (Reg × Word)) (xs : List Word) (s : State) : State :=
  { s with
    answers := s.answers.drop ws.length, mem := s.mem.putRegs s.par ws,
    trace := s.trace ++ writeEvents s.par ws xs }

@[simp] theorem afterWrites_ch (ws : List (Reg × Word)) (xs : List Word) (s : State) :
    (afterWrites ws xs s).ch = s.ch := rfl
@[simp] theorem afterWrites_freq (ws : List (Reg × Word)) (xs : List Word) (s : State) :
    (afterWrites ws xs s).freq = s.freq := rfl
@[simp] theorem afterWrites_duty (ws : List (Reg × Word)) (xs : List Word) (s : State) :
    (afterWrites ws xs s).duty = s.duty := rfl
@[simp] theorem afterWrites_clksel (ws : List (Reg × Word)) (xs : List Word) (s : State) :
    (afterWrites ws xs s).clksel = s.clksel := rfl
@[simp] theorem afterWrites_div (ws : List (Reg × Word)) (xs : List Word) (s : State) :
    (afterWrites ws xs s).div = s.div := rfl
@[simp] theorem afterWrites_dur (ws : List (Reg × Word)) (xs : List Word) (s : State) :
    (afterWrites ws xs s).dur = s.dur := rfl
@[simp] theorem afterWrites_durh (ws : List (Reg × Word)) (xs : List Word) (s : State) :
    (afterWrites ws xs s).durh = s.durh := rfl
@[simp] theorem afterWrites_durl (ws : List (Reg × Word)) (xs : List Word) (s : State) :
    (afterWrites ws xs s).durl = s.durl := rfl
@[simp] theorem afterWrites_entmp (ws : List (Reg × Word)) (xs : List Word) (s : State) :
    (afterWrites ws xs s).entmp = s.entmp := rfl
@[simp] theorem afterWrites_fstep (ws : List (Reg × Word)) (xs : List Word) (s : State) :
    (afterWrites ws xs s).fstep = s.fstep := rfl
@[simp] theorem afterWrites_pc (ws : List (Reg × Word)) (xs : List Word) (s : State) :
    (afterWrites ws xs s).pc = s.pc := rfl
@[simp] theorem afterWrites_done (ws : List (Reg × Word)) (xs : List Word) (s : State) :
    (afterWrites ws xs s).done = s.done := rfl
@[simp] theorem afterWrites_mem (ws : List (Reg × Word)) (xs : List Word) (s : State) :
    (afterWrites ws xs s).mem = s.mem.putRegs s.par ws := rfl
@[simp] theorem afterWrites_trace (ws : List (Reg × Word)) (xs : List Word) (s : State) :
    (afterWrites ws xs s).trace = s.trace ++ writeEvents s.par ws xs := rfl
@[simp] theorem afterWrites_cmds (ws : List (Reg × Word)) (xs : List Word) (s : State) :
    (afterWrites ws xs s).cmds = s.cmds := rfl
@[simp] theorem afterWrites_answers (ws : List (Reg × Word)) (xs : List Word) (s : State) :
    (afterWrites ws xs s).answers = s.answers.drop ws.length := rfl
@[simp] theorem afterWrites_turns (ws : List (Reg × Word)) (xs : List Word) (s : State) :
    (afterWrites ws xs s).turns = s.turns := rfl
@[simp] theorem afterWrites_par (ws : List (Reg × Word)) (xs : List Word) (s : State) :
    (afterWrites ws xs s).par = s.par := rfl

theorem afterWrites_cons (r : Reg) (v : Word) (ws : List (Reg × Word)) (x : Word) (xs : List Word) (s : State) :
    afterWrites ws xs (afterWrite (regAddr s.par r) v x s) = afterWrites ((r, v) :: ws) (x :: xs) s := by
  simp [afterWrites, afterWrite, writeEvents, Memory.putRegs]

theorem readBacks_cons_eq_some {r : Reg} {v : Word} {ws : List (Reg × Word)} {as : List Answer} {xs : List Word}
    (h : readBacks ((r, v) :: ws) as = some xs) :
    ∃ y ys, xs = y :: ys ∧ wordGiven v (as.headD .stored) = some y ∧ readBacks ws as.tail = some ys := by
  rw [readBacks] at h
  split at h
  · next y hy =>
    obtain ⟨ys, hys, rfl⟩ := Option.map_eq_some_iff.mp h
    exact ⟨y, ys, rfl, hy, hys⟩
  · cases h

theorem readBacks_length {ws : List (Reg × Word)} {as : List Answer} {xs : List Word}
    (h : readBacks ws as = some xs) : xs.length = ws.length := by
  induction ws generalizing as xs with
  | nil =>
    cases h
    rfl
  | cons w ws ih =>
    obtain ⟨y, ys, rfl, -, hys⟩ := readBacks_cons_eq_some h
    simpa using ih hys

/-- Served writes are done in order. -/
theorem writeAll_served {steps : List (BitVec 5 × Reg × Word)} {k : State → Result} {s : State} {xs : List Word}
    (h : readBacks (steps.map Prod.snd) s.answers = some xs) :
    writeAll steps k s = k (afterWrites (steps.map Prod.snd) xs s) := by
  induction steps generalizing s xs with
  | nil =>
    cases h
    simp [writeAll, afterWrites, writeEvents, Memory.putRegs]
  | cons step steps ih =>
    obtain ⟨code, r, v⟩ := step
    obtain ⟨y, ys, rfl, hy, hys⟩ := readBacks_cons_eq_some h
    calc writeAll ((code, r, v) :: steps) k s
        = writeAll steps k (afterWrite (regAddr s.par r) v y s) :=
          accessThen_write_served (k := fun _ => writeAll steps k) hy
      _ = k (afterWrites (steps.map Prod.snd) ys (afterWrite (regAddr s.par r) v y s)) := ih hys
      _ = k (afterWrites (((code, r, v) :: steps).map Prod.snd) (y :: ys) s) :=
          congrArg k (afterWrites_cons r v _ y ys s)

/-- A write that goes on as a list of writes does is a list of writes: what follows it matters at the states that the
write can leave only. -/
theorem putThen_eq_writeAll {code : BitVec 5} {r r' : Reg} {v v' : Word} {s : State}
    {steps : List (BitVec 5 × Reg × Word)} {k k' : State → Result} (hr : r = r') (hv : v = v')
    (h : ∀ x, k (afterWrite (regAddr s.par r) v x s) = writeAll steps k' (afterWrite (regAddr s.par r) v x s)) :
    putThen code r v s k = writeAll ((code, r', v') :: steps) k' s := by
  subst hr hv
  rw [writeAll, putThen_eq, putThen_eq]
  cases ha : nextAnswer s with
  | stored => rw [accessThen_write_served (x := v) (by rw [ha]; rfl), accessThen_write_served (by rw [ha]; rfl), h]
  | word x => rw [accessThen_write_served (x := x) (by rw [ha]; rfl), accessThen_write_served (by rw [ha]; rfl), h]
  | refuse c => rw [accessThen_write_refused ha, accessThen_write_refused ha]
  | silent => rw [accessThen_write_silent ha, accessThen_write_silent ha]

/-! ### The configuration writes -/

/-- Step 7 as a list of writes, with their STEP codes. -/
def overrideSteps (p : Config.Params) (c : BitVec 2) (d : BitVec 7) : List (BitVec 5 × Reg × Word) :=
  if overrides d then [(sWrSd0Ovr, .chan .sd0 c, overrideWord p d), (sWrSd1Ovr, .chan .sd1 c, overrideWord p d)]
  else []

/-- Steps 6 and 7 as a list of writes, with their STEP codes. -/
def setSteps (p : Config.Params) (c : BitVec 2) (f : Word) (d : BitVec 7) : List (BitVec 5 × Reg × Word) :=
  [(sWrCon, .chan .con c, controlWord p (timing p f).mode (timing p f).div),
    (sWrHdur, .chan .hdur c, splitHigh (timing p f).dur d), (sWrLdur, .chan .ldur c, splitLow (timing p f).dur d),
    (sWrGdur, .chan .gdur c, p.guardValue), (sWrSd0, .chan .sd0 c, p.sendPattern),
    (sWrSd1, .chan .sd1 c, p.sendPattern), (sWrWavenum, .chan .wavenum c, p.wavenumValue)]
  ++ overrideSteps p c d

theorem overrideThen_eq_writeAll {p : Config.Params} {c : BitVec 2} {d : BitVec 7} {s : State} (hpar : s.par = p)
    (hch : s.ch = c) (hduty : s.duty = d) (k : State → Result) :
    overrideThen s k = writeAll (overrideSteps p c d) k s := by
  subst hpar hch hduty
  unfold overrideThen overrideSteps
  split
  · exact putThen_eq_writeAll rfl rfl fun _ => rfl
  · rfl

/-- No access between the calculator and the enabling changes what the next ones write. -/
theorem configureThen_eq_writeAll (s : State) (k : State → Result) :
    configureThen (compute s) (fun v => overrideThen v k) =
      writeAll (setSteps s.par s.ch s.freq s.duty) k (compute s) := by
  simp only [configureThen, setSteps, List.cons_append, List.nil_append]
  iterate 7 refine putThen_eq_writeAll (by simp) (by simp) fun _ => ?_
  exact overrideThen_eq_writeAll (by simp) (by simp) (by simp) k

theorem overrides_iff (d : BitVec 7) : overrides d = true ↔ d = 0#7 ∨ d = 100#7 := by
  simp [overrides]

/-- The steps of the writes, as R112 numbers them. -/
theorem setSteps_codes (p : Config.Params) (c : BitVec 2) (f : Word) (d : BitVec 7) :
    (setSteps p c f d).map Prod.fst =
      [8#5, 9#5, 10#5, 11#5, 12#5, 13#5, 14#5] ++ (if d = 0#7 ∨ d = 100#7 then [16#5, 17#5] else []) := by
  simp only [setSteps, overrideSteps, overrides_iff]
  split <;> rfl

/-- The writes, with the words of R112. -/
theorem setSteps_writes {p : Config.Params} (hp : p.AsPrinted) (c : BitVec 2) (f : Word) (d : BitVec 7) :
    (setSteps p c f d).map Prod.snd = setWrites p c f d := by
  simp only [setSteps, overrideSteps, overrides_iff, overrideWord, setWrites, configWrites, hp.guardValue,
    hp.wavenumValue, hp.sendAllZero, hp.sendAllOne]
  by_cases h0 : d = 0#7
  · simp [h0]
  · by_cases h100 : d = 100#7
    · simp [h100]
    · simp [h0, h100]

theorem setWrites_length (p : Config.Params) (c : BitVec 2) (f : Word) (d : BitVec 7) :
    (setWrites p c f d).length = if d = 0#7 ∨ d = 100#7 then 9 else 7 := by
  unfold setWrites configWrites
  by_cases h0 : d = 0#7
  · simp [h0]
  · by_cases h100 : d = 100#7
    · simp [h100]
    · simp [h0, h100]

/-- Every configuration write is to a register of the command's own channel. -/
theorem setWrites_own_channel {p : Config.Params} {c : BitVec 2} {f : Word} {d : BitVec 7} {w : Reg × Word}
    (h : w ∈ setWrites p c f d) : ∃ k, w.1 = .chan k c := by
  have hown : ∀ w ∈ setWrites p c f d, ∃ k, w.1 = .chan k c := by
    unfold setWrites configWrites
    split
    · simp
    · split <;> simp
  exact hown w h

/-! ### The commands from idle -/

section Idle

variable {c : BitVec 2} {d : BitVec 7} {s : State} (hpc : s.pc = sIdle)
include hpc

theorem exec_pwmOff_idle :
    exec (.pwmOff c d) s = disableThen (latch c 0#32 d s) fun u => .next (finished u) := by
  rw [exec_pwmOff, program_latched hpc ((reservedOperands_eq_false_iff _ _).mpr fun h0 => absurd rfl h0)]
  rfl

theorem exec_pwmSet_idle {f : Word} (hf : f ≠ 0#32) (hd : d.toNat ≤ 100) :
    exec (.pwmSet c f d) s = disableThen (latch c f d s) fun u =>
      writeAll (setSteps u.par u.ch u.freq u.duty) (fun w => enableThen w fun z => .next (finished z)) (compute u) := by
  rw [exec_pwmSet, program_latched hpc ((reservedOperands_eq_false_iff _ _).mpr fun _ => hd)]
  simp only [hf, if_false, configureThen_eq_writeAll]

end Idle

/-! ### Served commands, exactly -/

/-- The state that a served `PWM.OFF` leaves: its read gave `e`, its read-back `x` (R111). -/
def offOutcome (c : BitVec 2) (d : BitVec 7) (e x : Word) (s : State) : State :=
  finished (afterUpdateEn e (clearEnable e c) x (latch c 0#32 d s))

/-- The state in which a served `PWM.SET` comes to its enabling: the first read of Global Enable gave `e₁`, and the
read-backs so far `x₁` and `xs` (R112). -/
def configured (c : BitVec 2) (f : Word) (d : BitVec 7) (e₁ x₁ : Word) (xs : List Word) (s : State) : State :=
  afterWrites (setWrites s.par c f d) xs (compute (afterUpdateEn e₁ (clearEnable e₁ c) x₁ (latch c f d s)))

/-- The state that a served `PWM.SET` leaves: the second read gave `e₂`, and the last read-back `x₂` (R112). -/
def setOutcome (c : BitVec 2) (f : Word) (d : BitVec 7) (e₁ x₁ : Word) (xs : List Word) (e₂ x₂ : Word) (s : State) :
    State :=
  finished (afterUpdateEn e₂ (setEnable e₂ c) x₂ (configured c f d e₁ x₁ xs s))

theorem pwmOff_outcome {c : BitVec 2} {d : BitVec 7} {s : State} (hpc : s.pc = sIdle) {e x : Word}
    (he : wordGiven (s.reg .en) (nextAnswer s) = some e)
    (hx : wordGiven (clearEnable e c) (s.answers.tail.headD .stored) = some x) :
    exec (.pwmOff c d) s = .next (offOutcome c d e x s) := by
  rw [exec_pwmOff_idle hpc]
  exact updateEnThen_served (s := latch c 0#32 d s) (update := clearEnable) he hx

section Printed

variable {p : Config.Params} (hp : p.AsPrinted)
include hp

/-- What one register holds after a write to a register. -/
theorem word_putWord_reg (m : Memory) (q r : Reg) (v : Word) :
    (m.putWord (regAddr p q) v).word (regAddr p r) = if r = q then v else m.word (regAddr p r) := by
  split
  · next h => rw [h, Memory.word_putWord_same]
  · next h => exact Memory.word_putWord_apart _ _ _ (regAddr_apart hp h)

/-- A list of writes leaves every register that it does not name alone. -/
theorem word_putRegs_other {ws : List (Reg × Word)} {r : Reg} (h : ∀ w ∈ ws, r ≠ w.1) (m : Memory) :
    (m.putRegs p ws).word (regAddr p r) = m.word (regAddr p r) := by
  induction ws generalizing m with
  | nil => rfl
  | cons w ws ih =>
    obtain ⟨hw, hws⟩ := List.forall_mem_cons.mp h
    rw [Memory.putRegs, ih hws, word_putWord_reg hp, if_neg hw]

/-- The configuration writes leave Global Enable and the other channels alone. -/
theorem word_setWrites_other {c : BitVec 2} {r : Reg} (h : ∀ k, r ≠ .chan k c) (f : Word) (d : BitVec 7)
    (m : Memory) : (m.putRegs p (setWrites p c f d)).word (regAddr p r) = m.word (regAddr p r) := by
  refine word_putRegs_other hp (fun w hw => ?_) m
  obtain ⟨k, hk⟩ := setWrites_own_channel hw
  exact hk ▸ h k

end Printed

section Configured

variable {c : BitVec 2} {f : Word} {d : BitVec 7} {e₁ x₁ : Word} {xs : List Word} {s : State}

theorem configured_ch : (configured c f d e₁ x₁ xs s).ch = c := rfl

theorem configured_answers : (configured c f d e₁ x₁ xs s).answers =
    s.answers.tail.tail.drop (setWrites s.par c f d).length := rfl

/-- The second read of Global Enable is of what the first write left. -/
theorem configured_reg_en (hp : s.par.AsPrinted) : (configured c f d e₁ x₁ xs s).reg .en = clearEnable e₁ c := by
  simp [configured, State.reg, word_setWrites_other hp]

end Configured

theorem pwmSet_outcome {c : BitVec 2} {f : Word} {d : BitVec 7} {s : State} (hp : s.par.AsPrinted)
    (hpc : s.pc = sIdle) (hf : f ≠ 0#32) (hd : d.toNat ≤ 100) {e₁ x₁ e₂ x₂ : Word} {xs : List Word} {as : List Answer}
    (he₁ : wordGiven (s.reg .en) (nextAnswer s) = some e₁)
    (hx₁ : wordGiven (clearEnable e₁ c) (s.answers.tail.headD .stored) = some x₁)
    (hxs : readBacks (setWrites s.par c f d) s.answers.tail.tail = some xs)
    (has : as = s.answers.tail.tail.drop (setWrites s.par c f d).length)
    (he₂ : wordGiven (clearEnable e₁ c) (as.headD .stored) = some e₂)
    (hx₂ : wordGiven (setEnable e₂ c) (as.tail.headD .stored) = some x₂) :
    exec (.pwmSet c f d) s = .next (setOutcome c f d e₁ x₁ xs e₂ x₂ s) := by
  have hwrites := setSteps_writes hp c f d
  have henable : enableThen (configured c f d e₁ x₁ xs s) (fun z => .next (finished z)) =
      .next (setOutcome c f d e₁ x₁ xs e₂ x₂ s) := by
    refine updateEnThen_served (update := setEnable) ?_ ?_
    · rw [configured_reg_en hp, nextAnswer, configured_answers, ← has, he₂]
    · rw [configured_ch, configured_answers, ← has, hx₂]
  rw [exec_pwmSet_idle hpc hf hd, ← henable]
  refine (updateEnThen_served (s := latch c f d s) (update := clearEnable) he₁ hx₁).trans ?_
  rw [← hwrites] at hxs
  refine (writeAll_served (steps := setSteps s.par c f d) hxs).trans ?_
  rw [hwrites]
  rfl

/-! ### The first refused access -/

/-- Where the `n`-th access of a run from `s` is the first not served, and is refused, `x` is the fault state with the
`n`-th of `codes` in `FSTEP`. -/
def FaultsAt (codes : List (BitVec 5)) (s : State) (x : Result) : Prop :=
  ∀ (n : Nat) (code : BitVec 5) (cause : Cause), codes[n]? = some code →
    (∀ m < n, (wordGiven 0#32 (s.answers.getD m .stored)).isSome = true) →
    s.answers.getD n .stored = .refuse cause →
    ∃ t, x = .next t ∧ t.pc = 31#5 ∧ t.fstep = code ∧ t.done = s.done

theorem faultsAt_nil (s : State) (x : Result) : FaultsAt [] s x := nofun

theorem nextAnswer_eq_getD (s : State) : nextAnswer s = s.answers.getD 0 .stored := by
  unfold nextAnswer
  cases s.answers <;> rfl

theorem getD_tail (as : List Answer) (n : Nat) : as.tail.getD n .stored = as.getD (n + 1) .stored := by
  cases as <;> rfl

theorem afterAccess_done (q : Request) (x : Word) (s : State) : (afterAccess q x s).done = s.done := by
  unfold afterAccess
  split <;> rfl

theorem afterAccess_duty (q : Request) (x : Word) (s : State) : (afterAccess q x s).duty = s.duty := by
  unfold afterAccess
  split <;> rfl

theorem faultsAt_accessThen {q : Request} {s : State} (hq : IsRegisterRequest s.par q) {code : BitVec 5}
    {codes : List (BitVec 5)} {k : Word → State → Result}
    (hk : ∀ x, FaultsAt codes (afterAccess q x s) (k x (afterAccess q x s))) :
    FaultsAt (code :: codes) s (accessThen code q s k) := by
  intro n code' cause hcode hserved hrefuse
  cases n with
  | zero =>
    obtain rfl : code = code' := Option.some.inj hcode
    exact ⟨_, accessThen_refused hq ((nextAnswer_eq_getD s).trans hrefuse), rfl, rfl, rfl⟩
  | succ n =>
    have hfirst := hserved 0 n.succ_pos
    rw [← nextAnswer_eq_getD, wordGiven_isSome _ (storedFor q s)] at hfirst
    obtain ⟨x, hx⟩ := Option.isSome_iff_exists.mp hfirst
    rw [accessThen_served hq hx, ← afterAccess_done q x s]
    refine hk x n code' cause hcode (fun m hm => ?_) ?_
    · rw [afterAccess_answers, getD_tail]
      exact hserved (m + 1) (Nat.succ_lt_succ hm)
    · rw [afterAccess_answers, getD_tail]
      exact hrefuse

theorem faultsAt_putThen {r : Reg} {v : Word} {s : State} {code : BitVec 5} {codes : List (BitVec 5)}
    {k : State → Result} (hk : ∀ u, u.duty = s.duty → FaultsAt codes u (k u)) :
    FaultsAt (code :: codes) s (putThen code r v s k) :=
  faultsAt_accessThen ⟨r, .inr ⟨v, rfl⟩⟩ fun x => hk _ (afterAccess_duty _ x s)

theorem faultsAt_writeAll {steps : List (BitVec 5 × Reg × Word)} {codes : List (BitVec 5)} {k : State → Result}
    (hk : ∀ u, FaultsAt codes u (k u)) (s : State) :
    FaultsAt (steps.map Prod.fst ++ codes) s (writeAll steps k s) := by
  induction steps generalizing s with
  | nil => exact hk s
  | cons step steps ih => exact faultsAt_putThen fun u _ => ih u

/-- The read and the write of Global Enable: steps 1 and 8 of a command. -/
theorem faultsAt_updateEnThen {rd wr : BitVec 5} {v : Word → State → Word} {s : State} {codes : List (BitVec 5)}
    {k : State → Result} (hk : ∀ u, u.duty = s.duty → FaultsAt codes u (k u)) :
    FaultsAt (rd :: wr :: codes) s
      (accessThen rd (readReq s.par .en) s fun x t => putThen wr .en (v x t) { t with entmp := x } k) :=
  faultsAt_accessThen ⟨.en, .inl rfl⟩ fun x =>
    faultsAt_putThen (s := { afterAccess (readReq s.par .en) x s with entmp := x }) fun u hu => hk u hu

/-- The 11 or 13 accesses of a `PWM.SET`, by their steps. -/
theorem faultsAt_pwmSet {c : BitVec 2} {f : Word} {d : BitVec 7} {s : State} (hpc : s.pc = sIdle) (hf : f ≠ 0#32)
    (hd : d.toNat ≤ 100) :
    FaultsAt ([1#5, 2#5, 8#5, 9#5, 10#5, 11#5, 12#5, 13#5, 14#5] ++
      (if d = 0#7 ∨ d = 100#7 then [16#5, 17#5] else []) ++ [18#5, 19#5]) (latch c f d s)
      (exec (.pwmSet c f d) s) := by
  rw [exec_pwmSet_idle hpc hf hd]
  refine faultsAt_updateEnThen (s := latch c f d s) fun u hu => ?_
  obtain rfl : u.duty = d := hu
  have hwrites := faultsAt_writeAll (steps := setSteps u.par u.ch u.freq u.duty) (codes := [18#5, 19#5])
    (k := fun w => enableThen w fun z => .next (finished z))
    (fun w => faultsAt_updateEnThen fun z _ => faultsAt_nil z _) (compute u)
  rw [setSteps_codes] at hwrites
  exact hwrites

/-! ### The obligations about one command -/

/-- Settles O32: the run of the two accesses, and the exception from either. -/
theorem pwmOffClearsTheEnableBit : Obligations.PwmOffClearsTheEnableBit := by
  intro c d s hp hpc
  rw [← regAddr_en hp]
  refine ⟨fun cause h => ?_, fun e off hoff he => ⟨fun cause h => ?_, fun x hx => ?_⟩⟩
  · rw [exec_pwmOff_idle hpc]
    exact accessThen_read_refused (s := latch c 0#32 d s) h
  · rw [exec_pwmOff_idle hpc]
    exact updateEnThen_write_refused (s := latch c 0#32 d s) (update := clearEnable) he h
  · subst hoff
    exact pwmOff_outcome hpc he hx

theorem drop_two (as : List Answer) : as.drop 2 = as.tail.tail := by
  rw [← List.drop_one, ← List.drop_one, List.drop_drop]

/-- Settles O33: the served run, and the first refused access by its place in the list of steps. -/
theorem pwmSetConfiguresAndEnables : Obligations.PwmSetConfiguresAndEnables := by
  intro c f d s hp hpc hf hd
  rw [← regAddr_en hp]
  refine ⟨faultsAt_pwmSet hpc hf hd, ?_⟩
  rintro e₁ _ x₁ e₂ _ x₂ xs _ as rfl rfl rfl he₁ hx₁ hxs has he₂ hx₂
  rw [drop_two] at hxs ⊢
  rw [← List.drop_drop, drop_two] at has
  subst has
  rw [pwmSet_outcome hp hpc hf hd he₁ hx₁ hxs rfl he₂ hx₂]
  simp [setOutcome, configured, finished, setDone, afterUpdateEn, afterWrites, compute, latch, clearDone, clearEnable,
    setEnable, enMask]

end Sys2Proof.Machine
end

section
/-! PROOFS. What a served command leaves at the Target (spec/40_command.md R117, R118, R120, R121): the registers and
the events of the outcomes. -/

namespace Sys2Proof.Machine

open Sys2Proof.Safety

/-! ### Served answers -/

/-- An answer that serves gives some word, whatever storage holds. -/
theorem allServe_given {as : List Answer} (h : AllServe as) (v : Word) :
    ∃ x, wordGiven v (as.headD .stored) = some x := by
  rw [← Option.isSome_iff_exists, wordGiven_isSome v 0#32]
  cases as with
  | nil => rfl
  | cons a as => exact h a List.mem_cons_self

theorem allServe_of_nil {as : List Answer} (h : as = []) : AllServe as := by simp [h, AllServe]

theorem allServe_tail {as : List Answer} (h : AllServe as) : AllServe as.tail :=
  fun a ha => h a (List.mem_of_mem_tail ha)

theorem allServe_drop {as : List Answer} (h : AllServe as) (n : Nat) : AllServe (as.drop n) :=
  fun a ha => h a (List.mem_of_mem_drop ha)

theorem allServe_readBacks (ws : List (Reg × Word)) {as : List Answer} (h : AllServe as) :
    ∃ xs, readBacks ws as = some xs := by
  induction ws generalizing as with
  | nil => exact ⟨[], rfl⟩
  | cons w ws ih =>
    obtain ⟨x, hx⟩ := allServe_given h w.2
    obtain ⟨xs, hxs⟩ := ih (allServe_tail h)
    exact ⟨x :: xs, by rw [readBacks, hx, hxs]; rfl⟩

/-- A `PWM.OFF` that no answer stops comes to its end; at the storage Target its read gives what the register holds. -/
theorem pwmOff_ends {c : BitVec 2} {d : BitVec 7} {s : State} (hpc : s.pc = sIdle) (h : AllServe s.answers) :
    ∃ e x, exec (.pwmOff c d) s = .next (offOutcome c d e x s) ∧ (s.answers = [] → e = s.reg .en) := by
  obtain ⟨e, he⟩ := allServe_given h (s.reg .en)
  obtain ⟨x, hx⟩ := allServe_given (allServe_tail h) (clearEnable e c)
  refine ⟨e, x, pwmOff_outcome hpc he hx, fun hnil => ?_⟩
  rw [hnil] at he
  exact (Option.some.inj he).symm

/-- A `PWM.SET` that no answer stops comes to its end; at the storage Target its reads give what the register holds. -/
theorem pwmSet_ends {c : BitVec 2} {f : Word} {d : BitVec 7} {s : State} (hp : s.par.AsPrinted) (hpc : s.pc = sIdle)
    (hf : f ≠ 0#32) (hd : d.toNat ≤ 100) (h : AllServe s.answers) :
    ∃ e₁ x₁ xs e₂ x₂, exec (.pwmSet c f d) s = .next (setOutcome c f d e₁ x₁ xs e₂ x₂ s) ∧
      xs.length = (setWrites s.par c f d).length ∧ (s.answers = [] → e₁ = s.reg .en ∧ e₂ = clearEnable e₁ c) := by
  have htail := allServe_tail (allServe_tail h)
  have hlast := allServe_drop htail (setWrites s.par c f d).length
  obtain ⟨e₁, he₁⟩ := allServe_given h (s.reg .en)
  obtain ⟨x₁, hx₁⟩ := allServe_given (allServe_tail h) (clearEnable e₁ c)
  obtain ⟨xs, hxs⟩ := allServe_readBacks (setWrites s.par c f d) htail
  obtain ⟨e₂, he₂⟩ := allServe_given hlast (clearEnable e₁ c)
  obtain ⟨x₂, hx₂⟩ := allServe_given (allServe_tail hlast) (setEnable e₂ c)
  refine ⟨e₁, x₁, xs, e₂, x₂, pwmSet_outcome hp hpc hf hd he₁ hx₁ hxs rfl he₂ hx₂, readBacks_length hxs, ?_⟩
  intro hnil
  rw [hnil] at he₁ he₂
  rw [List.tail_nil, List.tail_nil, List.drop_nil] at he₂
  exact ⟨(Option.some.inj he₁).symm, (Option.some.inj he₂).symm⟩

/-! ### Registers -/

/-- What a served `PWM.SET` leaves in a register of its channel. -/
def configuredWord (p : Config.Params) (f : Word) (d : BitVec 7) : ChanReg → Word
  | .con => controlWord p (timing p f).mode (timing p f).div
  | .hdur => splitHigh (timing p f).dur d
  | .ldur => splitLow (timing p f).dur d
  | .gdur | .wavenum => 0#32
  | .sd0 | .sd1 => if d = 0#7 then 0x00000000#32 else if d = 100#7 then 0xFFFFFFFF#32 else p.sendPattern

theorem word_setWrites_own {p : Config.Params} (hp : p.AsPrinted) (c : BitVec 2) (f : Word) (d : BitVec 7)
    (m : Memory) (k : ChanReg) :
    (m.putRegs p (setWrites p c f d)).word (regAddr p (.chan k c)) = configuredWord p f d k := by
  unfold setWrites configWrites configuredWord
  by_cases h0 : d = 0#7
  · cases k <;> simp [h0, Memory.putRegs, word_putWord_reg hp]
  · by_cases h100 : d = 100#7
    · cases k <;> simp [h100, Memory.putRegs, word_putWord_reg hp]
    · cases k <;> simp [h0, h100, Memory.putRegs, word_putWord_reg hp]

section OffOutcome

variable {c : BitVec 2} {d : BitVec 7} {e x : Word} {s : State}

theorem offOutcome_par : (offOutcome c d e x s).par = s.par := rfl

theorem offOutcome_reg_en : (offOutcome c d e x s).reg .en = clearEnable e c :=
  Memory.word_putWord_same _ _ _

theorem offOutcome_reg_other (hp : s.par.AsPrinted) {r : Reg} (h : r ≠ .en) :
    (offOutcome c d e x s).reg r = s.reg r :=
  Memory.word_putWord_apart _ _ _ (regAddr_apart hp h)

end OffOutcome

section SetOutcome

variable {c : BitVec 2} {f : Word} {d : BitVec 7} {e₁ x₁ : Word} {xs : List Word} {e₂ x₂ : Word} {s : State}

theorem setOutcome_par : (setOutcome c f d e₁ x₁ xs e₂ x₂ s).par = s.par := rfl

theorem setOutcome_trace : (setOutcome c f d e₁ x₁ xs e₂ x₂ s).trace = s.trace
    ++ [.rd (regAddr s.par .en) .four e₁, .wr (regAddr s.par .en) .four (clearEnable e₁ c),
      .rd (regAddr s.par .en) .four x₁]
    ++ writeEvents s.par (setWrites s.par c f d) xs
    ++ [.rd (regAddr s.par .en) .four e₂, .wr (regAddr s.par .en) .four (setEnable e₂ c),
      .rd (regAddr s.par .en) .four x₂] := rfl

theorem setOutcome_reg_en : (setOutcome c f d e₁ x₁ xs e₂ x₂ s).reg .en = setEnable e₂ c :=
  Memory.word_putWord_same _ _ _

theorem setOutcome_reg_own (hp : s.par.AsPrinted) (k : ChanReg) :
    (setOutcome c f d e₁ x₁ xs e₂ x₂ s).reg (.chan k c) = configuredWord s.par f d k := by
  simp [State.reg, setOutcome, configured, word_putWord_reg hp, word_setWrites_own hp]

theorem setOutcome_reg_other (hp : s.par.AsPrinted) (k : ChanReg) {a : BitVec 2} (h : a ≠ c) :
    (setOutcome c f d e₁ x₁ xs e₂ x₂ s).reg (.chan k a) = s.reg (.chan k a) := by
  simp [State.reg, setOutcome, configured, word_putWord_reg hp, word_setWrites_other hp, h]

end SetOutcome

/-! ### Enable bits -/

/-- `EN_CLR` leaves the other 31 bits as read (R117). -/
theorem clearEnable_other_bits (e : Word) (c : BitVec 2) {n : Nat} (h : n ≠ c.toNat) :
    (clearEnable e c).getLsbD n = e.getLsbD n := by
  have hbit : (enMask c).getLsbD n = false := by
    simp [enMask]
    omega
  rw [clearEnable, BitVec.getLsbD_and, BitVec.getLsbD_not, hbit]
  by_cases hn : n < 32
  · simp only [hn, decide_true, Bool.not_false, Bool.and_true]
  · rw [BitVec.getLsbD_of_ge _ _ (not_lt.mp hn), Bool.false_and]

theorem clearEnable_idem (e : Word) (c : BitVec 2) : clearEnable (clearEnable e c) c = clearEnable e c := by
  rw [clearEnable, clearEnable, BitVec.and_assoc, BitVec.and_self]

/-- Once set, the bit stays set through a second clearing and setting. -/
theorem setEnable_repeated (e : Word) (c : BitVec 2) :
    setEnable (clearEnable (setEnable e c) c) c = setEnable e c := by
  ext i hi
  simp only [setEnable, clearEnable, BitVec.getElem_or, BitVec.getElem_and, BitVec.getElem_not]
  cases e[i] <;> cases (enMask c)[i] <;> rfl

/-! ### Events -/

theorem writesOf_append (as bs : List Event) : writesOf (as ++ bs) = writesOf as ++ writesOf bs := by
  induction as with
  | nil => rfl
  | cons a as ih => cases a <;> simp [writesOf, ih]

theorem writesOf_writeEvents (p : Config.Params) {ws : List (Reg × Word)} {xs : List Word}
    (h : xs.length = ws.length) : writesOf (writeEvents p ws xs) = ws.map fun w => (regAddr p w.1, w.2) := by
  induction ws generalizing xs with
  | nil => rfl
  | cons w ws ih =>
    cases xs with
    | nil => cases h
    | cons x xs => simp [writeEvents, writesOf, ih (Nat.succ.inj h)]

/-- Every event of a list of writes is at a register that it names. -/
theorem writeEvents_at_register {p : Config.Params} {ws : List (Reg × Word)} {xs : List Word} {v : Event}
    (h : v ∈ writeEvents p ws xs) :
    ∃ w ∈ ws, ∃ x, v = .wr (regAddr p w.1) .four x ∨ v = .rd (regAddr p w.1) .four x := by
  induction ws generalizing xs with
  | nil => cases h
  | cons w ws ih =>
    cases xs with
    | nil => cases h
    | cons x xs =>
      rw [writeEvents, List.mem_cons, List.mem_cons] at h
      rcases h with rfl | rfl | h
      · exact ⟨w, List.mem_cons_self, w.2, .inl rfl⟩
      · exact ⟨w, List.mem_cons_self, x, .inr rfl⟩
      · obtain ⟨w', hw', hv⟩ := ih h
        exact ⟨w', List.mem_cons_of_mem _ hw', hv⟩

/-! ### The obligations -/

/-- Settles O38: the three events and the registers of a served `PWM.OFF`. -/
theorem offWritesOnlyTheEnableClear : Obligations.OffWritesOnlyTheEnableClear := by
  intro c d s hp hpc h
  obtain ⟨e, x, hrun, -⟩ := pwmOff_ends (c := c) (d := d) hpc h
  rw [← regAddr_en hp]
  exact ⟨_, _, e, clearEnable e c, hrun, rfl, rfl, rfl, clearEnable_bit e c, fun _ => clearEnable_other_bits e c,
    offOutcome_reg_en, fun _ => offOutcome_reg_other hp⟩

/-- Settles O39: the trace of a served `PWM.SET`, whose middle is its configuration writes. -/
theorem disableFirstEnableLast : Obligations.DisableFirstEnableLast := by
  intro c f d s hp hpc hf hd h
  obtain ⟨e₁, x₁, xs, e₂, x₂, hrun, hlength, -⟩ := pwmSet_ends (c := c) hp hpc hf hd h
  rw [← regAddr_en hp]
  refine ⟨_, e₁, clearEnable e₁ c, x₁, e₂, setEnable e₂ c, x₂, _, hrun, setOutcome_trace, rfl, clearEnable_bit e₁ c,
    rfl, setEnable_bit e₂ c, rfl, ?_, fun v hv => ?_⟩
  · rw [writesOf_writeEvents _ hlength, List.length_map, setWrites_length]
  · obtain ⟨w, hw, x, hx⟩ := writeEvents_at_register hv
    obtain ⟨k, hk⟩ := setWrites_own_channel hw
    rw [hk] at hx
    exact ⟨k, x, fun he => Reg.noConfusion (regAddr_injective hp he), hx⟩

/-- A `PWM.OFF` given twice at the storage Target. -/
theorem pwmOff_twice (c : BitVec 2) (d : BitVec 7) {s : State} (hp : s.par.AsPrinted) (hpc : s.pc = sIdle)
    (h : s.answers = []) :
    ∃ t u : State, exec (.pwmOff c d) s = .next t ∧ exec (.pwmOff c d) t = .next u ∧ ∀ r, u.reg r = t.reg r := by
  obtain ⟨e, x, hfirst, -⟩ := pwmOff_ends (c := c) (d := d) hpc (allServe_of_nil h)
  have hanswers : (offOutcome c d e x s).answers = [] := by simp [offOutcome, h]
  have hprinted : (offOutcome c d e x s).par.AsPrinted := by rwa [offOutcome_par]
  obtain ⟨e', x', hsecond, he'⟩ := pwmOff_ends (c := c) (d := d) (s := offOutcome c d e x s) rfl
    (allServe_of_nil hanswers)
  refine ⟨_, _, hfirst, hsecond, fun r => ?_⟩
  by_cases hr : r = .en
  · rw [hr, offOutcome_reg_en, he' hanswers, offOutcome_reg_en, clearEnable_idem]
  · exact offOutcome_reg_other hprinted hr

/-- A `PWM.SET` given twice at the storage Target. -/
theorem pwmSet_twice (c : BitVec 2) {f : Word} {d : BitVec 7} (hf : f ≠ 0#32) (hd : d.toNat ≤ 100) {s : State}
    (hp : s.par.AsPrinted) (hpc : s.pc = sIdle) (h : s.answers = []) :
    ∃ t u : State, exec (.pwmSet c f d) s = .next t ∧ exec (.pwmSet c f d) t = .next u ∧
      ∀ r, u.reg r = t.reg r := by
  obtain ⟨e₁, x₁, xs, e₂, x₂, hfirst, -, -⟩ := pwmSet_ends (c := c) hp hpc hf hd (allServe_of_nil h)
  have hanswers : (setOutcome c f d e₁ x₁ xs e₂ x₂ s).answers = [] := by simp [setOutcome, configured, h]
  have hprinted : (setOutcome c f d e₁ x₁ xs e₂ x₂ s).par.AsPrinted := by rwa [setOutcome_par]
  obtain ⟨e₃, x₃, ys, e₄, x₄, hsecond, -, hreads⟩ := pwmSet_ends (c := c)
    (s := setOutcome c f d e₁ x₁ xs e₂ x₂ s) hprinted rfl hf hd (allServe_of_nil hanswers)
  obtain ⟨he₃, he₄⟩ := hreads hanswers
  refine ⟨_, _, hfirst, hsecond, fun r => ?_⟩
  cases r with
  | en => rw [setOutcome_reg_en, he₄, he₃, setOutcome_reg_en, setEnable_repeated]
  | chan k a =>
    by_cases ha : a = c
    · rw [ha, setOutcome_reg_own hprinted, setOutcome_reg_own hp, setOutcome_par]
    · exact setOutcome_reg_other hprinted k ha

/-- Settles O40: the second run of either command writes what the first has left. -/
theorem repeatedCommandIsIdempotent : Obligations.RepeatedCommandIsIdempotent := by
  intro w s hp hpc h hw
  unfold decodeCmd
  split
  · exact pwmOff_twice _ _ hp hpc h
  · next hf =>
    have hd : (cmdDuty w).toNat ≤ 100 := hw.resolve_left hf
    rw [if_pos (c := (cmdDuty w).toNat ≤ Config.maxDuty) hd]
    exact pwmSet_twice _ hf hd hp hpc h

/-- Settles O42: the registers of a served `PWM.SET`, the split at the extremes, and the writes in their order. -/
theorem sendDataEndsAtTheExtremes : Obligations.SendDataEndsAtTheExtremes := by
  intro c f d s hp hpc hf hd h
  obtain ⟨e₁, x₁, xs, e₂, x₂, hrun, hlength, -⟩ := pwmSet_ends (c := c) hp hpc hf hd h
  obtain ⟨-, hzero, hfull⟩ := splitDriftsAtMostOneTick (timing s.par f).dur d hd
  have htrace := setOutcome_trace (c := c) (f := f) (d := d) (e₁ := e₁) (x₁ := x₁) (xs := xs) (e₂ := e₂) (x₂ := x₂)
    (s := s)
  rw [List.append_assoc, List.append_assoc] at htrace
  rw [← regAddr_en hp]
  refine ⟨_, hrun, fun k hk => ?_, setOutcome_reg_own hp .hdur, setOutcome_reg_own hp .ldur, fun h0 => ?_,
    fun h100 => ?_, _, clearEnable e₁ c, setEnable e₂ c, htrace, ?_⟩
  · rw [setOutcome_reg_own hp]
    obtain rfl | rfl : k = .sd0 ∨ k = .sd1 := by simpa using hk
    · rfl
    · rfl
  · rw [setOutcome_reg_own hp, setOutcome_reg_own hp]
    exact hzero (by rw [h0]; rfl)
  · rw [setOutcome_reg_own hp, setOutcome_reg_own hp]
    exact hfull (by rw [h100]; rfl)
  · rw [writesOf_append, writesOf_append, writesOf_writeEvents _ hlength]
    rfl

end Sys2Proof.Machine
end

section
/-! PROOFS. The frames of the micro-operations (spec/41_disable.md R130 to R133, spec/42_calc.md R140 to R143,
spec/43_config.md, spec/44_enable.md): what each writes, read off the equation or the cases of its meaning. -/

namespace Sys2Proof.Machine

open Sys2Proof.Safety

/-! ### The micro-operations without an access -/

section RegisterOnly

variable {s t : State}

theorem accept_frame (h : exec .accept s = .next t) :
    t = { s with ch := t.ch, freq := t.freq, duty := t.duty, done := t.done, pc := t.pc, cmds := t.cmds } := by
  rcases exec_accept_cases s with ⟨-, he⟩ | ⟨w, rest, -, ⟨-, he⟩ | ⟨-, he⟩⟩ <;> cases he.symm.trans h <;> rfl

theorem freqTest_frame (h : exec .freqTest s = .next t) : t = { s with pc := t.pc } := by
  cases h
  rfl

theorem divInit_frame (h : exec .divInit s = .next t) :
    t = { s with clksel := t.clksel, div := t.div, dur := t.dur, pc := t.pc } := by
  cases h
  rfl

theorem divStep_frame (h : exec .divStep s = .next t) : t = { s with div := t.div, dur := t.dur, pc := t.pc } := by
  rcases exec_divStep_cases s with ⟨-, -, he⟩ | ⟨-, he⟩ <;> cases he.symm.trans h <;> rfl

theorem fallback_frame (h : exec .fallback s = .next t) :
    t = { s with clksel := t.clksel, div := t.div, dur := t.dur, pc := t.pc } := by
  rcases exec_fallback_cases s with ⟨-, he⟩ | ⟨-, he⟩ <;> cases he.symm.trans h <;> rfl

theorem split_frame (h : exec .split s = .next t) : t = { s with durh := t.durh, durl := t.durl, pc := t.pc } := by
  cases h
  rfl

theorem dutyTest_frame (h : exec .dutyTest s = .next t) : t = { s with pc := t.pc } := by
  cases h
  rfl

theorem finish_frame (h : exec .finish s = .next t) : t = { s with done := t.done, pc := t.pc } := by
  cases h
  rfl

theorem sFault_frame (h : exec .sFault s = .next t) : t = s := by
  cases h
  rfl

theorem stays_of_frame {u : State} {P : Prop} (h : t = u) (hmem : u.mem = s.mem) (hcmds : u.cmds = s.cmds) :
    t.mem = s.mem ∧ (P → t.cmds = s.cmds) :=
  h ▸ ⟨hmem, fun _ => hcmds⟩

/-- None of the nine writes memory, and only `ACCEPT` takes a command. -/
theorem mem_cmds_registerOnly {i : Instr} {code : BitVec 5} (hi : (i, code) ∈ registerOnly)
    (h : exec i s = .next t) : t.mem = s.mem ∧ (i ≠ .accept → t.cmds = s.cmds) :=
  registerOnly_forall (P := fun i _ => exec i s = .next t → t.mem = s.mem ∧ (i ≠ .accept → t.cmds = s.cmds))
    (accept := fun h => ⟨(congrArg State.mem (accept_frame h) :), fun hne => absurd rfl hne⟩)
    (freqTest := fun h => stays_of_frame (freqTest_frame h) rfl rfl)
    (divInit := fun h => stays_of_frame (divInit_frame h) rfl rfl)
    (divStep := fun h => stays_of_frame (divStep_frame h) rfl rfl)
    (fallback := fun h => stays_of_frame (fallback_frame h) rfl rfl)
    (split := fun h => stays_of_frame (split_frame h) rfl rfl)
    (dutyTest := fun h => stays_of_frame (dutyTest_frame h) rfl rfl)
    (finish := fun h => stays_of_frame (finish_frame h) rfl rfl)
    (sFault := fun h => stays_of_frame (sFault_frame h) rfl rfl) hi h

end RegisterOnly

/-- Settles O50: the frame of each of the nine, and that none of them writes memory. -/
theorem registerOnlyStepsFrame : Obligations.RegisterOnlyStepsFrame := by
  intro s t
  refine ⟨accept_frame, freqTest_frame, divInit_frame, divStep_frame, fallback_frame, split_frame, dutyTest_frame,
    finish_frame, sFault_frame, fun i hi h a => ?_⟩
  obtain ⟨⟨i, code⟩, hmem, rfl⟩ : ∃ e ∈ registerOnly, e.1 = i := List.mem_map.mp hi
  rw [(mem_cmds_registerOnly hmem h).1]

/-! ### The micro-operations with an access -/

theorem afterAccess_frame (q : Request) (x : Word) (s : State) :
    afterAccess q x s = { s with
      mem := (afterAccess q x s).mem, trace := (afterAccess q x s).trace, answers := (afterAccess q x s).answers } := by
  unfold afterAccess
  split <;> rfl

/-- A served access changes of memory the four bytes at its address only, and none when it is a read. -/
theorem afterAccess_byte {q : Request} {a : Nat}
    (h : q.write = false ∨ a < q.address.toNat ∨ q.address.toNat + 4 ≤ a) (x : Word) (s : State) :
    (afterAccess q x s).mem.byte a = s.mem.byte a := by
  unfold afterAccess
  split
  · next hw => exact Memory.byte_putWord_outside _ _ _ (h.resolve_left (by simp [hw]))
  · rfl

/-- Only the two reads of Global Enable drive a read. -/
theorem requestOf_write {s : State} {i : Instr} {q : Request} (hq : requestOf s i = some q) (h₁ : i ≠ .enRd1)
    (h₂ : i ≠ .enRd2) : q.write = true := by
  cases i <;> cases hq
  case enRd1 => exact absurd rfl h₁
  case enRd2 => exact absurd rfl h₂
  all_goals rfl

theorem accessing_frame {i : Instr} {code : BitVec 5} (hi : (i, code) ∈ accessing) {s t : State}
    (h : exec i s = .next t) : t = { s with
      entmp := t.entmp, fstep := t.fstep, pc := t.pc, mem := t.mem, trace := t.trace, answers := t.answers } := by
  rcases exec_accessing_ends hi h with ⟨q, x, -, -, rfl⟩ | ⟨-, rfl⟩ | ⟨-, rfl⟩
  · rw [afterAccess_frame]
  · rfl
  · rfl

/-- Settles O51: each clause for the three ways an access ends. -/
theorem accessingStepsFrame : Obligations.AccessingStepsFrame := by
  intro i code s t hi h
  obtain ⟨q, hq, -⟩ := exec_accessing_cases hi s
  refine ⟨accessing_frame hi h, ?_⟩
  rcases exec_accessing_ends hi h with ⟨q', x, hq', -, rfl⟩ | ⟨-, rfl⟩ | ⟨-, rfl⟩
  · obtain rfl : q = q' := Option.some.inj (hq.symm.trans hq')
    have hfstep : (afterAccess q x s).fstep = s.fstep := by rw [afterAccess_frame]
    exact ⟨fun h₁ h₂ => if_pos (requestOf_write hq h₁ h₂), .inl hfstep, q, hq, fun _ ha => afterAccess_byte ha x s⟩
  · exact ⟨fun _ _ => rfl, .inr ⟨rfl, rfl⟩, q, hq, fun _ _ => rfl⟩
  · exact ⟨fun _ _ => rfl, .inl rfl, q, hq, fun _ _ => rfl⟩

end Sys2Proof.Machine
end

section
/-! PROOFS. The family of spec/41_disable.md and its counterparts: taking a command (R130), the two reads and the two
writes of Global Enable (R131, R132, R180, R181) and the two tests (R133, R167). -/

namespace Sys2Proof.Machine

open Sys2Proof.Safety

/-! ### Taking a command -/

/-- No micro-operation but `ACCEPT` takes a command. -/
theorem cmds_microOperation {i : Instr} {code : BitVec 5} (hcode : codeWord i = .step code) (hne : i ≠ .accept)
    {s t : State} (h : exec i s = .next t) : t.cmds = s.cmds := by
  rcases decodeStep_cases (decodeStep_eq_some_iff.mpr hcode) with hi | hi
  · rw [accessing_frame hi h]
  · exact (mem_cmds_registerOnly hi h).2 hne

/-- With no command presented `ACCEPT` changes nothing (R130). -/
theorem accept_nothing {s : State} (h : s.cmds = []) : exec .accept s = .next s := by
  simp [exec, execAccept, h]

section Accept

variable {s : State} {w : BitVec 41} {rest : List (BitVec 41)} (hcmds : s.cmds = w :: rest)
include hcmds

/-- A reserved word is refused (R90). -/
theorem accept_reserved (h : reservedOperands (cmdFrequency w) (cmdDuty w) = true) :
    exec .accept s = .refused .reservedCommand := by
  simp [exec, execAccept, hcmds, h]

/-- Any other word is latched (R130). -/
theorem accept_taken (h : reservedOperands (cmdFrequency w) (cmdDuty w) = false) :
    exec .accept s = .next (latch (cmdChannel w) (cmdFrequency w) (cmdDuty w) { s with cmds := rest }) := by
  simp [exec, execAccept, hcmds, h]

end Accept

/-- Settles O14: the three ways of `ACCEPT`, and the frame of every other micro-operation. -/
theorem acceptLatchesTheCommand : Obligations.AcceptLatchesTheCommand := by
  intro s
  refine ⟨accept_nothing, fun t h hsome => ?_, fun i t hne ⟨code, hcode⟩ h => cmds_microOperation hcode hne h,
    fun w rest hcmds => ⟨fun hf hd => ?_, fun hw => ?_⟩⟩
  · rcases exec_accept_cases s with ⟨hnone, -⟩ | ⟨w, rest, -, ⟨-, he⟩ | ⟨-, he⟩⟩
    · exact absurd hnone hsome
    · cases he.symm.trans h
    · cases he.symm.trans h
      rfl
  · exact accept_reserved hcmds ((reservedOperands_iff _ _).mpr ⟨hf, hd⟩)
  · exact accept_taken hcmds ((reservedOperands_eq_false_iff _ _).mpr hw.resolve_left)

/-- A command that is not reserved waits where the block is not idle (R130). -/
theorem program_waits {c : BitVec 2} {f : Word} {d : BitVec 7} {s : State} (hr : reservedOperands f d = false)
    (hpc : s.pc ≠ sIdle) : program c f d s = .next (waits (cmdWord c f d) s) := by
  simp [program, hr, hpc]

/-- Settles O35: neither command is reserved, so both wait. -/
theorem commandsWaitUntilIdle : Obligations.CommandsWaitUntilIdle := by
  intro c f d s hpc
  have hoff : reservedOperands 0#32 d = false := (reservedOperands_eq_false_iff _ _).mpr fun h0 => absurd rfl h0
  exact ⟨program_waits hoff hpc, fun hd => program_waits ((reservedOperands_eq_false_iff f d).mpr fun _ => hd) hpc⟩

/-! ### Global Enable -/

section Update

variable {s : State} {i : Instr} {code next : BitVec 5} {r : Reg}

/-- A read into `ENTMP`, served and refused. -/
theorem exec_read_answered
    (h : exec i s = accessThen code (readReq s.par r) s fun x t => .next { t with entmp := x, pc := next }) :
    (∀ x, wordGiven (s.mem.word (regAddr s.par r)) (nextAnswer s) = some x →
      exec i s = .next { afterRead (regAddr s.par r) x s with entmp := x, pc := next }) ∧
    ∀ c, nextAnswer s = .refuse c → exec i s = .next (afterRefusal code s) :=
  ⟨fun _ hx => h.trans (accessThen_read_served hx), fun _ hc => h.trans (accessThen_read_refused hc)⟩

/-- A write whose returned word is discarded, served and refused. -/
theorem exec_write_answered {v : Word}
    (h : exec i s = accessThen code (writeReq s.par r v) s fun _ t => .next { t with pc := next }) :
    (∀ x, wordGiven v (nextAnswer s) = some x →
      exec i s = .next { afterWrite (regAddr s.par r) v x s with pc := next }) ∧
    ∀ c, nextAnswer s = .refuse c → exec i s = .next (afterRefusal code s) :=
  ⟨fun _ hx => h.trans (accessThen_write_served hx), fun _ hc => h.trans (accessThen_write_refused hc)⟩

end Update

/-- Settles O15: both reads are one access that goes on to the next code. -/
theorem enableReadsFillTheTemporary : Obligations.EnableReadsFillTheTemporary := by
  intro s i code next hp hi
  rw [← regAddr_en hp]
  simp only [List.mem_cons, Prod.mk.injEq, List.not_mem_nil, or_false] at hi
  rcases hi with ⟨rfl, rfl, rfl⟩ | ⟨rfl, rfl, rfl⟩
  · exact exec_read_answered (exec_enRd1 s)
  · exact exec_read_answered (exec_enRd2 s)

/-- Settles O16: both writes are one access that goes on to the next code. -/
theorem enableWritesChangeOneBit : Obligations.EnableWritesChangeOneBit := by
  intro s i code next v hp hi
  rw [← regAddr_en hp]
  simp only [List.mem_cons, Prod.mk.injEq, List.not_mem_nil, or_false] at hi
  rcases hi with ⟨rfl, rfl, rfl, rfl⟩ | ⟨rfl, rfl, rfl, rfl⟩
  · exact exec_write_answered (exec_enClr s)
  · exact exec_write_answered (exec_enSet s)

/-! ### The two tests -/

/-- Settles O29: the equations of the two tests, with the condition of the overrides. -/
theorem testsChooseThePath : Obligations.TestsChooseThePath := by
  intro s
  refine ⟨exec_freqTest s, ?_⟩
  simp only [exec_dutyTest, overrides_iff]

end Sys2Proof.Machine
end

section
/-! PROOFS. The micro-operations compose to the command as one operation (spec/40_command.md R113): a run that comes to
rest has one answer from then on, and each part of the command is what the micro-operations at its STEP codes do. -/

namespace Sys2Proof.Machine

open Sys2Proof.Safety

/-! ### Runs that come to rest -/

/-- From the `n`-th step on the run from `s` answers `x`. -/
def RestsAt (n : Nat) (s : State) (x : Result) : Prop := ∀ k, n ≤ k → run k s = x

theorem RestsAt.mono {m n : Nat} {s : State} {x : Result} (h : RestsAt m s x) (hmn : m ≤ n) : RestsAt n s x :=
  fun k hk => h k (hmn.trans hk)

/-- One more step before. -/
theorem RestsAt.before {n : Nat} {s t : State} {x : Result} (h : RestsAt n t x) (hstep : step s = .next t) :
    RestsAt (n + 1) s x := by
  intro k hk
  obtain ⟨j, rfl⟩ := Nat.exists_eq_add_of_le' (Nat.le_of_add_left_le hk)
  rw [run_succ_of_step hstep]
  exact h j (Nat.le_of_succ_le_succ hk)

/-- A state that steps to itself is at rest. -/
theorem restsAt_of_stationary {s : State} (hstep : step s = .next s) (n : Nat) : RestsAt n s (.next s) := by
  intro k hk
  clear hk
  induction k with
  | zero => rfl
  | succ k ih => rwa [run_succ_of_step hstep]

theorem restsAt_of_refused {s : State} {why : Refusal} (hstep : step s = .refused why) :
    RestsAt 1 s (.refused why) := by
  intro k hk
  obtain ⟨j, rfl⟩ := Nat.exists_eq_add_of_le' hk
  rw [run, hstep]

/-! ### The block alone -/

/-- The block alone acts, on a command with frequency `f`, and no other command waits. -/
structure Alone (f : Word) (s : State) : Prop where
  legal : s.par.legal = true
  turns : s.turns = []
  cmds : s.cmds = []
  freq : s.freq = f

/-- What keeps the parameters, the inputs and the frequency leaves the block alone. -/
theorem Alone.of_same {f : Word} {s t : State} (h : Alone f s) (hpar : t.par = s.par) (hturns : t.turns = s.turns)
    (hcmds : t.cmds = s.cmds) (hfreq : t.freq = s.freq) : Alone f t :=
  ⟨hpar ▸ h.legal, hturns.trans h.turns, hcmds.trans h.cmds, hfreq.trans h.freq⟩

theorem step_decoded {s : State} (hlegal : s.par.legal = true) (hturns : s.turns = []) {i : Instr}
    (hi : decodeStep s.pc = some i) : step s = exec i s := by
  rw [step_legal hlegal, takeTurn, hturns]
  exact blockTurn_decoded hi

section Alone

variable {f : Word} {u : State} (hu : Alone f u)
include hu

theorem Alone.step_eq {i : Instr} (hi : decodeStep u.pc = some i) : step u = exec i u :=
  step_decoded hu.legal hu.turns hi

/-- Placed at a STEP code, the block alone runs its micro-operation. -/
theorem Alone.step_at {code : BitVec 5} {i : Instr} (hi : decodeStep code = some i) :
    step { u with pc := code } = exec i { u with pc := code } := by
  have hplaced : Alone f { u with pc := code } := hu.of_same rfl rfl rfl rfl
  exact hplaced.step_eq hi

theorem Alone.afterAccess (q : Request) (x : Word) : Alone f (afterAccess q x u) := by
  rw [afterAccess_frame]
  exact hu.of_same rfl rfl rfl rfl

/-- The fault state is at rest (R198). -/
theorem Alone.restsAt_afterRefusal (code : BitVec 5) (n : Nat) :
    RestsAt n (afterRefusal code u) (.next (afterRefusal code u)) := by
  have hfault : Alone f (afterRefusal code u) := hu.of_same rfl rfl rfl rfl
  exact restsAt_of_stationary ((hfault.step_eq rfl).trans (exec_sFault _)) n

/-- Idle with no command waiting is at rest (R130). -/
theorem Alone.restsAt_finished (n : Nat) : RestsAt n (finished u) (.next (finished u)) := by
  have hidle : Alone f (finished u) := hu.of_same rfl rfl rfl rfl
  exact restsAt_of_stationary ((hidle.step_eq rfl).trans (accept_nothing hidle.cmds)) n

end Alone

/-! ### The parts of a command, step by step -/

/-- `n` steps of the block alone from STEP at `code` do what the part `k` of a command does, from whatever state the
command comes to it. -/
def Performs (f : Word) (n : Nat) (code : BitVec 5) (k : State → Result) : Prop :=
  ∀ u, Alone f u → RestsAt n { u with pc := code } (k u)

section Performs

variable {f : Word} {n : Nat} {k : State → Result}

theorem Performs.mono {m : Nat} {code : BitVec 5} (h : Performs f m code k) (hmn : m ≤ n) : Performs f n code k :=
  fun u hu => (h u hu).mono hmn

/-- A micro-operation that changes the block's registers as `g` does, then the rest. -/
theorem Performs.after {next : BitVec 5} (h : Performs f n next k) {i : Instr} {code : BitVec 5} {g : State → State}
    (hi : decodeStep code = some i) (halone : ∀ u, Alone f u → Alone f (g u))
    (hexec : ∀ u : State, exec i { u with pc := code } = .next { g u with pc := next }) :
    Performs f (n + 1) code fun u => k (g u) :=
  fun u hu => (h (g u) (halone u hu)).before ((hu.step_at hi).trans (hexec u))

/-- An access and the rest of the command, where the micro-operation that performs it goes on as the rest does. A
refused access and a silent one are at rest on both levels. -/
theorem Alone.restsAt_accessThen {u : State} (hu : Alone f u) {i : Instr} {code : BitVec 5}
    (hi : (i, code) ∈ accessing) {q : Request} (hq : requestOf u i = some q) {k : Word → State → Result}
    (hk : ∀ x v, Alone f v →
      RestsAt n { v with entmp := if q.write then v.entmp else x, pc := code + 1#5 } (k x v)) :
    RestsAt (n + 1) { u with pc := code } (accessThen code q u k) := by
  have hreg : IsRegisterRequest u.par q := requestOf_isRegisterRequest hq
  have hmicro : step { u with pc := code } = accessThen code q { u with pc := code } fun x t =>
      .next { t with entmp := if q.write then t.entmp else x, pc := code + 1#5 } := by
    rw [hu.step_at (decodeStep_accessing hi)]
    exact exec_accessing hi ((requestOf_withStatus u u.fstep u.done code i).trans hq)
  rcases accessThen_cases hreg code k with ⟨x, hx, he⟩ | ⟨⟨c, hc⟩, he⟩ | ⟨hs, he⟩
  · rw [he]
    refine (hk x _ (hu.afterAccess q x)).before ?_
    rw [hmicro, accessThen_served (s := { u with pc := code }) hreg hx]
    unfold Machine.afterAccess
    split <;> rfl
  · rw [he]
    exact (hu.restsAt_afterRefusal code n).before
      (hmicro.trans (accessThen_refused (s := { u with pc := code }) hreg hc))
  · rw [he]
    exact restsAt_of_stationary (hmicro.trans (accessThen_silent (s := { u with pc := code }) hreg hs)) _

/-- One write of the command. -/
theorem Performs.putThen {i : Instr} {code : BitVec 5} (hi : (i, code) ∈ accessing) {r : State → Reg}
    {v : State → Word} (hq : ∀ u, requestOf u i = some (writeReq u.par (r u) (v u)))
    (h : Performs f n (code + 1#5) k) : Performs f (n + 1) code fun u => putThen code (r u) (v u) u k :=
  fun u hu => hu.restsAt_accessThen hi (hq u) fun _ => h

/-- Steps 1 and 8 of a command: a read of Global Enable into `ENTMP` and a write of it. -/
theorem Performs.updateEnThen {rd wr : Instr} {code : BitVec 5} (hrd : (rd, code) ∈ accessing)
    (hwr : (wr, code + 1#5) ∈ accessing) {update : Word → BitVec 2 → Word}
    (hread : ∀ u, requestOf u rd = some (readReq u.par .en))
    (hwrite : ∀ u, requestOf u wr = some (writeReq u.par .en (update u.entmp u.ch)))
    (h : Performs f n (code + 1#5 + 1#5) k) :
    Performs f (n + 2) code fun u => accessThen code (readReq u.par .en) u fun x t =>
      Machine.putThen (code + 1#5) .en (update x t.ch) { t with entmp := x } k :=
  fun u hu => hu.restsAt_accessThen hrd (hread u) fun x v hv =>
    Performs.putThen hwr hwrite h { v with entmp := x } (hv.of_same rfl rfl rfl rfl)

theorem performs_finish : Performs f 1 sFinish fun u => .next (finished u) :=
  fun _ hu => (hu.restsAt_finished 0).before ((hu.step_at rfl).trans (exec_finish _))

/-- Step 6 of a command. -/
theorem Performs.configureThen (h : Performs f n sDutyTest k) :
    Performs f (n + 7) sWrCon fun u => configureThen u k := by
  refine .putThen (i := .wrCon) (by decide) (fun _ => rfl) ?_
  refine .putThen (i := .wrHdur) (by decide) (fun _ => rfl) ?_
  refine .putThen (i := .wrLdur) (by decide) (fun _ => rfl) ?_
  refine .putThen (i := .wrGdur) (by decide) (fun _ => rfl) ?_
  refine .putThen (i := .wrSd0) (by decide) (fun _ => rfl) ?_
  refine .putThen (i := .wrSd1) (by decide) (fun _ => rfl) ?_
  exact .putThen (i := .wrWavenum) (by decide) (fun _ => rfl) h

/-- Step 7 of a command: the test, and the two overrides where it chooses them. -/
theorem Performs.overrideThen (h : Performs f n sEnRd2 k) :
    Performs f (n + 3) sDutyTest fun u => overrideThen u k := by
  have hoverrides : Performs f (n + 2) sWrSd0Ovr fun u =>
      Machine.putThen sWrSd0Ovr (.chan .sd0 u.ch) (overrideWord u.par u.duty) u fun v =>
      Machine.putThen sWrSd1Ovr (.chan .sd1 v.ch) (overrideWord v.par v.duty) v k :=
    .putThen (i := .wrSd0Ovr) (by decide) (fun _ => rfl)
      (.putThen (i := .wrSd1Ovr) (by decide) (fun _ => rfl) h)
  intro u hu
  have htest := (hu.step_at (code := sDutyTest) rfl).trans (exec_dutyTest _)
  by_cases ho : overrides u.duty = true
  · simp only [ho, if_true] at htest
    simp only [Machine.overrideThen, ho, if_true]
    exact (hoverrides u hu).before htest
  · simp only [ho] at htest
    simp only [Machine.overrideThen, ho]
    exact ((h u hu).mono (Nat.le_add_right n 2)).before htest

theorem exec_freqTest_zero {s : State} (h : s.freq = 0#32) : exec .freqTest s = .next { s with pc := sFinish } := by
  rw [exec_freqTest, if_pos h]

theorem exec_freqTest_nonzero {s : State} (h : s.freq ≠ 0#32) :
    exec .freqTest s = .next { s with pc := sDivInit } := by
  rw [exec_freqTest, if_neg h]

/-- The command stops after its disabling when the frequency is 0. -/
theorem performs_freqTest {off on : State → Result} (hoff : Performs f n sFinish off)
    (hon : Performs f n sDivInit on) : Performs f (n + 1) sFreqTest fun u => if f = 0#32 then off u else on u := by
  intro u hu
  have htest := hu.step_at (code := sFreqTest) rfl
  by_cases hf : f = 0#32
  · simp only [if_pos hf]
    exact (hoff u hu).before (htest.trans (exec_freqTest_zero (hu.freq.trans hf)))
  · simp only [if_neg hf]
    exact (hon u hu).before (htest.trans (exec_freqTest_nonzero (hu.freq ▸ hf)))

end Performs

/-! ### The calculator -/

/-- The timing registers with which `DIV_INIT` starts the search. -/
def searchStarted (u : State) : State :=
  { u with clksel := .fast, div := 0#3, dur := fastDuration u.par u.freq 0 }

/-- The timing registers with which the search ends, where `left` turns remain. -/
def searched (left : Nat) (u : State) : State :=
  { u with
    div := BitVec.ofNat 3 (searchFrom u.par u.freq left u.div.toNat u.dur).1
    dur := (searchFrom u.par u.freq left u.div.toNat u.dur).2 }

/-- The timing registers after `FALLBACK`. -/
def fallenBack (u : State) : State :=
  if overLimit u.par u.dur then { u with clksel := .slow, div := 0#3, dur := slowDuration u.par u.freq } else u

/-- The phases after `SPLIT`. -/
def phased (u : State) : State :=
  { u with durh := splitHigh u.dur u.duty, durl := splitLow u.dur u.duty }

/-- The calculator of the command is its four micro-operations. -/
theorem compute_eq (u : State) :
    compute u = phased (fallenBack (searched u.par.maxDiv.toNat (searchStarted u))) := by
  by_cases h : overLimit u.par (searchFrom u.par u.freq u.par.maxDiv.toNat 0 (fastDuration u.par u.freq 0)).2 = true
  · simp [compute, timing, phased, fallenBack, searched, searchStarted, h]
  · simp [compute, timing, phased, fallenBack, searched, searchStarted, h]

theorem searched_zero (u : State) : searched 0 u = u := by
  simp [searched, searchFrom]

/-- Within the limit the search ends where it stands. -/
theorem searched_within {left : Nat} {u : State} (h : ¬ u.par.maxDuration < u.dur.toNat) : searched left u = u := by
  cases left with
  | zero => exact searched_zero u
  | succ left => simp [searched, searchFrom, overLimit, h]

/-- Over the limit the search goes on from the next divider. -/
theorem searched_over {left : Nat} {u : State} (h : u.par.maxDuration < u.dur.toNat) (hdiv : u.div.toNat < 7) :
    searched (left + 1) u =
      searched left { u with div := u.div + 1#3, dur := fastDuration u.par u.freq (u.div.toNat + 1) } := by
  have hnext : (u.div + 1#3).toNat = u.div.toNat + 1 := by bv_omega
  simp [searched, searchFrom, overLimit, h, hnext]

theorem Alone.fallenBack {f : Word} {u : State} (hu : Alone f u) : Alone f (fallenBack u) := by
  unfold Machine.fallenBack
  split
  · exact hu.of_same rfl rfl rfl rfl
  · exact hu

theorem exec_fallback_at (u : State) (code : BitVec 5) :
    exec .fallback { u with pc := code } = .next { fallenBack u with pc := sSplit } := by
  simp only [exec, execFallback, fallenBack]
  split <;> rfl

section Calculator

variable {f : Word} {n : Nat} {k : State → Result}

/-- The search loop: `DIV_STEP` once for each divider that is over the limit, and once more. -/
theorem Performs.search (h : Performs f n sFallback k) (left : Nat) {u : State} (hu : Alone f u)
    (hleft : u.div.toNat + left = u.par.maxDiv.toNat) :
    RestsAt (n + left + 1) { u with pc := sDivStep } (k (searched left u)) := by
  have hstep := hu.step_at (code := sDivStep) rfl
  induction left generalizing u with
  | zero =>
    rcases exec_divStep_cases { u with pc := sDivStep } with ⟨-, hdiv, -⟩ | ⟨-, he⟩
    · exact absurd hdiv (by dsimp only; omega)
    · rw [searched_zero]
      exact (h u hu).before (hstep.trans he)
  | succ left ih =>
    have hmax := u.par.maxDiv.isLt
    rcases exec_divStep_cases { u with pc := sDivStep } with ⟨hover, -, he⟩ | ⟨hstop, he⟩
    · rw [searched_over (u := u) hover (by omega)]
      have hraised : Alone f { u with div := u.div + 1#3, dur := fastDuration u.par u.freq (u.div.toNat + 1) } :=
        hu.of_same rfl rfl rfl rfl
      refine (ih hraised ?_ (hraised.step_at rfl)).before (hstep.trans he)
      dsimp only
      bv_omega
    · have hwithin : ¬ u.par.maxDuration < u.dur.toNat := fun hover => hstop ⟨hover, by dsimp only; omega⟩
      rw [searched_within hwithin]
      exact ((h u hu).mono (by omega)).before (hstep.trans he)

/-- Steps 3 to 5 of a command: at most 11 steps, 8 of them in the search. -/
theorem Performs.compute (h : Performs f n sWrCon k) : Performs f (n + 11) sDivInit fun u => k (compute u) := by
  have hsplit : Performs f (n + 1) sSplit fun u => k (phased u) :=
    h.after rfl (fun _ hu => hu.of_same rfl rfl rfl rfl) fun _ => rfl
  have hfallback : Performs f (n + 2) sFallback fun u => k (phased (fallenBack u)) :=
    hsplit.after rfl (fun _ hu => hu.fallenBack) fun u => exec_fallback_at u sFallback
  intro u hu
  have hmax : u.par.maxDiv.toNat ≤ 7 := Nat.lt_succ_iff.mp u.par.maxDiv.isLt
  have hstarted : Alone f (searchStarted u) := hu.of_same rfl rfl rfl rfl
  have hsearch := hfallback.search u.par.maxDiv.toNat hstarted (Nat.zero_add _)
  change RestsAt (n + 11) _ (k (Machine.compute u))
  rw [compute_eq]
  exact (hsearch.mono (n := n + 10) (by omega)).before ((hu.step_at rfl).trans (exec_divInit _))

end Calculator

/-! ### The whole command -/

/-- After `ACCEPT` at most 27 steps do the whole command. -/
theorem performs_command (f : Word) : Performs f 27 sEnRd1 fun u => disableThen u fun u =>
    if f = 0#32 then .next (finished u)
    else configureThen (compute u) fun v => overrideThen v fun w => enableThen w fun z => .next (finished z) := by
  have henable : Performs f 3 sEnRd2 fun w => enableThen w fun z => .next (finished z) :=
    .updateEnThen (rd := .enRd2) (wr := .enSet) (by decide) (by decide) (fun _ => rfl) (fun _ => rfl) performs_finish
  have hon : Performs f 24 sDivInit fun u =>
      configureThen (compute u) fun v => overrideThen v fun w => enableThen w fun z => .next (finished z) :=
    henable.overrideThen.configureThen.compute
  exact .updateEnThen (rd := .enRd1) (wr := .enClr) (by decide) (by decide) (fun _ => rfl) (fun _ => rfl)
    (performs_freqTest (performs_finish.mono (by decide)) hon)

/-- The command of a CMD word is one call of `program`, the reserved one too. -/
theorem exec_decodeCmd (w : BitVec 41) (s : State) :
    exec (decodeCmd w) s = program (cmdChannel w) (cmdFrequency w) (cmdDuty w) s := by
  unfold decodeCmd
  split
  · next hf => rw [exec_pwmOff, hf]
  · next hf =>
    split
    · rfl
    · next hd =>
      have hr := (reservedOperands_iff (cmdFrequency w) (cmdDuty w)).mpr ⟨hf, not_le.mp hd⟩
      rw [exec_reserved, program, if_pos hr]

/-- Settles O36: `ACCEPT` refuses the word that the command refuses, or latches it as the command does; the steps after
it are at rest with the command's answer. -/
theorem microStepsComposeToTheCommand : Obligations.MicroStepsComposeToTheCommand := by
  intro s w hlegal hpc hturns hcmds
  have haccept : step s = exec .accept s := step_decoded hlegal hturns (by rw [hpc]; rfl)
  rw [exec_decodeCmd]
  cases hr : reservedOperands (cmdFrequency w) (cmdDuty w) with
  | true =>
    rw [program, if_pos hr]
    exact restsAt_of_refused (haccept.trans (accept_reserved hcmds hr)) 28 (by decide)
  | false =>
    have hlatched : Alone (cmdFrequency w) (latch (cmdChannel w) (cmdFrequency w) (cmdDuty w) { s with cmds := [] }) :=
      ⟨hlegal, hturns, rfl, rfl⟩
    have hrun := performs_command _ _ hlatched
    rw [program_latched (s := { s with cmds := [] }) hpc hr]
    exact hrun.before (haccept.trans (accept_taken hcmds hr)) 28 le_rfl

end Sys2Proof.Machine
end

section
/-! PROOFS. The family of spec/42_calc.md: what each step of the calculator computes (R140 to R143), and the ranges its
values keep along a run (R146 to R149). -/

namespace Sys2Proof.Machine

open Sys2Proof.Safety

/-! ### What each step computes -/

/-- Settles O17: the equation of `DIV_INIT`, with divider 0 in the quotient. -/
theorem divInitStartsTheSearch : Obligations.DivInitStartsTheSearch := by
  intro s hp hf
  have hdur : fastDuration s.par s.freq 0 = BitVec.ofNat 32 (40000000 / s.freq.toNat) := by
    rw [fastDuration_eq_ofNat hp hf, Nat.pow_zero, Nat.one_mul]
  exact hdur ▸ exec_divInit s

/-- Settles O18: the two ways of `DIV_STEP`, each excluded by the other's condition. -/
theorem divStepRaisesTheDivider : Obligations.DivStepRaisesTheDivider := by
  intro s hp hf
  have hcases := exec_divStep_cases s
  rw [hp.maxDuration, hp.maxDiv, fastDuration_eq_ofNat hp hf] at hcases
  rcases hcases with ⟨hover, hdiv, he⟩ | ⟨hstop, he⟩
  · have hnext : BitVec.ofNat 3 (s.div.toNat + 1) = s.div + 1#3 := by simp [BitVec.ofNat_add]
    rw [hnext]
    refine ⟨fun _ _ => he, fun hstop => ?_⟩
    rcases hstop with hwithin | hlast
    · exact absurd hover hwithin.not_gt
    · exact absurd hlast hdiv.ne
  · exact ⟨fun hover hdiv => absurd ⟨hover, hdiv⟩ hstop, fun _ => he⟩

/-- Settles O19: the two ways of `FALLBACK`, each excluded by the other's condition. -/
theorem fallbackTakesTheSlowClock : Obligations.FallbackTakesTheSlowClock := by
  intro s hp hf
  have hcases := exec_fallback_cases s
  rw [hp.maxDuration, slowDuration_eq_ofNat hp hf] at hcases
  rcases hcases with ⟨hover, he⟩ | ⟨hwithin, he⟩
  · exact ⟨fun _ => he, fun hwithin => absurd hover hwithin.not_gt⟩
  · exact ⟨fun hover => absurd hover hwithin, fun _ => he⟩

/-- Settles O20: the equation of `SPLIT`, whose low phase is not free up to duty 100. -/
theorem splitDividesTheDuration : Obligations.SplitDividesTheDuration := by
  intro s hduty
  have hlow : splitLow s.dur s.duty = BitVec.ofNat 32 (s.dur.toNat * (100 - s.duty.toNat) / 100) := if_pos hduty
  exact hlow ▸ exec_split s

/-! ### The ranges -/

/-- Where a divider is over the limit its divisor is at most 2666, so the next one's is at most 5332 (R146). -/
theorem divisor_le_of_over {f : Word} (hf : f ≠ 0#32) {d : Nat} (h : 15000 < fastTicks f d) :
    2 ^ (d + 1) * f.toNat ≤ 5332 := by
  have hlow : 2 ^ d * f.toNat < 2667 := not_le.mp (mt (fastTicks_le_iff hf d).mpr h.not_ge)
  rw [Nat.pow_succ', Nat.mul_assoc]
  omega

/-- A part of at most 100 hundredths is at most the whole (R148). -/
theorem part_le {n : Nat} (dur : Nat) (h : n ≤ 100) : dur * n / 100 ≤ dur :=
  Nat.div_le_of_le_mul (by rw [Nat.mul_comm 100]; exact Nat.mul_le_mul_left dur h)

section Ranges

variable {s t : State} (h : BlockInv s)
include h

/-- The first quotient is at most its dividend (R147). -/
theorem divInit_range (hpc : s.pc = sDivInit) (he : exec .divInit s = .next t) : t.dur.toNat ≤ 40000000 := by
  have hfreq : s.freq ≠ 0#32 := h.freqNonzero (by rw [hpc]; rfl)
  cases he
  exact (fastDuration_toNat h.printed hfreq 0).trans_le (Nat.div_le_self _ _)

/-- A raised divider gives no larger quotient, and only one over the limit is raised (R146, R147). -/
theorem divStep_range (hpc : s.pc = sDivStep) (he : exec .divStep s = .next t) :
    t.dur.toNat ≤ s.dur.toNat ∧ (t.pc = sDivStep → 2 ^ t.div.toNat * s.freq.toNat ≤ 5332) := by
  have hfreq : s.freq ≠ 0#32 := h.freqNonzero (by rw [hpc]; rfl)
  have hdur : s.dur.toNat = fastTicks s.freq s.div.toNat := h.searchDuration (.inl hpc)
  rcases exec_divStep_cases s with ⟨hover, hdiv, heq⟩ | ⟨-, heq⟩ <;> cases heq.symm.trans he
  · rw [h.printed.maxDuration, hdur] at hover
    rw [h.printed.maxDiv] at hdiv
    have hraised : (s.div + 1#3).toNat = s.div.toNat + 1 := by bv_omega
    have hnext : (fastDuration s.par s.freq (s.div.toNat + 1)).toNat = fastTicks s.freq (s.div.toNat + 1) :=
      fastDuration_toNat h.printed hfreq _
    constructor
    · rw [hnext, hdur]
      exact fastTicks_antitone hfreq (Nat.le_succ _)
    · intro _
      rw [hraised]
      exact divisor_le_of_over hfreq hover
  · exact ⟨le_rfl, nofun⟩

/-- A duration over the limit leaves with the Slow clock, any other with the Fast one (R147). -/
theorem fallback_range (hpc : s.pc = sFallback) (he : exec .fallback s = .next t) :
    t.dur.toNat ≤ 100000 ∧ (t.clksel = .fast → t.dur.toNat ≤ 15000) ∧
      (t.clksel = .slow → t.dur.toNat = 100000 / s.freq.toNat) := by
  have hfreq : s.freq ≠ 0#32 := h.freqNonzero (by rw [hpc]; rfl)
  have hfast : s.clksel = .fast := h.searchFast (.inr hpc)
  rcases exec_fallback_cases s with ⟨-, heq⟩ | ⟨hwithin, heq⟩ <;> cases heq.symm.trans he
  · exact ⟨slowDuration_le h.printed hfreq, nofun, fun _ => slowDuration_toNat h.printed hfreq⟩
  · rw [h.printed.maxDuration, not_lt] at hwithin
    exact ⟨hwithin.trans (by decide), fun _ => hwithin, fun hslow => nomatch hfast.symm.trans hslow⟩

/-- Both phases are parts of a settled duration (R148). -/
theorem split_range (hpc : s.pc = sSplit) (he : exec .split s = .next t) :
    s.dur.toNat ≤ 100000 ∧ s.duty.toNat ≤ 100 ∧
      s.dur.toNat * s.duty.toNat ≤ 10000000 ∧ s.dur.toNat * (100 - s.duty.toNat) ≤ 10000000 ∧
      t.durh.toNat ≤ s.dur.toNat ∧ t.durl.toNat ≤ s.dur.toNat := by
  have hpast : pastFreqTest s.pc = true := by rw [hpc]; rfl
  obtain ⟨hdur, -⟩ := h.durSettled hpast (by rw [hpc]; decide)
  have hduty : s.duty.toNat ≤ 100 := h.notReserved (h.freqNonzero hpast)
  have hrest : 100 - s.duty.toNat ≤ 100 := Nat.sub_le _ _
  cases he
  exact ⟨hdur, hduty, Nat.mul_le_mul hdur hduty, Nat.mul_le_mul hdur hrest,
    (splitHigh_toNat hduty).trans_le (part_le _ hduty), (splitLow_toNat hduty).trans_le (part_le _ hrest)⟩

end Ranges

/-- Settles O22: the ranges of the four steps, one by one. -/
theorem calculatorStaysInRange : Obligations.CalculatorStaysInRange := fun _ _ h =>
  ⟨divInit_range h, divStep_range h, fallback_range h, split_range h⟩

end Sys2Proof.Machine
end

section
/-! PROOFS. The family of spec/43_config.md: the seven configuration writes (R160 to R166) and the two overrides (R168,
R169). Each is one write to a register of the channel `CH`, so what it does with the printed parameters is said once for
the family and read off for each row from its base and its word. -/

namespace Sys2Proof.Machine

open Sys2Proof.Safety

/-- A write to a register of the channel `CH` whose returned word is discarded, served and refused, at its printed
address (R85). -/
theorem exec_chanWrite_answered {s : State} {i : Instr} {code next : BitVec 5} {kind : ChanReg} {base v : Word}
    (hp : s.par.AsPrinted)
    (h : exec i s = accessThen code (writeReq s.par (.chan kind s.ch) v) s fun _ t => .next { t with pc := next })
    (hbase : chanBase s.par kind = base) :
    (∀ x, wordGiven v (nextAnswer s) = some x →
      exec i s = .next { afterWrite (base + 0x40#32 * s.ch.setWidth 32) v x s with pc := next }) ∧
    ∀ c, nextAnswer s = .refuse c → exec i s = .next (afterRefusal code s) := by
  rw [← hbase, ← regAddr_chan hp]
  exact exec_write_answered h

/-- The word of the overrides as printed (R88). -/
theorem overrideWord_eq {p : Config.Params} (hp : p.AsPrinted) (duty : BitVec 7) :
    overrideWord p duty = if duty = 0#7 then 0x00000000#32 else 0xFFFFFFFF#32 := by
  rw [overrideWord, hp.sendAllZero, hp.sendAllOne]

/-- Settles O27: the word is the control word of the present clock mode and divider. -/
theorem wrConWritesTheControlWord : Obligations.WrConWritesTheControlWord := by
  rintro s _ _ hp rfl rfl
  rw [← fastBitOf_eq_ite, ← controlWord_eq hp]
  exact exec_chanWrite_answered hp (exec_wrCon s) hp.addrCon

/-- Settles O28: each row is one write with its own base; the guard and the wave number are printed as 0. -/
theorem configurationWritesFollowTheTable : Obligations.ConfigurationWritesFollowTheTable := by
  intro s i code base v next hp hi
  simp only [List.mem_cons, Prod.mk.injEq, List.not_mem_nil, or_false] at hi
  rcases hi with ⟨rfl, rfl, rfl, rfl, rfl⟩ | ⟨rfl, rfl, rfl, rfl, rfl⟩ | ⟨rfl, rfl, rfl, rfl, rfl⟩ |
    ⟨rfl, rfl, rfl, rfl, rfl⟩ | ⟨rfl, rfl, rfl, rfl, rfl⟩ | ⟨rfl, rfl, rfl, rfl, rfl⟩
  · exact exec_chanWrite_answered hp (exec_wrHdur s) hp.addrHdur
  · exact exec_chanWrite_answered hp (exec_wrLdur s) hp.addrLdur
  · have hwrite := exec_wrGdur s
    rw [hp.guardValue] at hwrite
    exact exec_chanWrite_answered hp hwrite hp.addrGdur
  · exact exec_chanWrite_answered hp (exec_wrSd0 s) hp.addrSd0
  · exact exec_chanWrite_answered hp (exec_wrSd1 s) hp.addrSd1
  · have hwrite := exec_wrWavenum s
    rw [hp.wavenumValue] at hwrite
    exact exec_chanWrite_answered hp hwrite hp.addrWavenum

/-- Settles O30: both overrides write the one word that the duty selects. -/
theorem overridesWriteAllZeroOrAllOne : Obligations.OverridesWriteAllZeroOrAllOne := by
  intro s i code base next v hp hv hi
  obtain rfl : v = overrideWord s.par s.duty := hv.trans (overrideWord_eq hp s.duty).symm
  simp only [List.mem_cons, Prod.mk.injEq, List.not_mem_nil, or_false] at hi
  rcases hi with ⟨rfl, rfl, rfl, rfl⟩ | ⟨rfl, rfl, rfl, rfl⟩
  · exact exec_chanWrite_answered hp (exec_wrSd0Ovr s) hp.addrSd0
  · exact exec_chanWrite_answered hp (exec_wrSd1Ovr s) hp.addrSd1

end Sys2Proof.Machine
end

section
/-! PROOFS. The return to idle of spec/44_enable.md (R182): the block is not busy at `S_IDLE` (R26). -/

namespace Sys2Proof.Machine

theorem State.busy_of_idle {s : State} (h : s.pc = sIdle) : s.busy = false := by
  simp [State.busy, h]

/-- Settles O31: `FINISH` leaves `finished s`, whose STEP is `S_IDLE`. -/
theorem finishReturnsToIdle : Obligations.FinishReturnsToIdle := by
  refine fun s => ⟨exec_finish s, fun t ht => ?_⟩
  obtain rfl : finished s = t := Host.Outcome.next.inj ((exec_finish s).symm.trans ht)
  exact State.busy_of_idle (finished_pc s)

end Sys2Proof.Machine
end

section
/-! PROOFS. Raising the exception and being held (spec/60_exceptions.md R190, R194, R197, R205): a refused access of one
of the thirteen, a silent one, and that nothing else reaches `S_FAULT`. -/

namespace Sys2Proof.Machine

open Sys2Proof.Safety

/-! ### Refused and silent accesses -/

section Accessing

variable {i : Instr} {code : BitVec 5} (hi : (i, code) ∈ accessing) {s : State}
include hi

theorem exec_accessing_refused {c : Cause} (h : nextAnswer s = .refuse c) :
    exec i s = .next (afterRefusal code s) := by
  obtain ⟨q, hq, -⟩ := exec_accessing_cases hi s
  rw [exec_accessing hi hq]
  exact accessThen_refused (requestOf_isRegisterRequest hq) h

theorem exec_accessing_silent (h : nextAnswer s = .silent) : exec i s = .next { s with pc := code } := by
  obtain ⟨q, hq, -⟩ := exec_accessing_cases hi s
  rw [exec_accessing hi hq]
  exact accessThen_silent (requestOf_isRegisterRequest hq) h

/-- The faulting address follows from what the exception leaves in `FSTEP` and `CH` (R190). -/
theorem faultAddress_afterRefusal {q : Request} (hq : requestOf s i = some q) :
    faultAddress (afterRefusal code s) = some q.address := by
  have hsame : requestOf (afterRefusal code s) i = requestOf s i := by cases i <;> rfl
  simp [faultAddress, decodeStep_accessing hi, hsame, hq]

/-- Neither the step nor its successor is the idle or the fault state. -/
theorem accessing_busy_codes : code ≠ sIdle ∧ code ≠ sFaultCode ∧ code + 1#5 ≠ sFaultCode := by
  have all : ∀ e ∈ accessing, e.2 ≠ sIdle ∧ e.2 ≠ sFaultCode ∧ e.2 + 1#5 ≠ sFaultCode := by decide
  exact all _ hi

end Accessing

/-- Settles O43: the refused access leaves `afterRefusal`, from which the flags and the address are read. -/
theorem refusedAccessTakesTheException : Obligations.RefusedAccessTakesTheException := by
  intro i code s c hi hrefuse
  obtain ⟨q, hq, -⟩ := exec_accessing_cases hi s
  refine ⟨_, exec_accessing_refused hi hrefuse, rfl, rfl, rfl, fun hinv hpc => ?_, q, hq,
    faultAddress_afterRefusal hi hq⟩
  have hbusy : s.pc ≠ sIdle := hpc ▸ (accessing_busy_codes hi).1
  exact Bool.eq_false_iff.mpr fun hdone => hbusy (hinv.doneOnlyIdle hdone)

/-- Settles O47: the held step is the state itself, and the block alone repeats it. -/
theorem silentTargetHoldsTheBlock : Obligations.SilentTargetHoldsTheBlock := by
  intro i code s hi hpc hsilent
  have hheld : exec i s = .next s := by
    rw [exec_accessing_silent hi hsilent, ← hpc]
  obtain ⟨hidle, hfault, -⟩ := accessing_busy_codes hi
  refine ⟨hheld, by simp [State.busy, hpc, hidle, hfault], fun hlegal hturns k => ?_⟩
  have hstep : step s = .next s := (step_decoded hlegal hturns (hpc ▸ decodeStep_accessing hi)).trans hheld
  exact restsAt_of_stationary hstep 0 k k.zero_le

/-! ### Ways into the fault state -/

/-- One of the thirteen comes to `S_FAULT` by a refusal only, with its code in `FSTEP`. -/
theorem fstep_accessing {i : Instr} {code : BitVec 5} (hi : (i, code) ∈ accessing) {s t : State}
    (h : exec i s = .next t) (hfault : t.pc = sFaultCode) : t.fstep = code := by
  obtain ⟨-, hcode, hsucc⟩ := accessing_busy_codes hi
  rcases exec_accessing_ends hi h with ⟨q, x, -, -, rfl⟩ | ⟨-, rfl⟩ | ⟨-, rfl⟩
  · exact absurd hfault hsucc
  · rfl
  · exact absurd hfault hcode

/-- A micro-operation without an access is at `S_FAULT` afterwards only where it was before. -/
theorem faulted_before_registerOnly {i : Instr} {code : BitVec 5} (hi : (i, code) ∈ registerOnly) {s t : State}
    (h : exec i s = .next t) (hfault : t.pc = sFaultCode) : s.pc = sFaultCode := by
  revert h
  refine registerOnly_forall (P := fun i _ => exec i s = .next t → s.pc = sFaultCode)
    (accept := ?accept) (freqTest := ?freqTest) (divInit := ?divInit) (divStep := ?divStep) (fallback := ?fallback)
    (split := ?split) (dutyTest := ?dutyTest) (finish := ?finish) (sFault := ?sFault) hi
  all_goals intro h
  case accept =>
    rcases exec_accept_cases s with ⟨-, he⟩ | ⟨w, rest, -, ⟨-, he⟩ | ⟨-, he⟩⟩ <;> cases he.symm.trans h
    · exact hfault
    · cases hfault
  case divStep =>
    rcases exec_divStep_cases s with ⟨-, -, he⟩ | ⟨-, he⟩ <;> cases he.symm.trans h <;> cases hfault
  case fallback => cases (pc_fallback h).symm.trans hfault
  case freqTest | dutyTest =>
    cases h
    dsimp only at hfault
    split at hfault <;> cases hfault
  case sFault =>
    cases h
    exact hfault
  case divInit | split | finish =>
    cases h
    cases hfault

/-- At `S_FAULT` the code of one of the thirteen stands in `FSTEP`. -/
def FaultIsOfAnAccess (t : State) : Prop := t.pc = 31#5 → ∃ j, (j, t.fstep) ∈ accessing

theorem faultIsOfAnAccess_of_pc {t : State} (h : t.pc ≠ 31#5) : FaultIsOfAnAccess t := fun hpc => absurd hpc h

theorem faultIsOfAnAccess_finished (u : State) : FaultIsOfAnAccess (finished u) :=
  faultIsOfAnAccess_of_pc (by rw [finished_pc]; decide)

theorem faultIsOfAnAccess_phase {codes : List (BitVec 5)} (h : ∀ code ∈ codes, code ∈ accessing.map Prod.snd) :
    Phase (fun _ => True) FaultIsOfAnAccess codes where
  served _ _ _ _ _ := trivial
  noted _ _ _ := trivial
  refused _ _ code hcode _ := by
    obtain ⟨⟨j, code⟩, hj, rfl⟩ := List.mem_map.mp (h code hcode)
    exact ⟨j, hj⟩
  held _ _ code hcode _ := by
    obtain ⟨⟨j, code⟩, hj, rfl⟩ := List.mem_map.mp (h code hcode)
    exact faultIsOfAnAccess_of_pc (accessing_busy_codes hj).2.1

/-- A whole command comes to `S_FAULT` from another STEP by one of its accesses only. -/
theorem program_faultIsOfAnAccess {c : BitVec 2} {f : Word} {d : BitVec 7} {s : State} (hpc : s.pc ≠ 31#5) :
    Ends FaultIsOfAnAccess (program c f d s) :=
  program_ends (faultIsOfAnAccess_phase (by decide)) (faultIsOfAnAccess_phase (by decide))
    (waiting := fun _ => faultIsOfAnAccess_of_pc hpc) (latched := fun _ _ => trivial) (computed := fun _ _ => id)
    (off := fun u _ => faultIsOfAnAccess_finished u) (on := fun u _ => faultIsOfAnAccess_finished u)

theorem microOperation_cases {i : Instr} {code : BitVec 5} (h : codeWord i = .step code) :
    (i, code) ∈ accessing ∨ (i, code) ∈ registerOnly :=
  decodeStep_cases (decodeStep_eq_some_iff.mpr h)

/-- Settles O44: the commands by their accesses, the micro-operations by whether they perform one. -/
theorem onlyAccessesRaise : Obligations.OnlyAccessesRaise := by
  intro i s t h hfault hpc
  cases hi : codeWord i with
  | step code =>
    rcases microOperation_cases hi with hacc | hreg
    · exact .inl ⟨code, hacc, fstep_accessing hacc h hfault⟩
    · exact absurd (faulted_before_registerOnly hreg h hfault) hpc
  | cmd w =>
    cases i
    case pwmOff c d =>
      rw [exec_pwmOff] at h
      exact .inr ⟨.inl ⟨c, d, rfl⟩, program_faultIsOfAnAccess hpc t h hfault⟩
    case pwmSet c f d =>
      rw [exec_pwmSet] at h
      exact .inr ⟨.inr ⟨c, f, d, rfl⟩, program_faultIsOfAnAccess hpc t h hfault⟩
    case reserved => cases h
    all_goals cases hi

end Sys2Proof.Machine
end

section
/-! PROOFS. The fault state (spec/60_exceptions.md R198): while the block stands at `S_FAULT`, every turn short of reset
changes at most the Target, the trace and the commands that wait. -/

namespace Sys2Proof.Machine

open Sys2Proof.Safety

/-! ### Turns that leave the block alone -/

/-- From `s` to `t` nothing changes but the Target, the trace, the turn taken and commands that now wait behind those
that did. -/
def LeavesBlock (s t : State) : Prop :=
  t = { s with mem := t.mem, trace := t.trace, turns := t.turns, cmds := t.cmds } ∧ ∃ ws, t.cmds = s.cmds ++ ws

/-- What leaves even the waiting commands alone. -/
theorem leavesBlock_of_frame {s t : State}
    (h : t = { s with mem := t.mem, trace := t.trace, turns := t.turns }) : LeavesBlock s t := by
  have hcmds : t.cmds = s.cmds := by rw [h]
  exact ⟨by rw [hcmds]; exact h, [], by rw [hcmds, List.append_nil]⟩

theorem leavesBlock_refl (s : State) : LeavesBlock s s := leavesBlock_of_frame rfl

theorem leavesBlock_waits (w : BitVec 41) (s : State) : LeavesBlock s (waits w s) := ⟨rfl, [w], rfl⟩

theorem leavesBlock_perform (q : Request) (given : Option Word) (s : State) :
    LeavesBlock s (perform q given s).2 := by
  refine leavesBlock_of_frame ?_
  unfold perform
  cases q.write <;> rfl

theorem LeavesBlock.sameRegisters {s t : State} (h : LeavesBlock s t) : SameRegisters t s ∧ t.pc = s.pc := by
  rw [h.1]
  exact ⟨⟨rfl, rfl, rfl, rfl, rfl, rfl, rfl, rfl, rfl, rfl, rfl⟩, rfl⟩

/-! ### Every agent's turn -/

theorem blockTurn_fault {s : State} (hpc : s.pc = sFaultCode) : blockTurn s = .next s :=
  (blockTurn_decoded (by rw [hpc]; rfl)).trans (exec_sFault s)

/-- Away from `S_IDLE` a command waits or is refused. -/
theorem leavesBlock_program {s : State} (hpc : s.pc ≠ sIdle) (c : BitVec 2) (f : Word) (d : BitVec 7) :
    Ends (LeavesBlock s) (program c f d s) := by
  cases hr : reservedOperands f d with
  | true =>
    rw [program, hr]
    exact nofun
  | false =>
    rw [program_waits hr hpc]
    exact ends_next (leavesBlock_waits _ s)

theorem leavesBlock_call {s : State} (hpc : s.pc ≠ sIdle) (w : BitVec 41) :
    Ends (LeavesBlock s) (callTurn w s) := by
  unfold callTurn decodeCmd
  split
  · exact leavesBlock_program hpc (cmdChannel w) 0#32 (cmdDuty w)
  · split
    · exact leavesBlock_program hpc (cmdChannel w) (cmdFrequency w) (cmdDuty w)
    · exact nofun

theorem leavesBlock_line (operands : List (List Char)) (s : State) :
    Ends (LeavesBlock s) (lineTurn operands s) := by
  unfold lineTurn
  split
  · exact ends_next (leavesBlock_waits _ s)
  · exact ends_next (leavesBlock_refl s)

theorem leavesBlock_otherWrite (a v : Word) (s : State) : Ends (LeavesBlock s) (otherWriteTurn a v s) := by
  unfold otherWriteTurn
  split
  · exact nofun
  · exact ends_next (leavesBlock_of_frame rfl)

theorem leavesBlock_otherRead (a x : Word) (s : State) : Ends (LeavesBlock s) (otherReadTurn a x s) := by
  unfold otherReadTurn
  split
  · exact nofun
  · exact ends_next (leavesBlock_of_frame rfl)

theorem leavesBlock_otherAccess (q : Request) (given : Option Word) (s : State) :
    Ends (LeavesBlock s) (otherAccessTurn q given s) := by
  unfold otherAccessTurn
  split
  · exact nofun
  · exact ends_next (leavesBlock_perform q given s)

/-- At `S_FAULT` every turn but a reset leaves the block alone. -/
theorem leavesBlock_takeTurn {s : State} (hpc : s.pc = sFaultCode)
    (hreset : ∀ landed rest, s.turns ≠ .reset landed :: rest) : Ends (LeavesBlock s) (takeTurn s) := by
  have hbusy : s.pc ≠ sIdle := by
    rw [hpc]
    decide
  unfold takeTurn
  split
  · rw [blockTurn_fault hpc]
    exact ends_next (leavesBlock_refl s)
  · next rest _ =>
    rw [blockTurn_fault (s := { s with turns := rest }) hpc]
    exact ends_next (leavesBlock_of_frame rfl)
  · next rest _ => exact leavesBlock_call (s := { s with turns := rest }) hbusy _
  · exact ends_next (leavesBlock_waits _ _)
  · exact leavesBlock_line _ _
  · exact leavesBlock_otherWrite _ _ _
  · exact leavesBlock_otherRead _ _ _
  · exact leavesBlock_otherAccess _ _ _
  · exact ends_next (leavesBlock_of_frame rfl)
  · next landed rest hturns => exact absurd hturns (hreset landed rest)

theorem legal_of_step {s t : State} (h : step s = .next t) : s.par.legal = true := by
  by_contra hlegal
  rw [step_illegalParameters (Bool.eq_false_iff.mpr hlegal)] at h
  cases h

/-- Settles O45: every agent's turn leaves the block alone, and the block's own is `S_FAULT`. -/
theorem faultStateIsAbsorbing : Obligations.FaultStateIsAbsorbing := by
  intro s hpc
  refine ⟨exec_sFault s, fun t ht hreset => ?_⟩
  have hlegal := legal_of_step ht
  have hleaves : LeavesBlock s t := leavesBlock_takeTurn hpc hreset t ((step_legal hlegal).symm.trans ht)
  obtain ⟨hsame, hstay⟩ := hleaves.sameRegisters
  refine ⟨hsame, hstay.trans hpc, ?_, hleaves.2, fun hacts => ?_⟩
  · rw [hleaves.1]
  · rw [step_blockActs hlegal hacts, blockTurn_fault (s := { s with turns := s.turns.tail }) hpc] at ht
    exact (Host.Outcome.next.inj ht).symm

end Sys2Proof.Machine
end

section
/-! PROOFS. The calculator completes on every state (spec/60_exceptions.md R194): no step of it asks anything of the
registers, so that none can end otherwise. -/

namespace Sys2Proof.Machine

/-- Settles O21: each of the four by the cases of its meaning, which leave nothing out. -/
theorem calculatorAlwaysCompletes : Obligations.CalculatorAlwaysCompletes := by
  intro s i hi
  simp only [List.mem_cons, List.not_mem_nil, or_false] at hi
  rcases hi with rfl | rfl | rfl | rfl
  · exact ⟨_, exec_divInit s, by simp, rfl, rfl⟩
  · rcases exec_divStep_cases s with ⟨-, -, he⟩ | ⟨-, he⟩ <;> exact ⟨_, he, by simp, rfl, rfl⟩
  · rcases exec_fallback_cases s with ⟨-, he⟩ | ⟨-, he⟩ <;> exact ⟨_, he, by simp, rfl, rfl⟩
  · exact ⟨_, exec_split s, by simp, rfl, rfl⟩

end Sys2Proof.Machine
end

section
/-! PROOFS. What a faulted `PWM.SET` leaves (spec/60_exceptions.md R190, R197, R199): the writes issued before the
faulting step are done, in order, and no other. The STEP codes of a command's writes ascend, so these are the writes
whose codes lie below `FSTEP`. -/

namespace Sys2Proof.Machine

open Sys2Proof.Safety

/-! ### The writes before a step -/

/-- The codes of the writes ascend from `n` on and stay below `m`. -/
def Ascends : Nat → List (BitVec 5 × Reg × Word) → Nat → Prop
  | n, [], m => n ≤ m
  | n, (code, _, _) :: steps, m => n ≤ code.toNat ∧ Ascends (code.toNat + 1) steps m

theorem Ascends.le {n m : Nat} {steps : List (BitVec 5 × Reg × Word)} (h : Ascends n steps m) : n ≤ m := by
  induction steps generalizing n with
  | nil => exact h
  | cons step steps ih =>
    obtain ⟨hcode, hrest⟩ := h
    have := ih hrest
    omega

/-- Of a list of writes with their STEP codes, those whose code is below `n`. -/
def writesBefore (n : Nat) (steps : List (BitVec 5 × Reg × Word)) : List (Reg × Word) :=
  (steps.filter fun step => decide (step.1.toNat < n)).map Prod.snd

theorem writesBefore_cons_before {n : Nat} {code : BitVec 5} (h : code.toNat < n) (w : Reg × Word)
    (steps : List (BitVec 5 × Reg × Word)) : writesBefore n ((code, w) :: steps) = w :: writesBefore n steps := by
  simp [writesBefore, h]

theorem writesBefore_cons_after {n : Nat} {code : BitVec 5} (h : n ≤ code.toNat) (w : Reg × Word)
    (steps : List (BitVec 5 × Reg × Word)) : writesBefore n ((code, w) :: steps) = writesBefore n steps := by
  simp [writesBefore, h]

/-- Before the first code there is none. -/
theorem Ascends.writesBefore_eq_nil {n m j : Nat} {steps : List (BitVec 5 × Reg × Word)} (h : Ascends n steps m)
    (hj : j ≤ n) : writesBefore j steps = [] := by
  induction steps generalizing n with
  | nil => rfl
  | cons step steps ih =>
    obtain ⟨hcode, hrest⟩ := h
    rw [writesBefore_cons_after (hj.trans hcode)]
    exact ih hrest (by omega)

/-! ### A fault among a list of writes -/

/-- The state `t` is what a fault leaves of `s` where the writes `steps` were to be done: those before the faulting step
are done, and no other. -/
structure FaultLeaves (steps : List (BitVec 5 × Reg × Word)) (s t : State) : Prop where
  done : t.done = s.done
  par : t.par = s.par
  mem : t.mem = s.mem.putRegs s.par (writesBefore t.fstep.toNat steps)

/-- Where `x` is a state at `S_FAULT`, it is what a fault at the code `n` or a later one leaves. -/
def FaultsLeaving (n : Nat) (steps : List (BitVec 5 × Reg × Word)) (s : State) (x : Result) : Prop :=
  Ends (fun t => t.pc = 31#5 → n ≤ t.fstep.toNat ∧ FaultLeaves steps s t) x

/-- One write more before. -/
theorem FaultLeaves.before {steps : List (BitVec 5 × Reg × Word)} {s t : State} {code : BitVec 5} {r : Reg}
    {v x : Word} (h : FaultLeaves steps (afterWrite (regAddr s.par r) v x s) t) (hcode : code.toNat < t.fstep.toNat) :
    FaultLeaves ((code, r, v) :: steps) s t where
  done := h.done
  par := h.par
  mem := by
    rw [writesBefore_cons_before hcode, h.mem]
    rfl

/-- All that an access followed by `k` can do, for what holds of every next state. -/
theorem ends_accessThen {P : State → Prop} {q : Request} {s : State} (hq : IsRegisterRequest s.par q)
    {code : BitVec 5} {k : Word → State → Result} (refused : P (afterRefusal code s)) (held : P { s with pc := code })
    (served : ∀ x, Ends P (k x (afterAccess q x s))) : Ends P (accessThen code q s k) := by
  rcases accessThen_cases hq code k with ⟨x, -, h⟩ | ⟨-, h⟩ | ⟨-, h⟩ <;> rw [h]
  · exact served x
  · exact ends_next refused
  · exact ends_next held

/-- A step that is refused where none of the writes has been done. -/
theorem faultLeaves_afterRefusal {m : Nat} {steps : List (BitVec 5 × Reg × Word)} {code : BitVec 5}
    (h : Ascends code.toNat steps m) (s : State) : FaultLeaves steps s (afterRefusal code s) :=
  ⟨rfl, rfl, (congrArg (Memory.putRegs s.par s.mem) (h.writesBefore_eq_nil le_rfl)).symm⟩

theorem ne_fault_of_lt {code : BitVec 5} (h : code.toNat < 31) : code ≠ 31#5 := by
  rintro rfl
  simp at h

theorem faultsLeaving_putThen {n m : Nat} {steps : List (BitVec 5 × Reg × Word)} {code : BitVec 5} {r : Reg}
    {v : Word} {s : State} {k : State → Result} (hsteps : Ascends n ((code, r, v) :: steps) m) (hm : m ≤ 31)
    (hk : ∀ x, FaultsLeaving (code.toNat + 1) steps (afterWrite (regAddr s.par r) v x s)
      (k (afterWrite (regAddr s.par r) v x s))) :
    FaultsLeaving n ((code, r, v) :: steps) s (putThen code r v s k) := by
  obtain ⟨hn, hrest⟩ := hsteps
  refine ends_accessThen ⟨r, .inr ⟨v, rfl⟩⟩ (fun _ => ⟨hn, ?_⟩) (fun hpc => ?_) fun x t ht hpc => ?_
  · exact faultLeaves_afterRefusal (steps := (code, r, v) :: steps) ⟨le_rfl, hrest⟩ s
  · exact absurd hpc (ne_fault_of_lt (hrest.le.trans hm))
  · obtain ⟨hfrom, hleaves⟩ := hk x t ht hpc
    exact ⟨hn.trans (Nat.le_of_lt hfrom), hleaves.before hfrom⟩

theorem faultsLeaving_writeAll {m : Nat} {k : State → Result} (hk : ∀ u, FaultsLeaving m [] u (k u)) (hm : m ≤ 31)
    {n : Nat} {steps : List (BitVec 5 × Reg × Word)} (hsteps : Ascends n steps m) (s : State) :
    FaultsLeaving n steps s (writeAll steps k s) := by
  induction steps generalizing n s with
  | nil =>
    intro t ht hpc
    obtain ⟨hfrom, hleaves⟩ := hk s t ht hpc
    exact ⟨hsteps.le.trans hfrom, hleaves⟩
  | cons step steps ih => exact faultsLeaving_putThen hsteps hm fun x => ih hsteps.2 _

/-! ### A faulted `PWM.SET` -/

theorem ascends_setSteps (p : Config.Params) (c : BitVec 2) (f : Word) (d : BitVec 7) :
    Ascends 3 (setSteps p c f d) 18 := by
  unfold setSteps overrideSteps
  split <;> simp [Ascends]

/-- Neither access of the enabling leaves a write behind where it faults (R112 step 8). -/
theorem faultsLeaving_enable (w : State) :
    FaultsLeaving 18 [] w (enableThen w fun z => .next (finished z)) := by
  have hcodes : 18 ≤ sEnRd2.toNat ∧ 18 ≤ sEnSet.toNat := by decide
  refine ends_accessThen ⟨.en, .inl rfl⟩ (fun _ => ⟨hcodes.1, ⟨rfl, rfl, rfl⟩⟩) nofun fun e => ?_
  refine ends_accessThen ⟨.en, .inr ⟨_, rfl⟩⟩ (fun _ => ⟨hcodes.2, ⟨rfl, rfl, rfl⟩⟩) nofun fun x => ?_
  exact ends_next nofun

/-- Steps 3 to 8 of a `PWM.SET` (R112). -/
def setTail (u : State) : Result :=
  writeAll (setSteps u.par u.ch u.freq u.duty) (fun w => enableThen w fun z => .next (finished z)) (compute u)

theorem faultsLeaving_setTail (u : State) :
    FaultsLeaving 3 (setSteps u.par u.ch u.freq u.duty) u (setTail u) := by
  intro t ht hpc
  have hwrites := faultsLeaving_writeAll faultsLeaving_enable (by decide)
    (ascends_setSteps u.par u.ch u.freq u.duty) (compute u)
  obtain ⟨hfrom, hdone, hpar, hmem⟩ := hwrites t ht hpc
  exact ⟨hfrom, hdone, hpar, hmem⟩

/-- The writes of a `PWM.SET` up to its enabling, where its first read of Global Enable gave `e`. -/
def stepsFrom (e : Word) (p : Config.Params) (c : BitVec 2) (f : Word) (d : BitVec 7) :
    List (BitVec 5 × Reg × Word) :=
  (sEnClr, .en, clearEnable e c) :: setSteps p c f d

theorem ascends_stepsFrom (e : Word) (p : Config.Params) (c : BitVec 2) (f : Word) (d : BitVec 7) :
    Ascends 2 (stepsFrom e p c f d) 18 :=
  ⟨le_rfl, ascends_setSteps p c f d⟩

/-- A faulted `PWM.SET` leaves the writes whose codes lie below `FSTEP`. -/
theorem faultLeaves_pwmSet {c : BitVec 2} {f : Word} {d : BitVec 7} {s : State} (hpc : s.pc = sIdle)
    (hf : f ≠ 0#32) (hd : d.toNat ≤ 100) :
    Ends (fun t => t.pc = 31#5 → ∃ e, FaultLeaves (stepsFrom e s.par c f d) (latch c f d s) t)
      (exec (.pwmSet c f d) s) := by
  rw [exec_pwmSet_idle hpc hf hd]
  refine ends_accessThen ⟨.en, .inl rfl⟩ (fun _ => ⟨0#32, ?_⟩) nofun fun e t ht hfault => ⟨e, ?_⟩
  · have hnone : writesBefore 1 (stepsFrom 0#32 s.par c f d) = [] :=
      (ascends_stepsFrom 0#32 s.par c f d).writesBefore_eq_nil (by decide)
    exact ⟨rfl, rfl, congrArg (Memory.putRegs s.par s.mem) hnone.symm⟩
  · have hwrites : FaultsLeaving 2 (stepsFrom e s.par c f d) (afterReadEn e (latch c f d s))
        (putThen sEnClr .en (clearEnable e c) (afterReadEn e (latch c f d s)) setTail) :=
      faultsLeaving_putThen (ascends_stepsFrom e s.par c f d) (by decide) fun _ => faultsLeaving_setTail _
    obtain ⟨-, hdone, hpar, hmem⟩ := hwrites t ht hfault
    exact ⟨hdone, hpar, hmem⟩

/-! ### The registers after a fault -/

/-- What a register that held `w` holds where of the writes those with a code below `n` are done. -/
def wordAt (n : Nat) (r : Reg) : List (BitVec 5 × Reg × Word) → Word → Word
  | [], w => w
  | (code, q, v) :: steps, w => wordAt n r steps (if r = q then if n ≤ code.toNat then w else v else w)

theorem word_writesBefore {p : Config.Params} (hp : p.AsPrinted) (n : Nat) (r : Reg)
    (steps : List (BitVec 5 × Reg × Word)) (m : Memory) :
    (m.putRegs p (writesBefore n steps)).word (regAddr p r) = wordAt n r steps (m.word (regAddr p r)) := by
  induction steps generalizing m with
  | nil => rfl
  | cons step steps ih =>
    obtain ⟨code, q, v⟩ := step
    by_cases h : n ≤ code.toNat
    · rw [writesBefore_cons_after h, ih, wordAt, if_pos h, ite_self]
    · rw [writesBefore_cons_before (not_le.mp h), Memory.putRegs, ih, word_putWord_reg hp, wordAt, if_neg h]

/-- The word that a register of the channel holds after a fault at step `n`, where it held `w` (R199). -/
def faultWord (p : Config.Params) (f : Word) (d : BitVec 7) (n : Nat) (w : Word) : ChanReg → Word
  | .con => if n ≤ 8 then w else controlWord p (timing p f).mode (timing p f).div
  | .hdur => if n ≤ 9 then w else splitHigh (timing p f).dur d
  | .ldur => if n ≤ 10 then w else splitLow (timing p f).dur d
  | .gdur => if n ≤ 11 then w else 0#32
  | .sd0 => if n ≤ 12 then w else if n ≤ 16 then p.sendPattern else configuredWord p f d .sd0
  | .sd1 => if n ≤ 13 then w else if n ≤ 17 then p.sendPattern else configuredWord p f d .sd1
  | .wavenum => if n ≤ 14 then w else 0#32

/-- Two writes to one register: the later one counts where it is done. -/
theorem ite_le_ite_le {a b n : Nat} (h : a ≤ b) (w v u : Word) :
    (if n ≤ b then if n ≤ a then w else v else u) = if n ≤ a then w else if n ≤ b then v else u := by
  split_ifs
  · rfl
  · rfl
  · omega
  · rfl

theorem configuredWord_of_overrides {p : Config.Params} (hp : p.AsPrinted) {d : BitVec 7} (h : d = 0#7 ∨ d = 100#7)
    (f : Word) : configuredWord p f d .sd0 = overrideWord p d ∧ configuredWord p f d .sd1 = overrideWord p d := by
  rw [overrideWord_eq hp]
  rcases h with rfl | rfl <;> exact ⟨rfl, rfl⟩

theorem wordAt_setSteps {p : Config.Params} (hp : p.AsPrinted) (c : BitVec 2) (f : Word) (d : BitVec 7) (n : Nat)
    (k : ChanReg) (w : Word) : wordAt n (.chan k c) (setSteps p c f d) w = faultWord p f d n w k := by
  unfold setSteps overrideSteps
  by_cases h : d = 0#7 ∨ d = 100#7
  · obtain ⟨h₀, h₁⟩ := configuredWord_of_overrides hp h f
    rw [if_pos ((overrides_iff d).mpr h)]
    cases k <;> simp [wordAt, faultWord, h₀, h₁, ite_le_ite_le, hp.guardValue, hp.wavenumValue]
  · obtain ⟨h₀, h₁⟩ := not_or.mp h
    rw [if_neg (mt (overrides_iff d).mp h)]
    cases k <;> simp [wordAt, faultWord, configuredWord, h₀, h₁, hp.guardValue, hp.wavenumValue]

/-- No write of the configuration is to Global Enable. -/
theorem wordAt_setSteps_en (p : Config.Params) (c : BitVec 2) (f : Word) (d : BitVec 7) (n : Nat) (w : Word) :
    wordAt n .en (setSteps p c f d) w = w := by
  unfold setSteps overrideSteps
  split <;> simp [wordAt]

section Leaves

variable {c : BitVec 2} {f : Word} {d : BitVec 7} {e : Word} {s t : State} (hp : s.par.AsPrinted)
  (h : FaultLeaves (stepsFrom e s.par c f d) (latch c f d s) t)
include hp h

theorem FaultLeaves.reg (r : Reg) :
    t.reg r = wordAt t.fstep.toNat r (stepsFrom e s.par c f d) (s.reg r) := by
  rw [State.reg, h.par, h.mem]
  exact word_writesBefore hp _ r _ _

theorem FaultLeaves.reg_en (hn : 2 < t.fstep.toNat) : t.reg .en = clearEnable e c := by
  have hdone : ¬ t.fstep.toNat ≤ sEnClr.toNat := not_le.mpr hn
  rw [h.reg hp, stepsFrom, wordAt, wordAt_setSteps_en, if_pos rfl, if_neg hdone]

theorem FaultLeaves.reg_chan (k : ChanReg) :
    t.reg (.chan k c) = faultWord s.par f d t.fstep.toNat (s.reg (.chan k c)) k := by
  rw [h.reg hp, stepsFrom, wordAt, wordAt_setSteps hp, if_neg (by simp)]

end Leaves

/-- Settles O46: the writes whose codes lie below `FSTEP`, register by register. -/
theorem faultLeavesTheTable : Obligations.FaultLeavesTheTable := by
  intro c f d s t hp hpc hf hd ht hfault
  obtain ⟨e, h⟩ := faultLeaves_pwmSet hpc hf hd t ht hfault
  refine ⟨h.done, fun hn a => ?_, fun hn => ?_, h.reg_chan hp .con, h.reg_chan hp .hdur, h.reg_chan hp .ldur,
    h.reg_chan hp .gdur, h.reg_chan hp .sd0, h.reg_chan hp .sd1, h.reg_chan hp .wavenum⟩
  · rw [h.mem, (ascends_stepsFrom e s.par c f d).writesBefore_eq_nil hn]
    rfl
  · rw [h.reg_en hp hn]
    exact clearEnable_bit e c

end Sys2Proof.Machine
end

section
/-! PROOFS. How long a served command takes (spec/70_reset_and_hazards.md R233): its steps and its accesses, counted
backwards along the STEP codes from `FINISH` to `EN_RD1`. -/

namespace Sys2Proof.Machine

open Sys2Proof.Safety

/-! ### Runs that complete -/

/-- The run from `s` completes after `least` to `most` steps, busy until then, and takes the next `used` answers. -/
def CompletesIn (least most used : Nat) (s : State) : Prop :=
  ∃ n t, least ≤ n ∧ n ≤ most ∧ run n s = .next t ∧ Completed t ∧ t.answers = s.answers.drop used ∧
    ∀ m < n, ∃ u, run m s = .next u ∧ u.busy = true

theorem CompletesIn.mono {least least' most most' used : Nat} {s : State} (h : CompletesIn least most used s)
    (hleast : least' ≤ least) (hmost : most ≤ most') : CompletesIn least' most' used s := by
  obtain ⟨n, t, hn, hn', hrest⟩ := h
  exact ⟨n, t, hleast.trans hn, hn'.trans hmost, hrest⟩

theorem completesIn_of_completed {s : State} (h : Completed s) : CompletesIn 0 0 0 s :=
  ⟨0, s, le_rfl, le_rfl, rfl, h, rfl, nofun⟩

/-- One more busy step before, which takes `taken` answers. -/
theorem CompletesIn.before {least most used taken : Nat} {s t : State} (h : CompletesIn least most used t)
    (hbusy : s.busy = true) (hstep : step s = .next t) (htaken : t.answers = s.answers.drop taken) :
    CompletesIn (least + 1) (most + 1) (used + taken) s := by
  obtain ⟨n, v, hleast, hmost, hrun, hdone, hanswers, hbetween⟩ := h
  refine ⟨n + 1, v, Nat.succ_le_succ hleast, Nat.succ_le_succ hmost, (run_succ_of_step hstep n).trans hrun, hdone,
    ?_, ?_⟩
  · rw [hanswers, htaken, List.drop_drop, Nat.add_comm]
  · rintro (_ | m) hm
    · exact ⟨s, rfl, hbusy⟩
    · rw [run_succ_of_step hstep]
      exact hbetween m (Nat.lt_of_succ_lt_succ hm)

/-! ### A served command, step by step -/

/-- The block alone acts on a command with frequency `f` and duty `d`, and no answer refuses or stays silent. -/
structure Serving (f : Word) (d : BitVec 7) (s : State) : Prop where
  alone : Alone f s
  duty : s.duty = d
  serves : AllServe s.answers

/-- From STEP at `code` a served command completes within these bounds, whatever state it comes with. -/
def CompletesFrom (f : Word) (d : BitVec 7) (least most used : Nat) (code : BitVec 5) : Prop :=
  ∀ u, Serving f d u → CompletesIn least most used { u with pc := code }

section Serving

variable {f : Word} {d : BitVec 7} {least most used : Nat} {u : State}

/-- What keeps the parameters, the inputs and the command's operands leaves the command served. -/
theorem Serving.of_same {v : State} (hu : Serving f d u) (hpar : v.par = u.par) (hturns : v.turns = u.turns)
    (hcmds : v.cmds = u.cmds) (hfreq : v.freq = u.freq) (hduty : v.duty = u.duty) (hanswers : v.answers = u.answers) :
    Serving f d v :=
  ⟨hu.alone.of_same hpar hturns hcmds hfreq, hduty.trans hu.duty, hanswers ▸ hu.serves⟩

theorem Serving.afterAccess (hu : Serving f d u) (q : Request) (x : Word) : Serving f d (afterAccess q x u) where
  alone := hu.alone.afterAccess q x
  duty := (afterAccess_duty q x u).trans hu.duty
  serves := afterAccess_answers q x u ▸ allServe_tail hu.serves

/-- A micro-operation without an access, before what the run completes from. -/
theorem Serving.before {v : State} {i : Instr} {code next : BitVec 5} (hu : Serving f d u)
    (h : CompletesIn least most used { v with pc := next }) (hcode : decodeStep code = some i)
    (hbusy : ({ u with pc := code } : State).busy = true)
    (hexec : exec i { u with pc := code } = .next { v with pc := next }) (hanswers : v.answers = u.answers) :
    CompletesIn (least + 1) (most + 1) used { u with pc := code } :=
  h.before (taken := 0) hbusy ((hu.alone.step_at hcode).trans hexec) hanswers

/-- One of the thirteen micro-operations with an access. -/
theorem CompletesFrom.access {i : Instr} {code : BitVec 5} (hi : (i, code) ∈ accessing)
    (h : CompletesFrom f d least most used (code + 1#5)) :
    CompletesFrom f d (least + 1) (most + 1) (used + 1) code := by
  intro u hu
  obtain ⟨q, hq, -⟩ := exec_accessing_cases hi { u with pc := code }
  obtain ⟨x, hx⟩ := allServe_given hu.serves (storedFor q u)
  obtain ⟨hidle, hfault, -⟩ := accessing_busy_codes hi
  have hbusy : ({ u with pc := code } : State).busy = true := by simp [State.busy, hidle, hfault]
  have hnext : Serving f d { afterAccess q x u with entmp := if q.write then u.entmp else x } :=
    (hu.afterAccess q x).of_same rfl rfl rfl rfl rfl rfl
  refine (h _ hnext).before (taken := 1) hbusy ?_ ((afterAccess_answers q x u).trans List.drop_one.symm)
  rw [hu.alone.step_at (decodeStep_accessing hi), exec_accessing hi hq,
    accessThen_served (s := { u with pc := code }) (requestOf_isRegisterRequest hq) hx]
  unfold Machine.afterAccess
  split <;> rfl

theorem completesFrom_finish : CompletesFrom f d 1 1 0 sFinish :=
  fun u hu => hu.before (v := finished u) (completesIn_of_completed ⟨rfl, rfl⟩) rfl rfl rfl rfl

/-- Step 7: the test, and the two overrides at duty 0 and 100. -/
theorem CompletesFrom.dutyTest (h : CompletesFrom f d least most used sEnRd2) :
    CompletesFrom f d (least + 1) (most + 3) (if d = 0#7 ∨ d = 100#7 then used + 2 else used) sDutyTest := by
  intro u hu
  have htest := exec_dutyTest { u with pc := sDutyTest }
  split
  · next hd =>
    rw [if_pos ((overrides_iff _).mpr (hu.duty ▸ hd))] at htest
    have hoverrides : CompletesFrom f d (least + 2) (most + 2) (used + 2) sWrSd0Ovr :=
      .access (i := .wrSd0Ovr) (by decide) (.access (i := .wrSd1Ovr) (by decide) h)
    exact (hu.before (hoverrides u hu) rfl rfl htest rfl).mono (by omega) le_rfl
  · next hd =>
    rw [if_neg (mt (overrides_iff _).mp (hu.duty ▸ hd))] at htest
    exact (hu.before (h u hu) rfl rfl htest rfl).mono le_rfl (by omega)

/-- Step 6: the seven writes. -/
theorem CompletesFrom.configure (h : CompletesFrom f d least most used sDutyTest) :
    CompletesFrom f d (least + 7) (most + 7) (used + 7) sWrCon := by
  refine .access (i := .wrCon) (by decide) ?_
  refine .access (i := .wrHdur) (by decide) ?_
  refine .access (i := .wrLdur) (by decide) ?_
  refine .access (i := .wrGdur) (by decide) ?_
  refine .access (i := .wrSd0) (by decide) ?_
  refine .access (i := .wrSd1) (by decide) ?_
  exact .access (i := .wrWavenum) (by decide) h

/-- The search: at most one step for each divider left, and one to leave it. -/
theorem CompletesFrom.search (h : CompletesFrom f d least most used sFallback) (left : Nat) {u : State}
    (hu : Serving f d u) (hleft : u.par.maxDiv.toNat ≤ u.div.toNat + left) :
    CompletesIn (least + 1) (most + left + 1) used { u with pc := sDivStep } := by
  induction left generalizing u with
  | zero =>
    rcases exec_divStep_cases { u with pc := sDivStep } with ⟨-, hdiv, -⟩ | ⟨-, he⟩
    · exact absurd hdiv (not_lt.mpr hleft)
    · exact hu.before (h u hu) rfl rfl he rfl
  | succ left ih =>
    rcases exec_divStep_cases { u with pc := sDivStep } with ⟨-, hdiv, he⟩ | ⟨-, he⟩
    · have hmax := u.par.maxDiv.isLt
      have hnext : (u.div + 1#3).toNat = u.div.toNat + 1 := by bv_omega
      have hraised : Serving f d
          { u with div := u.div + 1#3, dur := fastDuration u.par u.freq (u.div.toNat + 1) } :=
        hu.of_same rfl rfl rfl rfl rfl rfl
      exact (hu.before (ih hraised (by dsimp only; omega)) rfl rfl he rfl).mono (by omega) le_rfl
    · exact (hu.before (h u hu) rfl rfl he rfl).mono le_rfl (by omega)

/-- Steps 3 to 5: the calculator, with up to 8 steps in the search. -/
theorem CompletesFrom.compute (h : CompletesFrom f d least most used sWrCon) :
    CompletesFrom f d (least + 4) (most + 11) used sDivInit := by
  have hsplit : CompletesFrom f d (least + 1) (most + 1) used sSplit := fun u hu =>
    hu.before (v := phased u) (h _ (hu.of_same rfl rfl rfl rfl rfl rfl)) rfl rfl rfl rfl
  have hfallback : CompletesFrom f d (least + 2) (most + 2) used sFallback := by
    intro u hu
    rcases exec_fallback_cases { u with pc := sFallback } with ⟨-, he⟩ | ⟨-, he⟩
    · have hslow : Serving f d { u with clksel := .slow, div := 0#3, dur := slowDuration u.par u.freq } :=
        hu.of_same rfl rfl rfl rfl rfl rfl
      exact hu.before (hsplit _ hslow) rfl rfl he rfl
    · exact hu.before (hsplit u hu) rfl rfl he rfl
  intro u hu
  have hmax : u.par.maxDiv.toNat ≤ 7 := Nat.lt_succ_iff.mp u.par.maxDiv.isLt
  have hstarted : Serving f d (searchStarted u) := hu.of_same rfl rfl rfl rfl rfl rfl
  have hsearch := hfallback.search 7 hstarted (hmax.trans (Nat.le_add_left _ _))
  exact hu.before (v := searchStarted u) hsearch rfl rfl rfl rfl

/-- Step 1: the read and the write of Global Enable. -/
theorem CompletesFrom.disable (h : CompletesFrom f d least most used sFreqTest) :
    CompletesFrom f d (least + 2) (most + 2) (used + 2) sEnRd1 :=
  .access (i := .enRd1) (by decide) (.access (i := .enClr) (by decide) h)

/-- After `ACCEPT` a served `PWM.OFF` takes 4 steps. -/
theorem completesFrom_off : CompletesFrom 0#32 d 4 4 2 sEnRd1 := by
  have htest : CompletesFrom 0#32 d 2 2 0 sFreqTest := fun u hu =>
    hu.before (completesFrom_finish u hu) rfl rfl (exec_freqTest_zero hu.alone.freq) rfl
  exact htest.disable

/-- After `ACCEPT` a served `PWM.SET` takes 18 to 27 steps. -/
theorem completesFrom_set (hf : f ≠ 0#32) :
    CompletesFrom f d 18 27 (if d = 0#7 ∨ d = 100#7 then 13 else 11) sEnRd1 := by
  have henable : CompletesFrom f d 3 3 2 sEnRd2 :=
    .access (i := .enRd2) (by decide) (.access (i := .enSet) (by decide) completesFrom_finish)
  have hcompute : CompletesFrom f d 15 24 ((if d = 0#7 ∨ d = 100#7 then 4 else 2) + 7) sDivInit :=
    henable.dutyTest.configure.compute
  have htest : CompletesFrom f d 16 25 ((if d = 0#7 ∨ d = 100#7 then 4 else 2) + 7) sFreqTest := fun u hu =>
    hu.before (hcompute u hu) rfl rfl (exec_freqTest_nonzero (hu.alone.freq ▸ hf)) rfl
  have hrun := htest.disable
  rwa [apply_ite (· + 7), apply_ite (· + 2)] at hrun

end Serving

/-- After `ACCEPT` a served command takes 4 to 27 steps. -/
theorem completesFrom_enRd1 (f : Word) (d : BitVec 7) :
    CompletesFrom f d 4 27 (if f = 0#32 then 2 else if d = 0#7 ∨ d = 100#7 then 13 else 11) sEnRd1 := by
  intro u hu
  by_cases hf : f = 0#32
  · subst hf
    rw [if_pos rfl]
    exact (completesFrom_off u hu).mono le_rfl (by decide)
  · rw [if_neg hf]
    exact (completesFrom_set hf u hu).mono (by decide) le_rfl

/-- Settles O37: `ACCEPT` latches the word, and the served run from `S_EN_RD1` is counted. -/
theorem commandsCompleteWithinTwentyEightSteps : Obligations.CommandsCompleteWithinTwentyEightSteps := by
  intro s w hlegal hpc hturns hcmds hw hserve
  have hr : reservedOperands (cmdFrequency w) (cmdDuty w) = false :=
    (reservedOperands_eq_false_iff _ _).mpr hw.resolve_left
  have haccept : step s = .next (latch (cmdChannel w) (cmdFrequency w) (cmdDuty w) { s with cmds := [] }) :=
    (step_decoded hlegal hturns (by rw [hpc]; rfl)).trans (accept_taken hcmds hr)
  have hlatched : Serving (cmdFrequency w) (cmdDuty w)
      (latch (cmdChannel w) (cmdFrequency w) (cmdDuty w) { s with cmds := [] }) :=
    ⟨⟨hlegal, hturns, rfl, rfl⟩, rfl, hserve⟩
  obtain ⟨n, t, hleast, hmost, hrun, hdone, hanswers, hbetween⟩ := completesFrom_enRd1 _ _ _ hlatched
  refine ⟨n + 1, t, Nat.succ_le_succ hleast, Nat.succ_le_succ hmost, (run_succ_of_step haccept n).trans hrun, hdone,
    ?_, hanswers⟩
  rintro (_ | m) hpos hm
  · exact absurd hpos (lt_irrefl 0)
  · rw [run_succ_of_step haccept]
    exact hbetween m (Nat.lt_of_succ_lt_succ hm)

end Sys2Proof.Machine
end

section
/-! PROOFS. Reset (spec/70_reset_and_hazards.md R220, R221, U9): what becomes of an access in flight, and that the reset
state waits for a command and meets the invariant. -/

namespace Sys2Proof.Machine

open Sys2Proof.Safety

/-! ### An access in flight -/

theorem requestAt_withTurns (s : State) (turns : List Turn) : requestAt { s with turns := turns } = requestAt s := by
  simp only [requestAt, funext (requestOf_withTurns s turns)]

theorem hung_withTurns (s : State) (turns : List Turn) : Hung { s with turns := turns } ↔ Hung s := by
  rw [Hung, requestAt_withTurns]
  rfl

/-- With no access in flight reset abandons none. -/
theorem abandonInFlight_of_not_hung {s : State} (h : ¬ Hung s) (landed : Bool) : abandonInFlight landed s = s := by
  unfold abandonInFlight
  split
  · next hq hanswers => exact absurd ⟨by rw [hq]; rfl, by rw [hanswers]; rfl⟩ h
  · rfl

/-- At a register the Target performs a transaction as storage serves it. -/
theorem perform_stored {q : Request} {s : State} (hq : IsRegisterRequest s.par q) :
    (perform q none { s with answers := s.answers.tail }).2 = afterAccess q (storedFor q s) s := by
  obtain ⟨r, rfl | ⟨v, rfl⟩⟩ := hq
  · rfl
  · exact perform_write _ v none _

/-- A hung block's access is served by storage where it still lands, and dropped where not (U9). -/
theorem abandonInFlight_of_hung {s : State} {q : Request} (h : Hung s) (hq : requestAt s = some q) (landed : Bool) :
    abandonInFlight landed s =
      if landed then afterAccess q (storedFor q s) s else { s with answers := s.answers.tail } := by
  obtain ⟨rest, hanswers⟩ := List.head?_eq_some_iff.mp h.2
  rw [← perform_stored (requestAt_isRegisterRequest hq)]
  simp only [abandonInFlight, hq, hanswers, List.tail_cons]

/-- Whether the access lands or not, reset leaves the block and the other inputs as they were. -/
theorem abandonInFlight_frame (landed : Bool) (s : State) :
    abandonInFlight landed s = { s with
      mem := (abandonInFlight landed s).mem, trace := (abandonInFlight landed s).trace,
      answers := (abandonInFlight landed s).answers } := by
  by_cases h : Hung s
  · obtain ⟨q, hq⟩ := Option.isSome_iff_exists.mp h.1
    rw [abandonInFlight_of_hung h hq]
    split
    · rw [afterAccess_frame]
    · rfl
  · rw [abandonInFlight_of_not_hung h]

/-! ### The turn -/

theorem step_reset {s : State} (hlegal : s.par.legal = true) {landed : Bool} {rest : List Turn}
    (hturns : s.turns = .reset landed :: rest) :
    step s = .next (resetBlock (abandonInFlight landed { s with turns := rest })) := by
  rw [step_legal hlegal, takeTurn, hturns]
  rfl

/-- What a landed access leaves at the Target: a write its word and its two events, a read its one event. -/
theorem afterAccess_stored {q : Request} {s : State} (hq : IsRegisterRequest s.par q) :
    (q.write = true → (afterAccess q (storedFor q s) s).mem = s.mem.putWord q.address q.value ∧
      (afterAccess q (storedFor q s) s).trace =
        s.trace ++ [.wr q.address .four q.value, .rd q.address .four q.value]) ∧
    (q.write = false → (afterAccess q (storedFor q s) s).mem = s.mem ∧
      (afterAccess q (storedFor q s) s).trace = s.trace ++ [.rd q.address .four (s.mem.word q.address)]) := by
  obtain ⟨r, rfl | ⟨v, rfl⟩⟩ := hq
  · exact ⟨nofun, fun _ => ⟨rfl, rfl⟩⟩
  · exact ⟨fun _ => ⟨rfl, rfl⟩, nofun⟩

/-- Settles O48: the turn leaves `resetBlock` of what the abandoned access leaves. -/
theorem resetReturnsToIdle : Obligations.ResetReturnsToIdle := by
  intro s landed rest hlegal hturns
  have hframe := abandonInFlight_frame landed { s with turns := rest }
  refine ⟨_, step_reset hlegal hturns, rfl, rfl, rfl, rfl, (congrArg State.turns hframe :),
    (congrArg State.cmds hframe :), (congrArg State.par hframe :), fun hidle => ?_, fun hhung => ?_⟩
  · rw [abandonInFlight_of_not_hung ((hung_withTurns s rest).not.mpr hidle)]
    exact ⟨rfl, rfl, rfl⟩
  · obtain ⟨q, hq⟩ := Option.isSome_iff_exists.mp hhung.1
    rw [abandonInFlight_of_hung ((hung_withTurns s rest).mpr hhung) ((requestAt_withTurns s rest).trans hq)]
    cases landed with
    | false => exact ⟨rfl, fun _ => ⟨rfl, rfl⟩, nofun⟩
    | true =>
      refine ⟨afterAccess_answers q _ _, nofun, fun q' hq' _ => ?_⟩
      obtain rfl : q = q' := Option.some.inj (hq.symm.trans hq')
      obtain ⟨hwrite, hread⟩ := afterAccess_stored (s := { s with turns := rest }) (requestAt_isRegisterRequest hq)
      refine ⟨fun hw => ?_, hread⟩
      obtain ⟨hmem, htrace⟩ := hwrite hw
      refine ⟨?_, fun a ha => afterAccess_byte (.inr ha) _ _, htrace⟩
      exact (congrArg (·.word q.address) hmem).trans (Memory.word_putWord_same _ _ _)

/-! ### The reset state -/

/-- Settles O49: idle with no command waiting, the block steps to the state it is in. -/
theorem resetWaitsForACommand : Obligations.ResetWaitsForACommand := by
  have hstep : step State.reset = .next State.reset :=
    (step_decoded (by decide) rfl rfl).trans (accept_nothing rfl)
  exact ⟨rfl, rfl, rfl, rfl, rfl, fun k => restsAt_of_stationary hstep 0 k k.zero_le⟩

/-- Settles O57: at `S_IDLE` the invariant asks for the printed parameters, for ranges that 0 meets and for a Target
that the empty memory meets. -/
theorem resetMeetsTheInvariant : Obligations.ResetMeetsTheInvariant :=
  Fit.inv (fit_idle rfl nofun (fun _ => rfl) (Nat.zero_le _) (Nat.zero_le _) (Nat.zero_le _)
    ⟨reset_mem_wf, rfl⟩) rfl

end Sys2Proof.Machine
end
